-- ==== Sys2Proof/Word.lean ====
section
/-! DEFINITION. The word types of the core's three formats (spec/30_encoding.md R70, R80) and of its serialized
output (spec/20_memory.md R64). Bit 0 is the least significant bit (spec/00_scope.md R13). -/

namespace Sys2Proof

/-- A Line Command Word: every LCW is exactly 16 bits (R70). -/
abbrev Lcw := BitVec 16

/-- The bit pattern of one IEEE-754 binary32 value (R80). -/
abbrev F32 := BitVec 32

/-- One byte of a serialized output stream (R65). -/
abbrev Byte := BitVec 8

end Sys2Proof
end

