-- ==== Sys2Proof/Config.lean ====
section
/-! DEFINITION. The configuration record CFG (spec/10_state.md R24, R25) and the model's one uninterpreted constant.
The reference configuration REF and the legality rules R25 to R28 are in Machine/Configuration.lean. -/

namespace Sys2Proof

/-- The byte order of the serialized output words: the parameter BYTE_ORDER (R64, D28). -/
inductive ByteOrder where
  | little
  | big
  deriving DecidableEq, Repr

/-- CFG: one field per open parameter of spec/00_scope.md section 3 (R9, R24). Durations are seconds, rates are per
second, all of them exact rationals (R11); which values are legal is `Cfg.Legal`. -/
structure Cfg where
  /-- FS, the sample rate. -/
  fs : Rat
  /-- T_LINE, the line period. -/
  tLine : Rat
  /-- T_HSYNC, the horizontal sync duration. -/
  tHsync : Rat
  /-- T_BURST_DELAY, from the end of horizontal sync to the start of the burst. -/
  tBurstDelay : Rat
  /-- N_BURST_CYCLES, the burst length in subcarrier cycles. -/
  nBurstCycles : Nat
  /-- F_SC, the colour subcarrier frequency. -/
  fSc : Rat
  /-- T_BACK_PORCH, the back porch with its burst delay and burst. -/
  tBackPorch : Rat
  /-- T_ACTIVE, the active-video duration. -/
  tActive : Rat
  /-- T_FRONT_PORCH, the front porch duration. -/
  tFrontPorch : Rat
  /-- T_LONG_PULSE, the sync-level part of a long-sync item. -/
  tLongPulse : Rat
  /-- T_SHORT_PULSE, the sync-level part of a short-sync item. -/
  tShortPulse : Rat
  /-- N_VIS, the visible columns of an active line. -/
  nVis : Nat
  /-- W_REF, the reference source width. -/
  wRef : Nat
  /-- LEVEL_SYNC, the sync level of luma. -/
  levelSync : Rat
  /-- LEVEL_BLANK, the blanking level of luma. -/
  levelBlank : Rat
  /-- LEVEL_BLACK, the black level of luma. -/
  levelBlack : Rat
  /-- LEVEL_WHITE, the white level of luma. -/
  levelWhite : Rat
  /-- BYTE_ORDER, the byte order of the serialized output. -/
  byteOrder : ByteOrder
  deriving DecidableEq, Repr

/-- A FREE VALUE. `err_n` has 10 bits (R33), and in harness mode the index it records is the position of the word
(R131), which has no bound; the spec does not say what the register then holds. Argument: the State counter `freeCtr`
(DESIGN CHOICE, log 4). -/
opaque Config.freeErrN : Nat → BitVec 10

end Sys2Proof
end

