-- ==== Sys2Proof/Machine/Configuration.lean ====
section
/-! DEFINITION. The constants the source fixes (spec/00_scope.md R7, R8), the reference configuration REF
(spec/00_scope.md section 3) and the legal configurations (spec/10_state.md R25 to R28). -/

namespace Sys2Proof

namespace Machine

/-- N_LONG (R7). -/
def itemsLong : Nat := 5
/-- N_SHORT (R7). -/
def itemsShort : Nat := 5
/-- N_BLANK (R7). -/
def itemsBlank : Nat := 17
/-- N_ACTIVE (R7). -/
def itemsActive : Nat := 288
/-- N_ROWS (R7). -/
def sourceRows : Nat := 576
/-- BURST_AMP, the amplitude before the sqrt(1/2) factor (R8). -/
def burstAmp : Rat := 4 / 14

end Machine

/-- The reference configuration REF (spec/00_scope.md section 3). DESIGN CHOICE (log 1): the model's elaborated value
of CFG; the spec leaves every one of these open. -/
def Cfg.ref : Cfg where
  fs := 13500000
  tLine := 64 / 1000000
  tHsync := 47 / 10000000
  tBurstDelay := 9 / 10000000
  nBurstCycles := 10
  fSc := 443361875 / 100
  tBackPorch := 57 / 10000000
  tActive := 52 / 1000000
  tFrontPorch := 16 / 10000000
  tLongPulse := 273 / 10000000
  tShortPulse := 235 / 100000000
  nVis := 702
  wRef := 720
  levelSync := 0
  levelBlank := 3 / 10
  levelBlack := 3 / 10
  levelWhite := 1
  byteOrder := .little

/-- The bound on every level: an absolute value below 2^127 (R25). -/
abbrev Cfg.LevelInRange (v : Rat) : Prop :=
  -170141183460469231731687303715884105728 < v ∧ v < 170141183460469231731687303715884105728

/-- The basic legal values (R25). -/
abbrev Cfg.BasicLegal (c : Cfg) : Prop :=
  0 < c.fs ∧ 0 < c.fSc ∧ 0 < c.tLine ∧
  0 ≤ c.tHsync ∧ 0 ≤ c.tBurstDelay ∧ 0 ≤ c.tBackPorch ∧ 0 ≤ c.tActive ∧ 0 ≤ c.tFrontPorch ∧
  0 ≤ c.tLongPulse ∧ 0 ≤ c.tShortPulse ∧
  1 ≤ c.nBurstCycles ∧ 1 ≤ c.nVis ∧
  Cfg.LevelInRange c.levelSync ∧ Cfg.LevelInRange c.levelBlank ∧
  Cfg.LevelInRange c.levelBlack ∧ Cfg.LevelInRange c.levelWhite

/-- The relational legal values (R26, points 1 to 5). -/
abbrev Cfg.RelationalLegal (c : Cfg) : Prop :=
  c.tBurstDelay + c.nBurstCycles / c.fSc ≤ c.tBackPorch ∧
  c.tLongPulse ≤ c.tLine / 2 ∧ c.tShortPulse ≤ c.tLine / 2 ∧
  c.tHsync + c.tBackPorch ≤ c.tLine / 2 ∧
  c.nVis < c.wRef ∧
  c.levelSync ≤ c.levelBlank ∧ c.levelBlank ≤ c.levelWhite ∧
  c.levelSync ≤ c.levelBlack ∧ c.levelBlack ≤ c.levelWhite

/-- Line-duration legality: the four line durations sum to T_LINE exactly (R27). -/
abbrev Cfg.LineLegal (c : Cfg) : Prop :=
  c.tHsync + c.tBackPorch + c.tActive + c.tFrontPorch = c.tLine

/-- A configuration of this hardware (R28). -/
abbrev Cfg.Legal (c : Cfg) : Prop :=
  c.BasicLegal ∧ c.RelationalLegal ∧ c.LineLegal

end Sys2Proof
end

