-- ==== Sys2Proof/Machine/State.lean ====
section
/-! DEFINITION. The machine's state: everything spec/10_state.md gives the core (R20 to R41), the pixel source the host
attaches (spec/20_memory.md R51), and three fields of the model's own (who issues the words, the host's events to come,
the counter of the free value). INVENTORY.md lists every field with its rule and reset value. -/

namespace Sys2Proof.Machine

/-- The operating state `st`, a 2-bit register with four legal values: IDLE = 0, RUN = 1, DONE = 2, FAULT = 3 (R21). -/
inductive OpState where
  | idle
  | run
  | done
  | fault
  deriving DecidableEq, Repr

/-- The eight segment kinds, codes 0 to 7 in this order (spec/30_encoding.md R76). -/
inductive SegKind where
  | syncLong
  | syncShort
  | syncH
  | backPorch
  | burst
  | blankFill
  | activeVideo
  | frontPorch
  deriving DecidableEq, Repr

/-- A chroma component: an exact rational, or plus or minus k = sqrt(2)/7, carried symbolically (R11, R35). -/
inductive ChromaVal where
  | rat (q : Rat)
  | plusK
  | minusK
  deriving DecidableEq, Repr

/-- A segment run descriptor, the record the LineBuilder appends (spec/30_encoding.md R77): kind, luma, the chroma pair
(u, w), and the number of samples. -/
structure Run where
  kind : SegKind
  luma : Rat
  u : ChromaVal
  w : ChromaVal
  count : Nat
  deriving DecidableEq, Repr

/-- A run of the luma buffer (R35). -/
structure LumaRun where
  kind : SegKind
  v : Rat
  count : Nat
  deriving DecidableEq, Repr

/-- A run of the chroma buffer (R35). -/
structure ChromaRun where
  kind : SegKind
  u : ChromaVal
  w : ChromaVal
  count : Nat
  deriving DecidableEq, Repr

/-- One pixel of the source: three integer components (spec/20_memory.md R51, R60). -/
structure Rgb where
  r : Int
  g : Int
  b : Int
  deriving DecidableEq, Repr

/-- The pixel space as sparse data: (address, pixel) pairs, addresses strictly rising. The address of (xs, ys) is
`ys * width + xs`; an address that is not listed reads as the source's `fill`. -/
abbrev Memory := List (Nat × Rgb)

/-- A pixel source: `width`, `height` and a pixel for every coordinate inside them (R51). The core only reads it. -/
structure PixelSource where
  width : Nat
  height : Nat
  fill : Rgb
  cells : Memory
  deriving DecidableEq, Repr

/-- The error registers (R33). -/
structure ErrRegs where
  /-- err_code: 0 none, 1 InvalidPixelAccess, 2 MalformedColor, 3 IllegalCommand. -/
  code : BitVec 2
  /-- err_n: the item index of the faulting item. -/
  n : BitVec 10
  /-- err_x: the visible column being processed. -/
  x : Nat
  /-- err_xs: the source column. -/
  xs : Nat
  /-- err_ys: the source row. -/
  ys : Nat
  /-- err_comp: the offending component, 0 R, 1 G, 2 B. -/
  comp : BitVec 2
  /-- err_val: the offending component's value. -/
  val : Int
  /-- err_word: the offending LCW. -/
  word : Lcw
  deriving DecidableEq, Repr

/-- Who hands the LineBuilder its words: the FrameSequencer, or a test driver in harness mode, with the position of the
next word and the words still to come (spec/42_line_builder.md R131). -/
inductive Driver where
  | sequencer
  | harness (pos : Nat) (words : List Lcw)
  deriving DecidableEq, Repr

/-- What the outside world does to the core in one step (spec/60_exceptions.md R220, spec/42_line_builder.md R131). -/
inductive HostInput where
  /-- No event: the core takes its own step. -/
  | quiet
  /-- The reset event (R230). -/
  | reset
  /-- The start event (R231). -/
  | start
  /-- A test driver begins a harness run with these words (R131). -/
  | harness (words : List Lcw)
  /-- The host attaches a pixel source (R51, R220). -/
  | attach (src : PixelSource)
  /-- The host changes CFG, which it must not do (R237). -/
  | reconfigure (c : Cfg)
  deriving DecidableEq, Repr

/-- The whole state of the machine. -/
structure State where
  /-- CFG (R24): read-only. -/
  cfg : Cfg
  /-- st (R21). -/
  st : OpState
  /-- ph, the phase number, 0 to 12 (R22). -/
  ph : BitVec 4
  /-- it, the item index within the phase (R22). -/
  it : BitVec 9
  /-- even, the parity flag: true is 1 is even parity (R23). -/
  even : Bool
  /-- x, the visible-column counter of the ACTIVE item (R32). -/
  x : Nat
  /-- The error registers (R33). -/
  err : ErrRegs
  /-- n_out, the output sample counter (R34). -/
  nOut : Nat
  /-- LBUF, the luma buffer, oldest run first (R35). -/
  lbuf : List LumaRun
  /-- CBUF, the chroma buffer, oldest run first (R35). -/
  cbuf : List ChromaRun
  /-- LUMA_OUT (R38). -/
  lumaOut : List F32
  /-- CHROMA_OUT, (I, Q) pairs (R38). -/
  chromaOut : List (F32 × F32)
  /-- The pixel source the host has attached, if any (R51). -/
  source : Option PixelSource
  /-- The model's own: who issues the words. -/
  driver : Driver
  /-- The model's own: the host's events to come, one per step; none listed is `quiet`. -/
  inputs : List HostInput
  /-- The model's own: the counter the free value is applied to. -/
  freeCtr : Nat
  deriving DecidableEq, Repr

/-- Why the machine stops with a fault. The spec's own errors are no such stop: they are states with `st = FAULT`. -/
inductive Fault where
  /-- Raised by the fetch when `st = RUN`, the FrameSequencer issues, and `(ph, it)` names no item of the schedule. The
  spec gives this state no meaning (R22: the values are never written) and no run reaches it. Safe: the model stops. -/
  | pointerOffSchedule
  deriving DecidableEq, Repr

/-- Why the model gives a step no meaning. -/
inductive Refusal where
  /-- Raised by `exec` for an instruction without a meaning. Safe: nothing can be proved of such a step. -/
  | notModelled (mnemonic : String)
  /-- Raised by `step` and `elaborate` when CFG breaks R25, R26 or R27 (R28: refused, no run). Safe. -/
  | illegalConfiguration
  /-- Raised when the host changes CFG (R237: the model refuses it). Safe. -/
  | configurationChanged
  /-- Raised when the host changes the pixel source while `st = RUN` (R238: refusal). Safe. -/
  | pixelSourceChanged
  /-- Raised by start, and by ACTIVE in harness mode, when no pixel source is attached, which the host must have done
  (R220: anything else is unmodelled). Safe. -/
  | pixelSourceNotAttached
  deriving DecidableEq, Repr

/-- Every error register 0 (R41). -/
def ErrRegs.none : ErrRegs := ⟨0#2, 0#10, 0, 0, 0, 0#2, 0, 0#16⟩

/-- The reset values of spec/10_state.md R41, for a core elaborated with `c`. No pixel source is attached and no event
is to come (DESIGN CHOICE, log 2 and log 3). -/
def State.initial (c : Cfg) : State where
  cfg := c
  st := .idle
  ph := 0#4
  it := 0#9
  even := true
  x := 0
  err := ErrRegs.none
  nOut := 0
  lbuf := []
  cbuf := []
  lumaOut := []
  chromaOut := []
  source := none
  driver := .sequencer
  inputs := []
  freeCtr := 0

/-- The machine right after reset, elaborated with the reference configuration (R41; CFG: DESIGN CHOICE, log 1). -/
def State.reset : State := State.initial Cfg.ref

end Sys2Proof.Machine
end

