-- ==== Sys2Proof/Machine/Chroma.lean ====
section
/-! DEFINITION. The ChromaEncoder (spec/41_chroma_encoder.md R110 to R116) and the burst value
(spec/42_line_builder.md R135). All arithmetic is exact. -/

namespace Sys2Proof.Machine

/-- What ENCODE answers: the sample value, or the component the check rejects (R110, R111). -/
inductive EncodeResult where
  | sample (luma u v : Rat)
  | malformed (comp : BitVec 2) (val : Int)
  deriving DecidableEq, Repr

/-- The component check: a component outside [0, 255] fails (R111). -/
def componentBad (v : Int) : Bool := decide (v < 0) || decide (255 < v)

/-- Y of normalized components (R112). -/
def lumaY (r g b : Rat) : Rat := 299 / 1000 * r + 587 / 1000 * g + 114 / 1000 * b

/-- U of normalized components (R112). -/
def chromaU (r g b : Rat) : Rat := -(147 / 1000) * r - 289 / 1000 * g + 436 / 1000 * b

/-- V of normalized components, before the parity sign (R112). -/
def chromaV (r g b : Rat) : Rat := 615 / 1000 * r - 515 / 1000 * g - 100 / 1000 * b

/-- The luma mapping (R113). -/
def lumaLevel (c : Cfg) (y : Rat) : Rat := c.levelBlack + y * (c.levelWhite - c.levelBlack)

/-- V alternation: negated when the parity is odd (R114). -/
def paritySign (par : Bool) (v : Rat) : Rat := if par then v else -v

/-- `ENCODE(r, g, b, par)` (R110): the components are checked in the order r, g, b and divided by 255. -/
def chromaEncode (c : Cfg) (px : Rgb) (par : Bool) : EncodeResult :=
  if componentBad px.r then .malformed 0#2 px.r
  else if componentBad px.g then .malformed 1#2 px.g
  else if componentBad px.b then .malformed 2#2 px.b
  else
    let r : Rat := px.r / 255
    let g : Rat := px.g / 255
    let b : Rat := px.b / 255
    .sample (lumaLevel c (lumaY r g b)) (chromaU r g b) (paritySign par (chromaV r g b))

/-- The U component of the burst, -k at either parity (R135). -/
def burstU : ChromaVal := .minusK

/-- The V component of the burst: +k when even, -k when odd (R135). -/
def burstV (par : Bool) : ChromaVal := if par then .plusK else .minusK

end Sys2Proof.Machine
end

