-- ==== Sys2Proof/Machine/Flags.lean ====
section
/-! DEFINITION. The status bits. The core has no condition codes and every command writes no flag
(spec/42_line_builder.md R140 to R145); what it has is the parity flag `even` with its one toggle
(spec/43_frame_sequencer.md R166), the level outputs `done` and `fault` (spec/60_exceptions.md R214), and the codes of
`st` and of the segment kinds (spec/10_state.md R21, spec/30_encoding.md R76). -/

namespace Sys2Proof.Machine

/-- The parity after an item (R166). -/
def togglePar (even : Bool) : Bool := !even

/-- The status output `done` (R214). -/
def State.doneOut (s : State) : Bool := s.st == .done

/-- The status output `fault` (R214). -/
def State.faultOut (s : State) : Bool := s.st == .fault

/-- The 2-bit value of `st` (R21). -/
def OpState.code : OpState → BitVec 2
  | .idle => 0#2
  | .run => 1#2
  | .done => 2#2
  | .fault => 3#2

/-- The 3-bit kind code of a run (R76). -/
def SegKind.code : SegKind → BitVec 3
  | .syncLong => 0#3
  | .syncShort => 1#3
  | .syncH => 2#3
  | .backPorch => 3#3
  | .burst => 4#3
  | .blankFill => 5#3
  | .activeVideo => 6#3
  | .frontPorch => 7#3

end Sys2Proof.Machine
end

