-- ==== Sys2Proof/Machine/Timing.lean ====
section
/-! DEFINITION. The TimingCompiler (spec/40_timing_compiler.md R100 to R103), the rounding primitive `rhe`
(spec/00_scope.md R12), and the counts the core derives from CFG (spec/10_state.md R30). -/

namespace Sys2Proof.Machine

/-- The quotient `n / d` rounded to the nearest integer, a tie to the even one: `n = q * d + r` with `0 ≤ r < d`. -/
def rheDiv (n : Int) (d : Nat) : Int :=
  let q := n / d
  let r := n % d
  if 2 * r < d then q
  else if d < 2 * r then q + 1
  else if q % 2 = 0 then q
  else q + 1

/-- `rhe(q)`: round half to even (R12). -/
def rhe (q : Rat) : Int := rheDiv q.num q.den

/-- `samples(d)`, the one operation of the TimingCompiler (R100): a count is always a natural number (R15). No legal
configuration converts a negative duration (R100). -/
def samples (c : Cfg) (d : Rat) : Nat := (rhe (d * c.fs)).toNat

/-- The burst's duration, N_BURST_CYCLES / F_SC seconds (R134). -/
def burstDuration (c : Cfg) : Rat := c.nBurstCycles / c.fSc

/-- T_PIXEL = T_ACTIVE / N_VIS (R10). -/
def pixelDuration (c : Cfg) : Rat := c.tActive / c.nVis

/-- n_hsync (R30). -/
def nHsync (c : Cfg) : Nat := samples c c.tHsync
/-- n_bdelay (R30). -/
def nBdelay (c : Cfg) : Nat := samples c c.tBurstDelay
/-- n_burst (R30). -/
def nBurst (c : Cfg) : Nat := samples c (burstDuration c)
/-- n_bprem: the difference is formed on durations and converted once (R30, R102, D15). -/
def nBprem (c : Cfg) : Nat := samples c (c.tBackPorch - c.tBurstDelay - burstDuration c)
/-- n_active (R30). -/
def nActive (c : Cfg) : Nat := samples c c.tActive
/-- n_pix (R30). -/
def nPix (c : Cfg) : Nat := samples c (pixelDuration c)
/-- n_front (R30). -/
def nFront (c : Cfg) : Nat := samples c c.tFrontPorch
/-- n_long_p (R30). -/
def nLongP (c : Cfg) : Nat := samples c c.tLongPulse
/-- n_long_r (R30). -/
def nLongR (c : Cfg) : Nat := samples c (c.tLine / 2 - c.tLongPulse)
/-- n_short_p (R30). -/
def nShortP (c : Cfg) : Nat := samples c c.tShortPulse
/-- n_short_r (R30). -/
def nShortR (c : Cfg) : Nat := samples c (c.tLine / 2 - c.tShortPulse)
/-- n_half (R30). -/
def nHalf (c : Cfg) : Nat := samples c (c.tLine / 2)
/-- n_tailfill (R30, D14). -/
def nTailfill (c : Cfg) : Nat := samples c (c.tLine / 2 - c.tHsync - c.tBackPorch)

/-- The nominal playback time of output sample `k`, in seconds (R215, R242). -/
def playbackTime (c : Cfg) (k : Nat) : Rat := k / c.fs

end Sys2Proof.Machine
end

