-- ==== Sys2Proof/Machine/Operands.lean ====
section
/-! DEFINITION. The operand forms: the column map (spec/20_memory.md R55), the row operand (spec/30_encoding.md R73),
and the pixel space with its one read (R51, R52) as sparse data in canonical form. -/

namespace Sys2Proof.Machine

/-- The column map: visible column `x` reads source column `rhe(x * W_REF / N_VIS)`, the quotient taken exactly (R55).
The result is never negative (R52). -/
def columnMap (c : Cfg) (x : Nat) : Nat := (rhe ((x : Rat) * c.wRef / c.nVis)).toNat

/-- xs_max, the largest source column read (R57). -/
def xsMax (c : Cfg) : Nat := columnMap c (c.nVis - 1)

/-- The row operand: the source row is the ROW field unchanged, with no scaling or offset (R73, R145). -/
def rowOperand (row : Nat) : Nat := row

/-- The pixel at an address: what the memory lists there, else `fill`. -/
def memoryRead (fill : Rgb) : Memory → Nat → Rgb
  | [], _ => fill
  | (b, v) :: m, a => if a = b then v else memoryRead fill m a

/-- `m` with the pixel `v` at address `a`, in canonical form: a pixel equal to `fill` is not listed. -/
def memoryWrite (fill : Rgb) : Memory → Nat → Rgb → Memory
  | [], a, v => if v = fill then [] else [(a, v)]
  | (b, u) :: m, a, v =>
    if a < b then (if v = fill then (b, u) :: m else (a, v) :: (b, u) :: m)
    else if a = b then (if v = fill then m else (a, v) :: m)
    else (b, u) :: memoryWrite fill m a v

/-- The canonical form: addresses strictly rising, and no entry equal to what an unlisted address reads as. -/
def Memory.wf (fill : Rgb) : Memory → Bool
  | [] => true
  | [(_, v)] => decide (v ≠ fill)
  | (a, v) :: (b, u) :: m => decide (v ≠ fill) && decide (a < b) && Memory.wf fill ((b, u) :: m)

/-- A pixel source in canonical form: its memory is, and it lists no address outside the image. -/
def PixelSource.wf (src : PixelSource) : Bool :=
  Memory.wf src.fill src.cells && src.cells.all fun e => decide (e.1 < src.width * src.height)

/-- `pixel(xs, ys)`, meant for `xs < width` and `ys < height` (R51). -/
def PixelSource.pixel (src : PixelSource) (xs ys : Nat) : Rgb :=
  memoryRead src.fill src.cells (ys * src.width + xs)

/-- The coordinate is inside the image (R51, R52). -/
def PixelSource.contains (src : PixelSource) (xs ys : Nat) : Bool :=
  decide (xs < src.width) && decide (ys < src.height)

/-- `PixRead(xs, ys)`: the whole pixel, or none where InvalidPixelAccess is raised; never clamped or wrapped (R52). -/
def pixRead (src : PixelSource) (xs ys : Nat) : Option Rgb :=
  if src.width ≤ xs ∨ src.height ≤ ys then none else some (src.pixel xs ys)

/-- The host's image with one pixel changed, for building an image to attach; outside the image nothing changes. -/
def PixelSource.setPixel (src : PixelSource) (xs ys : Nat) (v : Rgb) : PixelSource :=
  if src.contains xs ys then
    { src with cells := memoryWrite src.fill src.cells (ys * src.width + xs) v }
  else src

/-- "Image W×H c": every pixel is `v` (spec/95_test_vectors.md). -/
def PixelSource.uniform (width height : Nat) (v : Rgb) : PixelSource := ⟨width, height, v, []⟩

/-- The two sources are the same image: the same `W`, `H` and value of every pixel (R238). -/
def PixelSource.sameImage (a b : PixelSource) : Bool :=
  a == b ||
    (a.width == b.width && a.height == b.height &&
      (List.range a.height).all fun ys => (List.range a.width).all fun xs => a.pixel xs ys == b.pixel xs ys)

end Sys2Proof.Machine
end

