-- ==== Sys2Proof/Syntax.lean ====
section
/-! DEFINITION. The instructions of the core: one constructor per row of spec/opcode_table.json. The operands are the
parity bit EVEN (spec/30_encoding.md R72: true is even, R16) and the source row ROW (R73). -/

namespace Sys2Proof

/-- A Line Command, one constructor per row of the opcode table (R74). -/
inductive Instr where
  /-- LONG par: one long-sync item (R140). -/
  | long (par : Bool)
  /-- SHORT par: one short-sync item (R141). -/
  | short (par : Bool)
  /-- BLANK par: one blanking line (R142). -/
  | blank (par : Bool)
  /-- ACTIVE row, par: one active line of the source row `row` (R145). -/
  | active (row : Nat) (par : Bool)
  /-- HALF par: the leading half-line filler of Field 2 (R143). -/
  | half (par : Bool)
  /-- TAIL par: the trailing half line of Field 2 (R144). -/
  | tail (par : Bool)
  /-- RESERVED_OP6: the whole word `w`, with OP = 110 (R75). -/
  | reservedOp6 (w : Lcw)
  /-- RESERVED_OP7: the whole word `w`, with OP = 111 (R75). -/
  | reservedOp7 (w : Lcw)
  deriving DecidableEq, Repr

end Sys2Proof
end

