-- ==== Sys2Proof/WellFormed.lean ====
section
/-! DEFINITION. Which terms of `Instr` are instructions of the hardware: ROW is a 10-bit unsigned field
(spec/30_encoding.md R73: 0..1023), and the word a reserved row carries has that row's OP (R75). -/

namespace Sys2Proof

/-- The operands fit their fields of the LCW layout (R71, R73, R75). -/
def Instr.wellFormed : Instr → Bool
  | .long _ => true
  | .short _ => true
  | .blank _ => true
  | .active row _ => decide (row < 1024)
  | .half _ => true
  | .tail _ => true
  | .reservedOp6 w => w.extractLsb' 0 3 == 6#3
  | .reservedOp7 w => w.extractLsb' 0 3 == 7#3

end Sys2Proof
end

