-- ==== Sys2Proof/Decode.lean ====
section
/-! DEFINITION. The LCW layout (spec/30_encoding.md R71), the decoder (R79), total over all 2^16 words and rejecting
by name, and the encoder (R71, R74, R83). -/

namespace Sys2Proof

/-- Field OP, bits 2:0 (R71). -/
def lcwOp (w : Lcw) : BitVec 3 := w.extractLsb' 0 3

/-- Field EVEN, bit 3 (R71, R72): 1 is even parity. -/
def lcwEven (w : Lcw) : Bool := w.getLsbD 3

/-- Field ROW, bits 13:4 (R71, R73): unsigned. -/
def lcwRow (w : Lcw) : BitVec 10 := w.extractLsb' 4 10

/-- Field RSV, bits 15:14 (R71). -/
def lcwRsv (w : Lcw) : BitVec 2 := w.extractLsb' 14 2

/-- The word {RSV = 0, ROW, EVEN, OP} of the layout R71. -/
def lcwWord (row : BitVec 10) (even : Bool) (op : BitVec 3) : Lcw :=
  0#2 ++ row ++ BitVec.ofBool even ++ op

/-- Why a word whose OP is one of the six commands is illegal (R75); the two reserved OP values are rows of the opcode
table and decode to their own constructors. -/
inductive IllegalReason where
  /-- RSV ≠ 0 (R75). -/
  | reservedBits
  /-- ROW ≠ 0 with OP ≠ 011 (R75). -/
  | rowOnNonActive
  deriving DecidableEq, Repr

/-- The decoder's answer: an instruction, or the word rejected by name. -/
inductive Decoded where
  | instr (i : Instr)
  | illegal (reason : IllegalReason) (w : Lcw)
  deriving DecidableEq, Repr

/-- The command of a legal word's OP, for the five commands that take no row (R74). -/
def decodeOp (w : Lcw) : Instr :=
  match (lcwOp w).toNat with
  | 0 => .long (lcwEven w)
  | 1 => .short (lcwEven w)
  | 2 => .blank (lcwEven w)
  | 3 => .active (lcwRow w).toNat (lcwEven w)
  | 4 => .half (lcwEven w)
  | 5 => .tail (lcwEven w)
  | 6 => .reservedOp6 w
  | _ => .reservedOp7 w

/-- The decoding procedure R79. The opcode table's rows RESERVED_OP6 and RESERVED_OP7 cover every word with their OP,
whatever its other bits, so OP is looked at first; every such word is Illegal(w) in R79 and raises IllegalCommand. -/
def decode (w : Lcw) : Decoded :=
  if lcwOp w = 6#3 ∨ lcwOp w = 7#3 then .instr (decodeOp w)
  else if lcwRsv w ≠ 0#2 then .illegal .reservedBits w
  else if lcwOp w = 3#3 then .instr (decodeOp w)
  else if lcwRow w ≠ 0#10 then .illegal .rowOnNonActive w
  else .instr (decodeOp w)

/-- R75: the LCW is illegal. -/
def lcwIllegal (w : Lcw) : Bool :=
  lcwOp w == 6#3 || lcwOp w == 7#3 || lcwRsv w != 0#2 || (lcwRow w != 0#10 && lcwOp w != 3#3)

/-- The instruction the decoder reads from the word whose bits are `w`, numbered as spec/opcode_table.json numbers
them; every LCW is 16 bits (R70), and the bits above `nbits` are 0. -/
def decodeTableWord (nbits w : Nat) : Option Instr :=
  if nbits ≤ 16 then
    match decode (BitVec.ofNat 16 (w % 2 ^ nbits)) with
    | .instr i => some i
    | .illegal _ _ => none
  else none

/-- The word of a well-formed instruction: word = (ROW << 4) | (EVEN << 3) | OP (R71, R74). -/
def encode : Instr → Lcw
  | .long par => lcwWord 0#10 par 0#3
  | .short par => lcwWord 0#10 par 1#3
  | .blank par => lcwWord 0#10 par 2#3
  | .active row par => lcwWord (BitVec.ofNat 10 row) par 3#3
  | .half par => lcwWord 0#10 par 4#3
  | .tail par => lcwWord 0#10 par 5#3
  | .reservedOp6 w => w
  | .reservedOp7 w => w

end Sys2Proof
end

