-- ==== Sys2Proof/Machine/Schedule.lean ====
section
/-! DEFINITION. The fixed schedule of the FrameSequencer (spec/43_frame_sequencer.md R160 to R163, R170 to R172): its
phase table, the item index, the word it forms for an item, the advance of `(ph, it)`, and the frame totals. -/

namespace Sys2Proof.Machine

/-- The six item kinds (R18). -/
inductive ItemKind where
  | long
  | short
  | blank
  | active
  | half
  | tail
  deriving DecidableEq, Repr

/-- The OP value of an item kind (R74). -/
def ItemKind.op : ItemKind → BitVec 3
  | .long => 0#3
  | .short => 1#3
  | .blank => 2#3
  | .active => 3#3
  | .half => 4#3
  | .tail => 5#3

/-- A row of the phase table: the kind, the count, and for an active phase the source row of its item 0. -/
structure Phase where
  kind : ItemKind
  count : Nat
  firstRow : Nat
  deriving DecidableEq, Repr

/-- The phase table R160, rows `ph` = 0 to 11; 12 is END. -/
def phaseTable : List Phase :=
  [⟨.long, itemsLong, 0⟩, ⟨.short, itemsShort, 0⟩, ⟨.blank, itemsBlank, 0⟩, ⟨.active, itemsActive, 0⟩,
   ⟨.short, itemsShort, 0⟩,
   ⟨.long, itemsLong, 0⟩, ⟨.short, itemsShort, 0⟩, ⟨.half, 1, 0⟩, ⟨.blank, itemsBlank, 0⟩,
   ⟨.active, itemsActive, 1⟩, ⟨.tail, 1, 0⟩, ⟨.short, itemsShort, 0⟩]

/-- `count(ph)`: 0 at END (R160). -/
def phaseCount (ph : Nat) : Nat :=
  match phaseTable[ph]? with
  | some p => p.count
  | none => 0

/-- The row of item `it`: `2*it` in phase 3 and `2*it + 1` in phase 9, 0 in the phases that are not active (R162). -/
def Phase.row (p : Phase) (it : Nat) : Nat :=
  match p.kind with
  | .active => 2 * it + p.firstRow
  | _ => 0

/-- The derived item index: the sum of `count(p)` for `p < ph`, plus `it` (R22). -/
def scheduleIndex (ph it : Nat) : Nat := ((phaseTable.take ph).map Phase.count).sum + it

/-- The LCW the FrameSequencer forms at `(ph, it)` with the parity `even`, if that is an item (R162). -/
def issueWord (ph it : Nat) (even : Bool) : Option Lcw :=
  match phaseTable[ph]? with
  | some p => if it < p.count then some (lcwWord (BitVec.ofNat 10 (p.row it)) even p.kind.op) else none
  | none => none

/-- The item `n` places past `(ph, it) = (0, 0)` in the phases `ps`: its phase row and its index in the phase. -/
def itemAtFrom : List Phase → Nat → Option (Phase × Nat)
  | [], _ => none
  | p :: ps, n => if n < p.count then some (p, n) else itemAtFrom ps (n - p.count)

/-- The item with index `n` of the frame (R160, R18). -/
def itemAt (n : Nat) : Option (Phase × Nat) := itemAtFrom phaseTable n

/-- The advance of `(ph, it)` after an item without fault (R163). -/
def advancePointer (ph : BitVec 4) (it : BitVec 9) : BitVec 4 × BitVec 9 :=
  if it.toNat + 1 < phaseCount ph.toNat then (ph, it + 1#9) else (ph + 1#4, 0#9)

/-- N_ITEMS (R161). -/
def nItems : Nat := 642

/-- The sample count of each item (spec/42_line_builder.md R146). -/
def itemSamples (c : Cfg) : ItemKind → Nat
  | .long => nLongP c + nLongR c
  | .short => nShortP c + nShortR c
  | .blank => nHsync c + nBdelay c + nBurst c + nBprem c + nActive c + nFront c
  | .active => nHsync c + nBdelay c + nBurst c + nBprem c + c.nVis * nPix c + nFront c
  | .half => nHalf c
  | .tail => nHsync c + nBdelay c + nBurst c + nBprem c + nTailfill c

/-- The number of runs of each item (R147). -/
def itemRunCount (c : Cfg) : ItemKind → Nat
  | .long => 2
  | .short => 2
  | .blank => 6
  | .active => c.nVis + 5
  | .half => 1
  | .tail => 5

/-- The item's physical duration, in seconds: half a line period, or one (R171). -/
def itemDuration (c : Cfg) : ItemKind → Rat
  | .blank => c.tLine
  | .active => c.tLine
  | _ => c.tLine / 2

/-- N_FIELD1 (R170). -/
def nField1 (c : Cfg) : Nat :=
  5 * itemSamples c .long + 5 * itemSamples c .short + 17 * itemSamples c .blank + 288 * itemSamples c .active +
    5 * itemSamples c .short

/-- N_FIELD2 (R170). -/
def nField2 (c : Cfg) : Nat :=
  5 * itemSamples c .long + 5 * itemSamples c .short + itemSamples c .half + 17 * itemSamples c .blank +
    288 * itemSamples c .active + itemSamples c .tail + 5 * itemSamples c .short

/-- N_FRAME (R170). -/
def nFrame (c : Cfg) : Nat := nField1 c + nField2 c

/-- The samples of one whole phase. -/
def phaseSamples (c : Cfg) (p : Phase) : Nat := p.count * itemSamples c p.kind

/-- K(ph): the sample index at which phase `ph` starts (R172). -/
def phaseStart (c : Cfg) (ph : Nat) : Nat := ((phaseTable.take ph).map (phaseSamples c)).sum

/-- The sample index at which item `it` of phase `ph` starts (R172). -/
def itemStart (c : Cfg) (ph it : Nat) : Nat :=
  phaseStart c ph +
    match phaseTable[ph]? with
    | some p => it * itemSamples c p.kind
    | none => 0

/-- The frame's duration in seconds (R171). -/
def frameDuration (c : Cfg) : Rat :=
  (phaseTable.map fun p => (p.count : Rat) * itemDuration c p.kind).sum

end Sys2Proof.Machine
end

