-- ==== Sys2Proof/Machine/Ops.lean ====
section
/-! DEFINITION. The shared operations: `Append` (spec/10_state.md R36), the three errors and FAULT ENTRY
(spec/60_exceptions.md R200 to R205), and beside it the only way out of FAULT, the reset event
(spec/60_exceptions.md R208, spec/70_reset_and_hazards.md R230). -/

namespace Sys2Proof.Machine

/-- The luma half of a run (R35, R36). -/
def Run.toLuma (r : Run) : LumaRun := ⟨r.kind, r.luma, r.count⟩

/-- The chroma half of a run (R35, R36). -/
def Run.toChroma (r : Run) : ChromaRun := ⟨r.kind, r.u, r.w, r.count⟩

/-- The samples of a list of runs. -/
def runSamples (rs : List Run) : Nat := (rs.map Run.count).sum

/-- `Append(kind, luma, chroma, count)`: one run to both buffers in one action, and `n_out <- n_out + count` (R36). -/
def State.append (r : Run) (s : State) : State :=
  { s with lbuf := s.lbuf ++ [r.toLuma], cbuf := s.cbuf ++ [r.toChroma], nOut := s.nOut + r.count }

/-- The Appends of a list of runs, in order (R151); `appendAll_cons` says it is `append` one run after the other. -/
def State.appendAll (rs : List Run) (s : State) : State :=
  { s with
    lbuf := s.lbuf ++ rs.map Run.toLuma
    cbuf := s.cbuf ++ rs.map Run.toChroma
    nOut := s.nOut + runSamples rs }

/-- An error with its info (R200 to R203). -/
inductive ItemError where
  /-- Raised by PixRead: the visible column and the source coordinates (R201). -/
  | invalidPixelAccess (x xs ys : Nat)
  /-- Raised by the component check: the same, the component and its value (R202). -/
  | malformedColor (x xs ys : Nat) (comp : BitVec 2) (val : Int)
  /-- Raised for an illegal LCW (R203). -/
  | illegalCommand (w : Lcw)
  deriving DecidableEq, Repr

/-- What fault entry records for an error of the item with index `n`; a register the error does not name is 0
(R201, R202, R203). -/
def ItemError.record (n : BitVec 10) : ItemError → ErrRegs
  | .invalidPixelAccess x xs ys => ⟨1#2, n, x, xs, ys, 0#2, 0, 0#16⟩
  | .malformedColor x xs ys comp val => ⟨2#2, n, x, xs, ys, comp, val, 0#16⟩
  | .illegalCommand w => ⟨3#2, n, 0, 0, 0, 0#2, 0, w⟩

/-- The column counter at the raise: the column being processed (R32, R33); an illegal word starts no column. -/
def ItemError.column (x0 : Nat) : ItemError → Nat
  | .invalidPixelAccess x _ _ => x
  | .malformedColor x _ _ _ _ => x
  | .illegalCommand _ => x0

/-- The index of the item being executed: `n(ph, it)` in the hardware's own run (R22), the position of the word in
harness mode (R131). -/
def State.itemIndex (s : State) : Nat :=
  match s.driver with
  | .sequencer => scheduleIndex s.ph.toNat s.it.toNat
  | .harness pos _ => pos

/-- The item index fits the 10 bits of `err_n` (R33); in the hardware's own run it always does (R22). -/
def State.itemIndexFits (s : State) : Bool := decide (s.itemIndex < 1024)

/-- What `err_n` records: the item index, and the free value where a harness position does not fit (log 4). -/
def State.errIndex (s : State) : BitVec 10 :=
  if s.itemIndexFits then BitVec.ofNat 10 s.itemIndex else Config.freeErrN s.freeCtr

/-- FAULT ENTRY (R205): `st <- FAULT` and the error registers; `even`, `(ph, it)`, `n_out` and the buffers stay. -/
def State.raise (e : ItemError) (s : State) : State :=
  { s with
    st := .fault
    err := e.record s.errIndex
    x := e.column s.x
    freeCtr := if s.itemIndexFits then s.freeCtr else s.freeCtr + 1 }

/-- THE RESET EVENT (R230, R41), the only way out of FAULT and of DONE (R208): every piece of state to its reset value,
CFG as it is. The attached pixel source stays attached (log 2), and the events to come and the free value's counter are
the model's own. -/
def State.resetEvent (s : State) : State :=
  { State.initial s.cfg with source := s.source, inputs := s.inputs, freeCtr := s.freeCtr }

/-- The start action, in one step (R231, R165); `d` is who issues the words. -/
def State.startRun (d : Driver) (s : State) : State :=
  { s with ph := 0#4, it := 0#9, even := true, nOut := 0, lbuf := [], cbuf := [], st := .run, driver := d }

end Sys2Proof.Machine
end

