-- ==== Sys2Proof/Machine/LineBuilder.lean ====
section
/-! DEFINITION. The LineBuilder (spec/42_line_builder.md): the sub-operations R132 to R134 as lists of runs, and one
meaning for each command (R140 to R145) and for each reserved row (R149). -/

namespace Sys2Proof.Machine

/-- A run with chroma (0, 0): every run but BURST and ACTIVE_VIDEO (D9). -/
def plainRun (kind : SegKind) (luma : Rat) (count : Nat) : Run := ⟨kind, luma, .rat 0, .rat 0, count⟩

/-- `horizontalSync()` (R132). -/
def horizontalSync (c : Cfg) : List Run := [plainRun .syncH c.levelSync (nHsync c)]

/-- `frontPorch()` (R133). -/
def frontPorch (c : Cfg) : List Run := [plainRun .frontPorch c.levelBlank (nFront c)]

/-- `backPorch(par)`: burst delay, burst, remainder (R134). -/
def backPorch (c : Cfg) (par : Bool) : List Run :=
  [plainRun .backPorch c.levelBlank (nBdelay c),
   ⟨.burst, c.levelBlank, burstU, burstV par, nBurst c⟩,
   plainRun .backPorch c.levelBlank (nBprem c)]

/-- The black-level fill, with no chroma (R142, R143, R144). -/
def blackFill (c : Cfg) (count : Nat) : List Run := [plainRun .blankFill c.levelBlack count]

/-- One visible column of an active line: the run to append, or the error raised (R145). -/
inductive ColumnResult where
  | run (r : Run)
  | error (e : ItemError)
  deriving DecidableEq, Repr

/-- Column `x` of the active line of source row `ys`: the bounds check before the colour check (R145, R209). -/
def activeColumn (c : Cfg) (src : PixelSource) (ys : Nat) (par : Bool) (x : Nat) : ColumnResult :=
  match pixRead src (columnMap c x) ys with
  | none => .error (.invalidPixelAccess x (columnMap c x) ys)
  | some px =>
    match chromaEncode c px par with
    | .malformed comp val => .error (.malformedColor x (columnMap c x) ys comp val)
    | .sample luma u v => .run ⟨.activeVideo, luma, .rat u, .rat v, nPix c⟩

/-- The columns in the order given, up to the first error: the runs appended, and the error (R145, R206, R209). -/
def activeColumns (c : Cfg) (src : PixelSource) (ys : Nat) (par : Bool) : List Nat → List Run × Option ItemError
  | [] => ([], none)
  | x :: rest =>
    match activeColumn c src ys par x with
    | .error e => ([], some e)
    | .run r =>
      let p := activeColumns c src ys par rest
      (r :: p.1, p.2)

/-- The visible part of an active line: columns 0 to N_VIS - 1 in increasing order (R145). -/
def activeVideo (c : Cfg) (src : PixelSource) (ys : Nat) (par : Bool) : List Run × Option ItemError :=
  activeColumns c src ys par (List.range c.nVis)

/-- The runs of a LONG item (R140). -/
def longRuns (c : Cfg) : List Run :=
  [plainRun .syncLong c.levelSync (nLongP c), plainRun .syncLong c.levelBlank (nLongR c)]

/-- The runs of a SHORT item (R141). -/
def shortRuns (c : Cfg) : List Run :=
  [plainRun .syncShort c.levelSync (nShortP c), plainRun .syncShort c.levelBlank (nShortR c)]

/-- The runs of a BLANK item (R142). -/
def blankRuns (c : Cfg) (par : Bool) : List Run :=
  horizontalSync c ++ backPorch c par ++ blackFill c (nActive c) ++ frontPorch c

/-- The runs of a HALF item (R143). -/
def halfRuns (c : Cfg) : List Run := blackFill c (nHalf c)

/-- The runs of a TAIL item (R144). -/
def tailRuns (c : Cfg) (par : Bool) : List Run :=
  horizontalSync c ++ backPorch c par ++ blackFill c (nTailfill c)

/-- `LONG <par>` (R140): the output does not depend on the parity. -/
def execLong (_par : Bool) (s : State) : Host.Outcome State Fault Refusal :=
  .next (s.appendAll (longRuns s.cfg))

/-- `SHORT <par>` (R141): the output does not depend on the parity. -/
def execShort (_par : Bool) (s : State) : Host.Outcome State Fault Refusal :=
  .next (s.appendAll (shortRuns s.cfg))

/-- `BLANK <par>` (R142). -/
def execBlank (par : Bool) (s : State) : Host.Outcome State Fault Refusal :=
  .next (s.appendAll (blankRuns s.cfg par))

/-- `ACTIVE <row>, <par>` (R145). On an error the runs already appended stay, no further run is appended, and fault
entry is taken (R205, R206). The column counter ends at N_VIS (R32, log 5). -/
def execActive (row : Nat) (par : Bool) (s : State) : Host.Outcome State Fault Refusal :=
  match s.source with
  | none => .refused .pixelSourceNotAttached
  | some src =>
    let lead := horizontalSync s.cfg ++ backPorch s.cfg par
    match activeVideo s.cfg src (rowOperand row) par with
    | (runs, none) => .next { s.appendAll (lead ++ runs ++ frontPorch s.cfg) with x := s.cfg.nVis }
    | (runs, some e) => .next ((s.appendAll (lead ++ runs)).raise e)

/-- `HALF <par>` (R143): the output does not depend on the parity. -/
def execHalf (_par : Bool) (s : State) : Host.Outcome State Fault Refusal :=
  .next (s.appendAll (halfRuns s.cfg))

/-- `TAIL <par>` (R144). -/
def execTail (par : Bool) (s : State) : Host.Outcome State Fault Refusal :=
  .next (s.appendAll (tailRuns s.cfg par))

/-- An illegal LCW raises IllegalCommand, appends nothing and reads no pixel (R149, R203). -/
def illegalWord (w : Lcw) (s : State) : Host.Outcome State Fault Refusal :=
  .next (s.raise (.illegalCommand w))

/-- A word with OP = 110 (R75, R149). -/
def execReservedOp6 (w : Lcw) (s : State) : Host.Outcome State Fault Refusal := illegalWord w s

/-- A word with OP = 111 (R75, R149). -/
def execReservedOp7 (w : Lcw) (s : State) : Host.Outcome State Fault Refusal := illegalWord w s

end Sys2Proof.Machine
end

