-- ==== Sys2Proof/Machine/Dispatch.lean ====
section
/-! DEFINITION. The one dispatch of the instructions to their meanings: the LineBuilder executes one command
(spec/42_line_builder.md). -/

namespace Sys2Proof.Machine

def exec (i : Instr) (s : State) : Host.Outcome State Fault Refusal :=
  match i with
  | .long par => Sys2Proof.Machine.execLong par s
  | .short par => Sys2Proof.Machine.execShort par s
  | .blank par => Sys2Proof.Machine.execBlank par s
  | .active row par => Sys2Proof.Machine.execActive row par s
  | .half par => Sys2Proof.Machine.execHalf par s
  | .tail par => Sys2Proof.Machine.execTail par s
  | .reservedOp6 w => Sys2Proof.Machine.execReservedOp6 w s
  | .reservedOp7 w => Sys2Proof.Machine.execReservedOp7 w s

end Sys2Proof.Machine
end

