-- ==== Sys2Proof/Machine/Binary32.lean ====
section
/-! DEFINITION. `f32`, the one rounding to IEEE-754 binary32, roundTiesToEven (spec/00_scope.md R12), and the value of
a binary32 word. -/

namespace Sys2Proof.Machine

/-- The greatest `l` with `2^l ≤ n / d`, for positive `n` and `d`. -/
def floorLog2 (n d : Nat) : Int :=
  let l : Int := (n.log2 : Int) - d.log2
  if 0 ≤ l then (if d * 2 ^ l.toNat ≤ n then l else l - 1)
  else (if d ≤ n * 2 ^ (-l).toNat then l else l - 1)

/-- The exponent of the last place of the binary32 neighbours of `n / d`: 24 significant bits, and no place below
2^-149. -/
def f32Place (n d : Nat) : Int := max (floorLog2 n d - 23) (-149)

/-- `(n / d) / 2^e` rounded to an integer, ties to even. -/
def f32Significand (n d : Nat) (e : Int) : Nat :=
  if 0 ≤ e then (rheDiv n (d * 2 ^ e.toNat)).toNat else (rheDiv (n * 2 ^ (-e).toNat) d).toNat

/-- The bits below the sign of the binary32 value nearest to `n / d`. The sum carries into the exponent field where the
significand rounds up to 2^24, and a significand below 2^23 is a subnormal. No value the core produces overflows
(R12, R31); one beyond the largest finite value would be infinity, as in IEEE-754 (PRESUMED, log 6). -/
def f32Magnitude (n d : Nat) : Nat :=
  let e := f32Place n d
  min ((e + 149).toNat * 2 ^ 23 + f32Significand n d e) 0x7F800000

/-- `f32(v)` for a rational (R12). Zero is +0.0, also for a negative `v` that rounds to zero, because FLATTEN produces
no negative zero (R190; DEDUCED, log 6). -/
def f32Rat (v : Rat) : F32 :=
  if v.num = 0 then 0#32
  else
    let m := f32Magnitude v.num.natAbs v.den
    if m = 0 then 0#32
    else BitVec.ofNat 32 (if v.num < 0 then 2 ^ 31 + m else m)

/-- `f32` of a chroma component; the two patterns of `k = sqrt(2)/7` are those of R135. -/
def f32Chroma : ChromaVal → F32
  | .rat q => f32Rat q
  | .plusK => 0x3E4EE116#32
  | .minusK => 0xBE4EE116#32

/-- The value of a binary32 word; none for an infinity or a NaN. -/
def f32Value (w : F32) : Option Rat :=
  let sign : Rat := if w.getLsbD 31 then -1 else 1
  let ex := (w.extractLsb' 23 8).toNat
  let frac := (w.extractLsb' 0 23).toNat
  if ex = 255 then none
  else if ex = 0 then some (sign * frac / 2 ^ 149)
  else some (sign * ((2 ^ 23 + frac : Nat) : Rat) * 2 ^ ex / 2 ^ 150)

end Sys2Proof.Machine
end

