-- ==== Sys2Proof/Machine/Emitter.lean ====
section
/-! DEFINITION. The SampleEmitter (spec/44_sample_emitter.md R190 to R194) and the serialized layout of its streams
(spec/20_memory.md R64, R65). -/

namespace Sys2Proof.Machine

/-- The luma stream of a buffer: each run's value, rounded once, `count` times (R190). -/
def flattenLuma (l : List LumaRun) : List F32 := l.flatMap fun r => List.replicate r.count (f32Rat r.v)

/-- The chroma stream of a buffer: the (I, Q) pair of each run, `count` times (R190, R80). -/
def flattenChroma (l : List ChromaRun) : List (F32 × F32) :=
  l.flatMap fun r => List.replicate r.count (f32Chroma r.u, f32Chroma r.w)

/-- The end of a run: FLATTEN, once and whole, and `st <- DONE` (R169, R190, R194). The buffers are kept, which R194
allows (log 7). -/
def State.finish (s : State) : State :=
  { s with st := .done, lumaOut := flattenLuma s.lbuf, chromaOut := flattenChroma s.cbuf }

/-- The four bytes of a word, at rising byte offsets, in the given order (R64). -/
def wordBytes (order : ByteOrder) (w : F32) : List Byte :=
  let le := [w.extractLsb' 0 8, w.extractLsb' 8 8, w.extractLsb' 16 8, w.extractLsb' 24 8]
  match order with
  | .little => le
  | .big => le.reverse

/-- The serialized luma stream: word `k` at byte offset `4k`, no header or padding (R65). -/
def serializeLuma (order : ByteOrder) (l : List F32) : List Byte := l.flatMap (wordBytes order)

/-- The serialized chroma stream: I at byte offset `8k`, Q at `8k + 4` (R65). -/
def serializeChroma (order : ByteOrder) (l : List (F32 × F32)) : List Byte :=
  l.flatMap fun p => wordBytes order p.1 ++ wordBytes order p.2

/-- What the host collects: the two streams, once `done = 1` (R194, R220, R236). -/
def State.collect (s : State) : Option (List F32 × List (F32 × F32)) :=
  if s.doneOut then some (s.lumaOut, s.chromaOut) else none

/-- The two files the collected streams serialize to, in BYTE_ORDER (R65, R220). -/
def State.collectBytes (s : State) : Option (List Byte × List Byte) :=
  if s.doneOut then
    some (serializeLuma s.cfg.byteOrder s.lumaOut, serializeChroma s.cfg.byteOrder s.chromaOut)
  else none

/-- What the host reads of an error, in any state (R220). -/
def State.readError (s : State) : ErrRegs := s.err

end Sys2Proof.Machine
end

