-- ==== Sys2Proof/Machine/CoreStep.lean ====
section
/-! DEFINITION. The core's own step: fetch an item's word, execute it, then toggle and advance, or stay in FAULT
(spec/43_frame_sequencer.md R162 to R164, R169; spec/42_line_builder.md R131). -/

namespace Sys2Proof.Machine

/-- What the driver hands the LineBuilder next. -/
inductive Fetched where
  /-- A word (R162, R131). -/
  | word (w : Lcw)
  /-- Harness mode, after the last word (R131). -/
  | endOfWords
  /-- `(ph, it)` names no item. -/
  | offSchedule
  deriving DecidableEq, Repr

/-- The next word: the FrameSequencer forms it (R162), or the test driver hands it over (R131). -/
def State.fetch (s : State) : Fetched :=
  match s.driver with
  | .sequencer =>
    match issueWord s.ph.toNat s.it.toNat s.even with
    | some w => .word w
    | none => .offSchedule
  | .harness _ [] => .endOfWords
  | .harness _ (w :: _) => .word w

/-- After the FrameSequencer's item: toggle, advance, and past the last item DONE with FLATTEN (R163, R166, R169). -/
def State.advance (s : State) : State :=
  let p := advancePointer s.ph s.it
  let t := { s with even := togglePar s.even, ph := p.1, it := p.2 }
  if t.ph = 12#4 then t.finish else t

/-- After an item without fault. In harness mode `even` and `(ph, it)` keep their values (R131). -/
def State.completeItem (s : State) : State :=
  match s.driver with
  | .sequencer => s.advance
  | .harness pos words => { s with driver := .harness (pos + 1) words.tail }

/-- An item that faulted leaves `even`, `(ph, it)` and the driver where they were (R163, R205). -/
def State.afterItem (s : State) : State := if s.st = .fault then s else s.completeItem

/-- The same of an outcome: a stop stays a stop. -/
def outcomeAfterItem : Host.Outcome State Fault Refusal → Host.Outcome State Fault Refusal
  | .next s => .next s.afterItem
  | .fault f => .fault f
  | .refused r => .refused r

/-- The LineBuilder executes one word, decoded by R79; an illegal word raises IllegalCommand (R149). -/
def execWord (w : Lcw) (s : State) : Host.Outcome State Fault Refusal :=
  match decode w with
  | .instr i => exec i s
  | .illegal _ v => illegalWord v s

/-- The core's own step: one item in RUN, nothing in the other states (R164, R213). After the last word of a harness run
the driver invokes FLATTEN, a step of its own (R131, log 8). -/
def coreStep (s : State) : Host.Outcome State Fault Refusal :=
  match s.st with
  | .run =>
    match s.fetch with
    | .word w => outcomeAfterItem (execWord w s)
    | .endOfWords => .next s.finish
    | .offSchedule => .fault .pointerOffSchedule
  | _ => .next s

end Sys2Proof.Machine
end

