-- ==== Sys2Proof/Machine/HostEvents.lean ====
section
/-! DEFINITION. The host's interactions (spec/60_exceptions.md R213, R220; spec/70_reset_and_hazards.md R230 to R238):
elaborate, reset, attach, start, the harness driver's begin (spec/42_line_builder.md R131), and the changes the host
must not make. One event a step, between items (log 9). -/

namespace Sys2Proof.Machine

/-- Elaborate: a legal CFG gives the core at its reset values, an illegal one is refused and has no state (R28, R220). -/
def elaborate (c : Cfg) : Host.Outcome State Fault Refusal :=
  if c.Legal then .next (State.initial c) else .refused .illegalConfiguration

/-- The event of this step, and the state with the events still to come. -/
def State.takeInput (s : State) : HostInput × State :=
  match s.inputs with
  | [] => (.quiet, s)
  | e :: rest => (e, { s with inputs := rest })

/-- The start event: accepted in IDLE, ignored elsewhere (R213, R231). The host must have attached a pixel source
(R220). -/
def startEvent (s : State) : Host.Outcome State Fault Refusal :=
  if s.st = .idle then
    match s.source with
    | none => .refused .pixelSourceNotAttached
    | some _ => .next (s.startRun .sequencer)
  else .next s

/-- A test driver begins a harness run, from the start state R231 (R131); ignored where start is. -/
def harnessEvent (words : List Lcw) (s : State) : Host.Outcome State Fault Refusal :=
  if s.st = .idle then .next (s.startRun (.harness 0 words)) else .next s

/-- Attach a pixel source. While `st = RUN` a change is refused (R238), and the same image again changes nothing. -/
def attachEvent (src : PixelSource) (s : State) : Host.Outcome State Fault Refusal :=
  if s.st = .run then
    match s.source with
    | some old => if old.sameImage src then .next s else .refused .pixelSourceChanged
    | none => .refused .pixelSourceChanged
  else .next { s with source := some src }

/-- A change of CFG is refused (R237). -/
def reconfigureEvent (c : Cfg) (s : State) : Host.Outcome State Fault Refusal :=
  if c = s.cfg then .next s else .refused .configurationChanged

/-- The step that takes one event; with none the core takes its own step (R213, R220). -/
def hostStep (e : HostInput) (s : State) : Host.Outcome State Fault Refusal :=
  match e with
  | .quiet => coreStep s
  | .reset => .next s.resetEvent
  | .start => startEvent s
  | .harness words => harnessEvent words s
  | .attach src => attachEvent src s
  | .reconfigure c => reconfigureEvent c s

/-- One step of a legal configuration; an illegal one has no run (R28). -/
def machineStep (s : State) : Host.Outcome State Fault Refusal :=
  if s.cfg.Legal then hostStep s.takeInput.1 s.takeInput.2 else .refused .illegalConfiguration

/-- A harness run in progress that hands over the word `w` next, with no event to come. -/
def State.loadWord (w : Lcw) (s : State) : State :=
  { s with
    st := .run
    driver := .harness 0 [w]
    inputs := []
    source := some (s.source.getD (PixelSource.uniform s.cfg.wRef sourceRows ⟨0, 0, 0⟩)) }

end Sys2Proof.Machine
end

