-- ==== Sys2Proof/Machine/Step.lean ====
section
/-! DEFINITION. The step of the machine, and the placing of one word where the step fetches its next instruction. -/

namespace Sys2Proof.Machine

/-- One step: an event of the host, or one item (spec/43_frame_sequencer.md R164, spec/60_exceptions.md R213). -/
def step (s : State) : Host.Outcome State Fault Refusal := machineStep s

/-- `s` with the word whose bits are `w` as the next word a test driver hands the LineBuilder (spec/42_line_builder.md
R131, log 10): the schedule is fixed in the hardware and no program is fetched (spec/20_memory.md R69). -/
def State.withFetchWord (s : State) (nbits w : Nat) : State := s.loadWord (BitVec.ofNat 16 (w % 2 ^ nbits))

end Sys2Proof.Machine
end

