-- ==== Sys2Proof/Machine/Assembler.lean ====
section
/-! DEFINITION. The assembler syntax of the LCW (spec/30_encoding.md R81) and its pseudo-instructions (R82). Text is a
list of characters, so that the kernel can evaluate it. What R81 leaves open of the text is fixed in log 11. -/

namespace Sys2Proof.Machine

/-- A line's command: an instruction, or a raw word (R81). -/
inductive AsmCommand where
  | instr (i : Instr)
  | word (w : Lcw)
  deriving DecidableEq, Repr

/-- A line of the assembly language: a command, or a pseudo-instruction (R81, R82). -/
inductive AsmLine where
  | command (c : AsmCommand)
  | field1
  | field2
  | frame
  | rep (m : Nat) (c : AsmCommand)
  deriving DecidableEq, Repr

/-- The word a command assembles to (R81). -/
def AsmCommand.assemble : AsmCommand → Lcw
  | .instr i => encode i
  | .word w => w

/-- The items of FIELD1 as R82 lists them: kind and row. -/
def field1Items : List (ItemKind × Nat) :=
  List.replicate 5 (.long, 0) ++ List.replicate 5 (.short, 0) ++ List.replicate 17 (.blank, 0) ++
    (List.range 288).map (fun i => (.active, 2 * i)) ++ List.replicate 5 (.short, 0)

/-- The items of FIELD2 as R82 lists them. -/
def field2Items : List (ItemKind × Nat) :=
  List.replicate 5 (.long, 0) ++ List.replicate 5 (.short, 0) ++ [(.half, 0)] ++ List.replicate 17 (.blank, 0) ++
    (List.range 288).map (fun i => (.active, 2 * i + 1)) ++ [(.tail, 0)] ++ List.replicate 5 (.short, 0)

/-- The command of an item of a pseudo-instruction. -/
def itemInstr (kind : ItemKind) (row : Nat) (par : Bool) : Instr :=
  match kind with
  | .long => .long par
  | .short => .short par
  | .blank => .blank par
  | .active => .active row par
  | .half => .half par
  | .tail => .tail par

/-- The commands of a list of items whose first has index `n`: `<par>` is even exactly when `n` is even (R82). -/
def expandItems : Nat → List (ItemKind × Nat) → List Instr
  | _, [] => []
  | n, (kind, row) :: rest => itemInstr kind row (n % 2 == 0) :: expandItems (n + 1) rest

/-- FIELD1, from `n = 0` (R82). -/
def field1Instrs : List Instr := expandItems 0 field1Items

/-- FIELD2, from `n = 320` (R82). -/
def field2Instrs : List Instr := expandItems 320 field2Items

/-- FRAME (R82). -/
def frameInstrs : List Instr := field1Instrs ++ field2Instrs

/-- The words a line stands for (R81, R82). -/
def AsmLine.words : AsmLine → List Lcw
  | .command c => [c.assemble]
  | .field1 => field1Instrs.map encode
  | .field2 => field2Instrs.map encode
  | .frame => frameInstrs.map encode
  | .rep m c => List.replicate m c.assemble

/-- The characters before the comment, which starts at `;` (R81). -/
def stripComment (cs : List Char) : List Char := cs.takeWhile (· != ';')

/-- A white-space character between tokens. -/
def isBlankChar (c : Char) : Bool := c == ' ' || c == '\t' || c == '\r'

/-- The upper-case letter: mnemonics and keywords are read without regard to case (R81). -/
def upperChar (c : Char) : Char :=
  if 97 ≤ c.toNat ∧ c.toNat ≤ 122 then Char.ofNat (c.toNat - 32) else c

/-- `acc` (its characters reversed) as a finished token, in front of the tokens after it. -/
def pushToken (acc : List Char) (toks : List (List Char)) : List (List Char) :=
  match acc with
  | [] => toks
  | _ => acc.reverse :: toks

/-- The tokens of a line: split at white space, a comma being a token of its own, letters in upper case. -/
def tokensFrom : List Char → List Char → List (List Char)
  | acc, [] => pushToken acc []
  | acc, c :: cs =>
    if isBlankChar c then pushToken acc (tokensFrom [] cs)
    else if c == ',' then pushToken acc ([','] :: tokensFrom [] cs)
    else tokensFrom (upperChar c :: acc) cs

/-- The tokens of a line without its comment. -/
def lineTokens (cs : List Char) : List (List Char) := tokensFrom [] (stripComment cs)

/-- A decimal digit's value. -/
def decimalDigit (c : Char) : Option Nat :=
  if 48 ≤ c.toNat ∧ c.toNat ≤ 57 then some (c.toNat - 48) else none

/-- A hexadecimal digit's value, letters in upper case. -/
def hexDigit (c : Char) : Option Nat :=
  if 65 ≤ c.toNat ∧ c.toNat ≤ 70 then some (c.toNat - 55) else decimalDigit c

/-- The number whose digits in base `b` follow `acc`. -/
def digitsFrom (b : Nat) (digit : Char → Option Nat) : Nat → List Char → Option Nat
  | acc, [] => some acc
  | acc, c :: cs =>
    match digit c with
    | some d => digitsFrom b digit (acc * b + d) cs
    | none => none

/-- A decimal natural: one digit or more (R81). -/
def parseNatural (cs : List Char) : Option Nat :=
  match cs with
  | [] => none
  | _ => digitsFrom 10 decimalDigit 0 cs

/-- `0xHHHH`: four hexadecimal digits (R81). -/
def parseHexWord (cs : List Char) : Option Lcw :=
  match cs with
  | '0' :: 'X' :: ds =>
    if ds.length = 4 then (digitsFrom 16 hexDigit 0 ds).map (BitVec.ofNat 16) else none
  | _ => none

/-- `<par>`: even is 1, odd is 0 (R81). -/
def parsePar (cs : List Char) : Option Bool :=
  if cs = ['E', 'V', 'E', 'N'] then some true
  else if cs = ['O', 'D', 'D'] then some false
  else none

/-- The five mnemonics whose one operand is the parity (R81). -/
def parsePlain (m : List Char) (par : Bool) : Option Instr :=
  if m = ['L', 'O', 'N', 'G'] then some (.long par)
  else if m = ['S', 'H', 'O', 'R', 'T'] then some (.short par)
  else if m = ['B', 'L', 'A', 'N', 'K'] then some (.blank par)
  else if m = ['H', 'A', 'L', 'F'] then some (.half par)
  else if m = ['T', 'A', 'I', 'L'] then some (.tail par)
  else none

/-- A command from its tokens (R81). A row is 0 to 1023. -/
def parseCommand (toks : List (List Char)) : Option AsmCommand :=
  match toks with
  | [m, p] =>
    if m = ['.', 'W', 'O', 'R', 'D'] then (parseHexWord p).map .word
    else (parsePar p).bind fun par => (parsePlain m par).map .instr
  | [m, r, [','], p] =>
    if m = ['A', 'C', 'T', 'I', 'V', 'E'] then
      (parseNatural r).bind fun row =>
        (parsePar p).bind fun par => if row < 1024 then some (.instr (.active row par)) else none
    else none
  | _ => none

/-- A line from its tokens: a pseudo-instruction (R82) or a command. -/
def parseTokens (toks : List (List Char)) : Option AsmLine :=
  match toks with
  | [m] =>
    if m = ['F', 'I', 'E', 'L', 'D', '1'] then some .field1
    else if m = ['F', 'I', 'E', 'L', 'D', '2'] then some .field2
    else if m = ['F', 'R', 'A', 'M', 'E'] then some .frame
    else none
  | m :: n :: [','] :: rest =>
    if m = ['R', 'E', 'P'] then
      (parseNatural n).bind fun k => (parseCommand rest).map (.rep k)
    else (parseCommand toks).map .command
  | _ => (parseCommand toks).map .command

/-- The lines of a text, split at line feeds. -/
def textLines : List Char → List (List Char)
  | [] => [[]]
  | c :: cs =>
    if c == '\n' then [] :: textLines cs
    else
      match textLines cs with
      | [] => [[c]]
      | l :: ls => (c :: l) :: ls

/-- The lines' words in order; a line with no token stands for none, and one line that does not parse makes the text no
program. -/
def assembleLines : List (List Char) → Option (List Lcw)
  | [] => some []
  | l :: ls =>
    match lineTokens l with
    | [] => assembleLines ls
    | toks =>
      match parseTokens toks with
      | none => none
      | some a => (assembleLines ls).map fun ws => a.words ++ ws

/-- The words a text assembles to (R81, R82). -/
def assemble (text : List Char) : Option (List Lcw) := assembleLines (textLines text)

/-- The parity operand in canonical form. -/
def parText (par : Bool) : List Char := if par then ['e', 'v', 'e', 'n'] else ['o', 'd', 'd']

/-- One hexadecimal digit, in upper case. -/
def hexChar (n : Nat) : Char := if n < 10 then Char.ofNat (48 + n) else Char.ofNat (55 + n)

/-- A word as `0xHHHH`. -/
def hexText (w : Lcw) : List Char :=
  ['0', 'x', hexChar (w.toNat / 4096 % 16), hexChar (w.toNat / 256 % 16), hexChar (w.toNat / 16 % 16),
    hexChar (w.toNat % 16)]

/-- A raw word's line. -/
def wordText (w : Lcw) : List Char := ['.', 'w', 'o', 'r', 'd', ' '] ++ hexText w

/-- An instruction in the canonical form of R81: upper-case mnemonic, `.word` for the reserved rows. -/
def instrText : Instr → List Char
  | .long par => ['L', 'O', 'N', 'G', ' '] ++ parText par
  | .short par => ['S', 'H', 'O', 'R', 'T', ' '] ++ parText par
  | .blank par => ['B', 'L', 'A', 'N', 'K', ' '] ++ parText par
  | .active row par => ['A', 'C', 'T', 'I', 'V', 'E', ' '] ++ Nat.toDigits 10 row ++ [',', ' '] ++ parText par
  | .half par => ['H', 'A', 'L', 'F', ' '] ++ parText par
  | .tail par => ['T', 'A', 'I', 'L', ' '] ++ parText par
  | .reservedOp6 w => wordText w
  | .reservedOp7 w => wordText w

end Sys2Proof.Machine
end

