-- ==== Sys2Proof/Safety.lean ====
section
/-! DEFINITION. What counts as a good state and a good run, in the terms the statements use: the invariant `CoreInv` of the
reachable states, and the runs of one frame. -/

namespace Sys2Proof.Machine

/-- R37: the two buffers hold partner runs of equal kind and count, and `n_out` is the sum of the counts. -/
def BuffersPaired (s : State) : Prop :=
  s.lbuf.map (fun r => (r.kind, r.count)) = s.cbuf.map (fun r => (r.kind, r.count)) ∧
  s.nOut = (s.lbuf.map LumaRun.count).sum

/-- R38, R194, R207: the streams are whole at DONE and empty in every other state. -/
def OutputsGated (s : State) : Prop :=
  (s.st = .done → s.lumaOut = flattenLuma s.lbuf ∧ s.chromaOut = flattenChroma s.cbuf) ∧
  (s.st ≠ .done → s.lumaOut = [] ∧ s.chromaOut = [])

/-- R22: `(ph, it)` names an item, or is `(12, 0)`, the END, and then `st = DONE`. -/
def PointerLegal (s : State) : Prop :=
  (s.ph.toNat < 12 ∧ s.it.toNat < phaseCount s.ph.toNat) ∨ (s.ph = 12#4 ∧ s.it = 0#9 ∧ s.st = .done)

/-- R167: in the hardware's own run `even` is 1 exactly when the item index is even; in harness mode `even` and
`(ph, it)` keep their start values (R131). -/
def ParityLegal (s : State) : Prop :=
  match s.driver with
  | .sequencer => s.even = decide (scheduleIndex s.ph.toNat s.it.toNat % 2 = 0)
  | .harness _ _ => s.even = true ∧ s.ph = 0#4 ∧ s.it = 0#9

/-- R33, R203: the error registers are 0 unless `st = FAULT`, and then name an error, which is IllegalCommand only in
harness mode. -/
def ErrorsLegal (s : State) : Prop :=
  (s.st ≠ .fault → s.err = ErrRegs.none) ∧
  (s.st = .fault → s.err.code ≠ 0#2 ∧ (s.driver = .sequencer → s.err.code ≠ 3#2))

/-- R172: unless it has faulted, the hardware's own run has appended exactly the samples of the items before
`(ph, it)`. -/
def PositionLegal (s : State) : Prop :=
  s.driver = .sequencer → s.st ≠ .fault → s.nOut = itemStart s.cfg s.ph.toNat s.it.toNat

/-- The pixel memory is canonical, that of every source still to be attached too, and the hardware's own run has a
source (R220). -/
def SourceLegal (s : State) : Prop :=
  (∀ src, s.source = some src → src.wf = true) ∧
  (∀ src, HostInput.attach src ∈ s.inputs → src.wf = true) ∧
  (s.st = .run → s.driver = .sequencer → s.source.isSome = true)

/-- In DONE the hardware's own run stands at END (R169), and in IDLE nothing has been issued. -/
def StateLegal (s : State) : Prop :=
  (s.st = .done → s.driver = .sequencer → s.ph = 12#4) ∧
  (s.st = .idle → s.driver = .sequencer ∧ s.ph = 0#4 ∧ s.it = 0#9)

/-- A chroma component in [-0.615, 0.615] (R31), the burst's k = sqrt(2)/7 in the reals (R11, R135). -/
def ChromaVal.InRange : ChromaVal → Prop
  | .rat q => -(615 / 1000) ≤ q ∧ q ≤ 615 / 1000
  | .plusK => -(615 / 1000) ≤ Real.sqrt 2 / 7 ∧ Real.sqrt 2 / 7 ≤ 615 / 1000
  | .minusK => -(615 / 1000) ≤ -(Real.sqrt 2 / 7) ∧ -(Real.sqrt 2 / 7) ≤ 615 / 1000

/-- R31: every luma value in the buffer is in [LEVEL_SYNC, LEVEL_WHITE], and every chroma component in
[-0.615, 0.615]. -/
def ValuesInRange (s : State) : Prop :=
  (∀ r ∈ s.lbuf, s.cfg.levelSync ≤ r.v ∧ r.v ≤ s.cfg.levelWhite) ∧
  (∀ r ∈ s.cbuf, r.u.InRange ∧ r.w.InRange)

/-- The invariant of the states a legal core reaches. -/
structure CoreInv (s : State) : Prop where
  cfgLegal : s.cfg.Legal
  buffersPaired : BuffersPaired s
  outputsGated : OutputsGated s
  pointerLegal : PointerLegal s
  parityLegal : ParityLegal s
  errorsLegal : ErrorsLegal s
  positionLegal : PositionLegal s
  sourceLegal : SourceLegal s
  stateLegal : StateLegal s
  columnLegal : s.x ≤ s.cfg.nVis

/-- The state right after reset, attach and start, with no event to come (R231, R234). -/
def startedRun (c : Cfg) (src : PixelSource) : State :=
  { State.initial c with source := some src }.startRun .sequencer

/-- The state in which a test driver has begun a harness run of `words` (R131). -/
def startedHarness (c : Cfg) (src : PixelSource) (words : List Lcw) : State :=
  { State.initial c with source := some src }.startRun (.harness 0 words)

/-- In `s` the host does nothing this step, and the core takes its own step from `s'`: no event is to come, or the next
one is `quiet` and `s'` has the others still to come (R213, R220; the list of events is the model's, log 3 and log 9). -/
def TakesNoEvent (s s' : State) : Prop :=
  (s.inputs = [] ∧ s' = s) ∨ ∃ rest, s.inputs = .quiet :: rest ∧ s' = { s with inputs := rest }

/-- `k` steps of the machine. -/
def runSteps (k : Nat) (s : State) : Host.Outcome State Fault Refusal := Sys2Proof.core.run k s

/-- Every component of the pixel is in [0, 255] (R111). -/
abbrev Rgb.inRange (p : Rgb) : Prop :=
  0 ≤ p.r ∧ p.r ≤ 255 ∧ 0 ≤ p.g ∧ p.g ≤ 255 ∧ 0 ≤ p.b ∧ p.b ≤ 255

/-- The image is large enough for the reads of a frame (R58). -/
def LargeEnough (c : Cfg) (src : PixelSource) : Prop := xsMax c < src.width ∧ sourceRows ≤ src.height

/-- Every pixel of the image is well formed (R234). -/
def WellColored (src : PixelSource) : Prop :=
  ∀ xs ys, xs < src.width → ys < src.height → (src.pixel xs ys).inRange

/-- The read set of a frame: the two images give the same answer to every read a frame can make (R58, I19). -/
def AgreeOnReads (c : Cfg) (a b : PixelSource) : Prop :=
  ∀ x ys, x < c.nVis → ys < sourceRows → pixRead a (columnMap c x) ys = pixRead b (columnMap c x) ys

/-- The column `x` of source row `ys` is read and encoded without an error. -/
def ColumnGood (src : PixelSource) (c : Cfg) (ys x : Nat) : Prop :=
  ∃ px, pixRead src (columnMap c x) ys = some px ∧ px.inRange

/-- The samples of a line before its active video (R148): sync and back porch. -/
def leadSamples (c : Cfg) : Nat := nHsync c + nBdelay c + nBurst c + nBprem c

/-- The active item that carries source row `y`, as `(ph, it)`: even rows in Field 1, odd rows in Field 2 (R56). -/
def rowItem (y : Nat) : Nat × Nat := if y % 2 = 0 then (3, y / 2) else (9, y / 2)

end Sys2Proof.Machine
end

