-- ==== Sys2Proof/Certificates/Slice0/Obligations.lean ====
section
/-! DEFINITION. The statements for the provers. Each docstring names the rule of spec/ it formalises; a clause that is the
model's choice names its log entry. -/

open Sys2Proof Sys2Proof.Machine

/-! ## Encoding -/

/-- R83: the canonical words of the schedule and its four example words, and every word the FrameSequencer issues is one
of them. -/
def Obligations.CanonicalWordsDecode : Prop :=
  decode 0x0008#16 = .instr (.long true) ∧ decode 0x0000#16 = .instr (.long false) ∧
  decode 0x0009#16 = .instr (.short true) ∧ decode 0x0001#16 = .instr (.short false) ∧
  decode 0x000A#16 = .instr (.blank true) ∧ decode 0x0002#16 = .instr (.blank false) ∧
  (∀ r < 1024, decode ((BitVec.ofNat 16 r <<< 4) ||| 0x000B#16) = .instr (.active r true)) ∧
  (∀ r < 1024, decode ((BitVec.ofNat 16 r <<< 4) ||| 0x0003#16) = .instr (.active r false)) ∧
  decode 0x000C#16 = .instr (.half true) ∧ decode 0x0004#16 = .instr (.half false) ∧
  decode 0x000D#16 = .instr (.tail true) ∧ decode 0x0005#16 = .instr (.tail false) ∧
  decode 0x0003#16 = .instr (.active 0 false) ∧ decode 0x001B#16 = .instr (.active 1 true) ∧
  decode 0x23EB#16 = .instr (.active 574 true) ∧ decode 0x23F3#16 = .instr (.active 575 false) ∧
  ∀ (ph it : Nat) (even : Bool) (w : Lcw), issueWord ph it even = some w →
    w ∈ [0x0008#16, 0x0000#16, 0x0009#16, 0x0001#16, 0x000A#16, 0x0002#16, 0x000C#16, 0x0004#16, 0x000D#16, 0x0005#16] ∨
    ∃ r < 576, w = (BitVec.ofNat 16 r <<< 4) ||| 0x000B#16 ∨ w = (BitVec.ofNat 16 r <<< 4) ||| 0x0003#16

/-- Decode and encode agree: every well-formed instruction, with every operand its encoding admits, is what the decoder
reads from the encoder's word (R71, R74, R79). -/
def Obligations.DecodeOfEncodeIsTheInstruction : Prop :=
  ∀ i : Instr, i.wellFormed = true → decode (encode i) = .instr i

/-- The other direction: a word that decodes to an instruction is that instruction's only word. -/
def Obligations.EncodeOfDecodeIsTheWord : Prop :=
  ∀ (w : Lcw) (i : Instr), decode w = .instr i → i.wellFormed = true ∧ encode i = w

/-- R79, case by case, for every one of the 2^16 words, with the word's fields written as arithmetic on its number. A
reserved OP decodes to the opcode table's row for it; `Illegal(w)` of R79 is that or a rejection by name. -/
def Obligations.DecodeFollowsTheProcedure : Prop :=
  ∀ w : Lcw,
    let op := w.toNat % 8
    let par := w.toNat / 8 % 2 == 1
    let row := w.toNat / 16 % 1024
    let rsv := w.toNat / 16384
    (op = 6 → decode w = .instr (.reservedOp6 w)) ∧
    (op = 7 → decode w = .instr (.reservedOp7 w)) ∧
    (op < 6 → rsv ≠ 0 → ∃ why, decode w = .illegal why w) ∧
    (op = 3 → rsv = 0 → decode w = .instr (.active row par)) ∧
    (op < 6 → op ≠ 3 → rsv = 0 → row ≠ 0 → ∃ why, decode w = .illegal why w) ∧
    (op < 6 → op ≠ 3 → rsv = 0 → row = 0 →
      decode w = .instr (if op = 0 then .long par else if op = 1 then .short par else if op = 2 then .blank par
        else if op = 4 then .half par else .tail par))

/-- The canonical text of every instruction assembles to its word (R81). -/
def Obligations.CanonicalTextAssembles : Prop :=
  ∀ i : Instr, i.wellFormed = true → assemble (instrText i) = some [encode i]

/-- R82: FRAME expands to FIELD1 then FIELD2, and word by word to what the FrameSequencer issues for each item, the
parity being even exactly when the item index is even; REP repeats its command. -/
def Obligations.FrameExpandsToTheSchedule : Prop :=
  AsmLine.frame.words = AsmLine.field1.words ++ AsmLine.field2.words ∧
  AsmLine.field1.words.length = 320 ∧ AsmLine.frame.words.length = 642 ∧
  (∀ ph < 12, ∀ it < phaseCount ph,
    AsmLine.frame.words[scheduleIndex ph it]? = issueWord ph it (scheduleIndex ph it % 2 == 0)) ∧
  ∀ (m : Nat) (c : AsmCommand), (AsmLine.rep m c).words = List.replicate m c.assemble

/-! ## TimingCompiler and configuration -/

/-- R12: `rhe(q)` is an integer nearest to `q`, and the even one where `q` is halfway between two. -/
def Obligations.RheIsNearestTiesToEven : Prop :=
  ∀ q : Rat, (∀ z : Int, |q - rhe q| ≤ |q - z|) ∧ (|q - rhe q| = 1 / 2 → rhe q % 2 = 0)

/-- R100: for a duration that is not negative, `samples(d)` is `rhe(d * FS)`; 0 for 0, the even neighbour at a tie, and 0
below half a sample; the rule's example; and every duration the core converts is not negative at a legal CFG. -/
def Obligations.SamplesRoundsTheProduct : Prop :=
  (∀ (c : Cfg) (d : Rat), c.Legal → 0 ≤ d →
    ((samples c d : Int) = rhe (d * c.fs)) ∧ samples c 0 = 0 ∧
    (∀ m : Nat, d * c.fs = m + 1 / 2 → samples c d = if m % 2 = 0 then m else m + 1) ∧
    (d * c.fs < 1 / 2 → samples c d = 0)) ∧
  samples Cfg.ref (47 / 10000000) = 63 ∧
  ∀ c : Cfg, c.Legal → 0 ≤ c.tHsync ∧ 0 ≤ c.tBurstDelay ∧ 0 ≤ burstDuration c ∧
    0 ≤ c.tBackPorch - c.tBurstDelay - burstDuration c ∧ 0 ≤ c.tActive ∧ 0 ≤ pixelDuration c ∧ 0 ≤ c.tFrontPorch ∧
    0 ≤ c.tLongPulse ∧ 0 ≤ c.tLine / 2 - c.tLongPulse ∧ 0 ≤ c.tShortPulse ∧ 0 ≤ c.tLine / 2 - c.tShortPulse ∧
    0 ≤ c.tLine / 2 ∧ 0 ≤ c.tLine / 2 - c.tHsync - c.tBackPorch

/-- R29 and R30: REF is legal; for every CFG each of the thirteen counts is `samples` of its own duration, a difference of
durations being formed once and converted once (as R101 and R102 ask); and their values in the REF column of R30. -/
def Obligations.ReferenceCounts : Prop :=
  Cfg.ref.Legal ∧
  (∀ c : Cfg,
    nHsync c = samples c c.tHsync ∧ nBdelay c = samples c c.tBurstDelay ∧
    nBurst c = samples c (c.nBurstCycles / c.fSc) ∧
    nBprem c = samples c (c.tBackPorch - c.tBurstDelay - c.nBurstCycles / c.fSc) ∧
    nActive c = samples c c.tActive ∧ nPix c = samples c (c.tActive / c.nVis) ∧ nFront c = samples c c.tFrontPorch ∧
    nLongP c = samples c c.tLongPulse ∧ nLongR c = samples c (c.tLine / 2 - c.tLongPulse) ∧
    nShortP c = samples c c.tShortPulse ∧ nShortR c = samples c (c.tLine / 2 - c.tShortPulse) ∧
    nHalf c = samples c (c.tLine / 2) ∧ nTailfill c = samples c (c.tLine / 2 - c.tHsync - c.tBackPorch)) ∧
  nHsync Cfg.ref = 63 ∧ nBdelay Cfg.ref = 12 ∧ nBurst Cfg.ref = 30 ∧ nBprem Cfg.ref = 34 ∧
  nActive Cfg.ref = 702 ∧ nPix Cfg.ref = 1 ∧ nFront Cfg.ref = 22 ∧ nLongP Cfg.ref = 369 ∧ nLongR Cfg.ref = 63 ∧
  nShortP Cfg.ref = 32 ∧ nShortR Cfg.ref = 400 ∧ nHalf Cfg.ref = 432 ∧ nTailfill Cfg.ref = 292

/-! ## Column map and pixel space -/

/-- R57, every point of it: the map starts at 0, never decreases, stays below W_REF, its last value and when that is
W_REF - 1, the columns never read, and the REF values. -/
def Obligations.ColumnMapProperties : Prop :=
  (∀ c : Cfg, c.Legal →
    columnMap c 0 = 0 ∧
    (∀ x y, x ≤ y → columnMap c x ≤ columnMap c y) ∧
    (∀ x, x < c.nVis → columnMap c x ≤ c.wRef - 1) ∧
    ((xsMax c : Int) = rhe ((c.wRef : Rat) - (c.wRef : Rat) / (c.nVis : Rat))) ∧
    (xsMax c = c.wRef - 1 ↔
      (c.wRef : Rat) / (c.nVis : Rat) < 3 / 2 ∨
        ((c.wRef : Rat) / (c.nVis : Rat) = 3 / 2 ∧ (c.wRef - 1) % 2 = 0)) ∧
    (∃ xs < c.wRef, ∀ x < c.nVis, columnMap c x ≠ xs)) ∧
  xsMax Cfg.ref = 719 ∧ (∀ x < 702, ∀ y < 702, columnMap Cfg.ref x = columnMap Cfg.ref y → x = y) ∧
  ∀ xs < 720, (∀ x < 702, columnMap Cfg.ref x ≠ xs) ↔ xs % 40 = 20

/-- R52: PixRead answers the source's pixel inside the image and raises outside it, for every coordinate: nothing is
clamped or wrapped. A source changed at one coordinate reads the new pixel there and the old ones elsewhere. -/
def Obligations.PixReadIsBoundsChecked : Prop :=
  (∀ (src : PixelSource) (xs ys : Nat), (src.width ≤ xs ∨ src.height ≤ ys) → pixRead src xs ys = none) ∧
  (∀ (src : PixelSource) (xs ys : Nat), xs < src.width → ys < src.height →
    pixRead src xs ys = some (src.pixel xs ys)) ∧
  (∀ (src : PixelSource) (v : Rgb) (xs ys xs' ys' : Nat), src.wf = true → xs < src.width → ys < src.height →
    xs' < src.width → ys' < src.height →
    pixRead (src.setPixel xs ys v) xs' ys' =
      if xs' = xs ∧ ys' = ys then some v else pixRead src xs' ys')

/-! ## ChromaEncoder -/

/-- R110 to R114: the value of ENCODE for a well-formed pixel, as polynomials in the components. -/
def Obligations.EncodeOfWellFormedPixel : Prop :=
  ∀ (c : Cfg) (p : Rgb) (par : Bool), p.inRange →
    chromaEncode c p par = .sample
      (c.levelBlack + (299 * (p.r : Rat) + 587 * p.g + 114 * p.b) / 255000 * (c.levelWhite - c.levelBlack))
      ((-147 * (p.r : Rat) - 289 * p.g + 436 * p.b) / 255000)
      (if par then (615 * (p.r : Rat) - 515 * p.g - 100 * p.b) / 255000
        else -((615 * (p.r : Rat) - 515 * p.g - 100 * p.b) / 255000))

/-- R111: the first component outside [0, 255], in the order r, g, b, is the one reported. -/
def Obligations.ComponentCheckReportsTheFirst : Prop :=
  ∀ (c : Cfg) (p : Rgb) (par : Bool) (comp : BitVec 2) (val : Int),
    chromaEncode c p par = .malformed comp val ↔
      (((p.r < 0 ∨ 255 < p.r) ∧ comp = 0#2 ∧ val = p.r) ∨
       ((0 ≤ p.r ∧ p.r ≤ 255) ∧ (p.g < 0 ∨ 255 < p.g) ∧ comp = 1#2 ∧ val = p.g) ∨
       ((0 ≤ p.r ∧ p.r ≤ 255) ∧ (0 ≤ p.g ∧ p.g ≤ 255) ∧ (p.b < 0 ∨ 255 < p.b) ∧ comp = 2#2 ∧ val = p.b))

/-- R117: the range of Y, the ranges of what ENCODE answers at a legal configuration, and the extremes of U and V. -/
def Obligations.EncodeRanges : Prop :=
  (∀ p : Rgb, p.inRange → 0 ≤ lumaY (p.r / 255) (p.g / 255) (p.b / 255) ∧
    lumaY (p.r / 255) (p.g / 255) (p.b / 255) ≤ 1) ∧
  (∀ (c : Cfg) (p : Rgb) (par : Bool) (luma u v : Rat), c.Legal → p.inRange →
    chromaEncode c p par = .sample luma u v →
    c.levelBlack ≤ luma ∧ luma ≤ c.levelWhite ∧ -(436 / 1000) ≤ u ∧ u ≤ 436 / 1000 ∧
    -(615 / 1000) ≤ v ∧ v ≤ 615 / 1000) ∧
  (∀ (c : Cfg) (par : Bool), ∃ luma v, chromaEncode c ⟨0, 0, 255⟩ par = .sample luma (436 / 1000) v) ∧
  (∀ (c : Cfg) (par : Bool), ∃ luma v, chromaEncode c ⟨255, 255, 0⟩ par = .sample luma (-(436 / 1000)) v) ∧
  (∀ c : Cfg, ∃ luma u, chromaEncode c ⟨255, 0, 0⟩ true = .sample luma u (615 / 1000)) ∧
  (∀ c : Cfg, ∃ luma u, chromaEncode c ⟨0, 255, 255⟩ true = .sample luma u (-(615 / 1000)))

/-- R118: a grey pixel has luma on the line from black to white and zero chroma, at either parity. -/
def Obligations.GreyAxisIsExact : Prop :=
  ∀ (c : Cfg) (g : Int) (par : Bool), 0 ≤ g → g ≤ 255 →
    chromaEncode c ⟨g, g, g⟩ par = .sample (c.levelBlack + (g : Rat) / 255 * (c.levelWhite - c.levelBlack)) 0 0 ∧
    chromaEncode c ⟨0, 0, 0⟩ par = .sample c.levelBlack 0 0 ∧
    chromaEncode c ⟨255, 255, 255⟩ par = .sample c.levelWhite 0 0 ∧
    lumaY ((g : Rat) / 255) ((g : Rat) / 255) ((g : Rat) / 255) = (g : Rat) / 255 ∧
    f32Rat 0 = 0#32

/-! ## LineBuilder: every instruction's completion, with its frame as an equation of states -/

/-- R140, LONG: its words, its two runs in order and nothing else changed, the zero-count corner, the same at both
parities, and the REF example. -/
def Obligations.LongAppendsItsRuns : Prop :=
  encode (.long true) = 0x0008#16 ∧ encode (.long false) = 0x0000#16 ∧
  (∀ (par : Bool) (s : State), exec (.long par) s = .next { s with
    lbuf := s.lbuf ++ [⟨.syncLong, s.cfg.levelSync, samples s.cfg s.cfg.tLongPulse⟩,
      ⟨.syncLong, s.cfg.levelBlank, samples s.cfg (s.cfg.tLine / 2 - s.cfg.tLongPulse)⟩]
    cbuf := s.cbuf ++ [⟨.syncLong, .rat 0, .rat 0, samples s.cfg s.cfg.tLongPulse⟩,
      ⟨.syncLong, .rat 0, .rat 0, samples s.cfg (s.cfg.tLine / 2 - s.cfg.tLongPulse)⟩]
    nOut := s.nOut + (samples s.cfg s.cfg.tLongPulse + samples s.cfg (s.cfg.tLine / 2 - s.cfg.tLongPulse)) }) ∧
  (∀ c : Cfg, c.tLongPulse = c.tLine / 2 → samples c (c.tLine / 2 - c.tLongPulse) = 0) ∧
  ∃ t, exec (.long true) State.reset = .next t ∧ t.nOut = 432 ∧
    t.lbuf = [⟨.syncLong, 0, 369⟩, ⟨.syncLong, 3 / 10, 63⟩] ∧
    t.cbuf = [⟨.syncLong, .rat 0, .rat 0, 369⟩, ⟨.syncLong, .rat 0, .rat 0, 63⟩]

/-- R141, SHORT: as R140 with the short pulse. -/
def Obligations.ShortAppendsItsRuns : Prop :=
  encode (.short true) = 0x0009#16 ∧ encode (.short false) = 0x0001#16 ∧
  (∀ (par : Bool) (s : State), exec (.short par) s = .next { s with
    lbuf := s.lbuf ++ [⟨.syncShort, s.cfg.levelSync, samples s.cfg s.cfg.tShortPulse⟩,
      ⟨.syncShort, s.cfg.levelBlank, samples s.cfg (s.cfg.tLine / 2 - s.cfg.tShortPulse)⟩]
    cbuf := s.cbuf ++ [⟨.syncShort, .rat 0, .rat 0, samples s.cfg s.cfg.tShortPulse⟩,
      ⟨.syncShort, .rat 0, .rat 0, samples s.cfg (s.cfg.tLine / 2 - s.cfg.tShortPulse)⟩]
    nOut := s.nOut + (samples s.cfg s.cfg.tShortPulse + samples s.cfg (s.cfg.tLine / 2 - s.cfg.tShortPulse)) }) ∧
  (∀ c : Cfg, c.tShortPulse = c.tLine / 2 → samples c (c.tLine / 2 - c.tShortPulse) = 0) ∧
  ∃ t, exec (.short false) State.reset = .next t ∧ t.nOut = 432 ∧
    t.lbuf = [⟨.syncShort, 0, 32⟩, ⟨.syncShort, 3 / 10, 400⟩] ∧
    t.cbuf = [⟨.syncShort, .rat 0, .rat 0, 32⟩, ⟨.syncShort, .rat 0, .rat 0, 400⟩]

/-- R142, BLANK: its words, its six runs in order and nothing else changed, the parity only in the V sign of the burst,
and the REF example. -/
def Obligations.BlankAppendsItsRuns : Prop :=
  encode (.blank true) = 0x000A#16 ∧ encode (.blank false) = 0x0002#16 ∧
  (∀ (par : Bool) (s : State), exec (.blank par) s = .next { s with
    lbuf := s.lbuf ++ [⟨.syncH, s.cfg.levelSync, nHsync s.cfg⟩, ⟨.backPorch, s.cfg.levelBlank, nBdelay s.cfg⟩,
      ⟨.burst, s.cfg.levelBlank, nBurst s.cfg⟩, ⟨.backPorch, s.cfg.levelBlank, nBprem s.cfg⟩,
      ⟨.blankFill, s.cfg.levelBlack, samples s.cfg s.cfg.tActive⟩,
      ⟨.frontPorch, s.cfg.levelBlank, nFront s.cfg⟩]
    cbuf := s.cbuf ++ [⟨.syncH, .rat 0, .rat 0, nHsync s.cfg⟩, ⟨.backPorch, .rat 0, .rat 0, nBdelay s.cfg⟩,
      ⟨.burst, .minusK, if par then .plusK else .minusK, nBurst s.cfg⟩,
      ⟨.backPorch, .rat 0, .rat 0, nBprem s.cfg⟩,
      ⟨.blankFill, .rat 0, .rat 0, samples s.cfg s.cfg.tActive⟩, ⟨.frontPorch, .rat 0, .rat 0, nFront s.cfg⟩]
    nOut := s.nOut + (nHsync s.cfg + nBdelay s.cfg + nBurst s.cfg + nBprem s.cfg +
      samples s.cfg s.cfg.tActive + nFront s.cfg) }) ∧
  ∃ t, exec (.blank true) State.reset = .next t ∧ t.nOut = 863 ∧
    t.lbuf.map LumaRun.count = [63, 12, 30, 34, 702, 22] ∧ t.cbuf[2]? = some ⟨.burst, .minusK, .plusK, 30⟩

/-- R143, HALF: its words, its one run and nothing else changed, the same at both parities, and the REF example. -/
def Obligations.HalfAppendsItsRun : Prop :=
  encode (.half true) = 0x000C#16 ∧ encode (.half false) = 0x0004#16 ∧
  (∀ (par : Bool) (s : State), exec (.half par) s = .next { s with
    lbuf := s.lbuf ++ [⟨.blankFill, s.cfg.levelBlack, samples s.cfg (s.cfg.tLine / 2)⟩]
    cbuf := s.cbuf ++ [⟨.blankFill, .rat 0, .rat 0, samples s.cfg (s.cfg.tLine / 2)⟩]
    nOut := s.nOut + samples s.cfg (s.cfg.tLine / 2) }) ∧
  ∃ t, exec (.half true) State.reset = .next t ∧
    t.lbuf = [⟨.blankFill, 3 / 10, 432⟩] ∧ t.cbuf = [⟨.blankFill, .rat 0, .rat 0, 432⟩]

/-- R144, TAIL: its words, its five runs in order and nothing else changed, and the REF example, where the filler is 292
and not the difference 293 of counts. -/
def Obligations.TailAppendsItsRuns : Prop :=
  encode (.tail true) = 0x000D#16 ∧ encode (.tail false) = 0x0005#16 ∧
  (∀ (par : Bool) (s : State), exec (.tail par) s = .next { s with
    lbuf := s.lbuf ++ [⟨.syncH, s.cfg.levelSync, nHsync s.cfg⟩, ⟨.backPorch, s.cfg.levelBlank, nBdelay s.cfg⟩,
      ⟨.burst, s.cfg.levelBlank, nBurst s.cfg⟩, ⟨.backPorch, s.cfg.levelBlank, nBprem s.cfg⟩,
      ⟨.blankFill, s.cfg.levelBlack, samples s.cfg (s.cfg.tLine / 2 - s.cfg.tHsync - s.cfg.tBackPorch)⟩]
    cbuf := s.cbuf ++ [⟨.syncH, .rat 0, .rat 0, nHsync s.cfg⟩, ⟨.backPorch, .rat 0, .rat 0, nBdelay s.cfg⟩,
      ⟨.burst, .minusK, if par then .plusK else .minusK, nBurst s.cfg⟩,
      ⟨.backPorch, .rat 0, .rat 0, nBprem s.cfg⟩,
      ⟨.blankFill, .rat 0, .rat 0, samples s.cfg (s.cfg.tLine / 2 - s.cfg.tHsync - s.cfg.tBackPorch)⟩]
    nOut := s.nOut + (nHsync s.cfg + nBdelay s.cfg + nBurst s.cfg + nBprem s.cfg +
      samples s.cfg (s.cfg.tLine / 2 - s.cfg.tHsync - s.cfg.tBackPorch)) }) ∧
  (∃ t, exec (.tail true) State.reset = .next t ∧ t.nOut = 431 ∧
    t.lbuf.map LumaRun.count = [63, 12, 30, 34, 292] ∧ t.cbuf[2]? = some ⟨.burst, .minusK, .plusK, 30⟩) ∧
  nHalf Cfg.ref - nHsync Cfg.ref - (nBdelay Cfg.ref + nBurst Cfg.ref + nBprem Cfg.ref) = 293

/-- R145, ACTIVE on a row whose every visible column reads and encodes well: the sync and back porch, then one run per
column in increasing order, each with the pixel's value and n_pix samples, then the front porch, and nothing else
changed but the column counter, whose value after the item the statement leaves open (log 5). A row above 1023 has no
word (log 17). -/
def Obligations.ActiveAppendsItsLine : Prop :=
  ∀ (row : Nat) (par : Bool) (s : State) (src : PixelSource), s.source = some src →
    (∀ x < s.cfg.nVis, ColumnGood src s.cfg row x) →
    ∃ px : List Run, px.length = s.cfg.nVis ∧
      (∀ x < s.cfg.nVis, ∃ p luma u v, pixRead src (columnMap s.cfg x) row = some p ∧
        chromaEncode s.cfg p par = .sample luma u v ∧
        px[x]? = some ⟨.activeVideo, luma, .rat u, .rat v, nPix s.cfg⟩) ∧
      ∃ t, exec (.active row par) s = .next t ∧
        t = { s with
          lbuf := s.lbuf ++ [⟨.syncH, s.cfg.levelSync, nHsync s.cfg⟩,
            ⟨.backPorch, s.cfg.levelBlank, nBdelay s.cfg⟩, ⟨.burst, s.cfg.levelBlank, nBurst s.cfg⟩,
            ⟨.backPorch, s.cfg.levelBlank, nBprem s.cfg⟩] ++ px.map Run.toLuma ++
            [⟨.frontPorch, s.cfg.levelBlank, nFront s.cfg⟩]
          cbuf := s.cbuf ++ [⟨.syncH, .rat 0, .rat 0, nHsync s.cfg⟩,
            ⟨.backPorch, .rat 0, .rat 0, nBdelay s.cfg⟩,
            ⟨.burst, .minusK, if par then .plusK else .minusK, nBurst s.cfg⟩,
            ⟨.backPorch, .rat 0, .rat 0, nBprem s.cfg⟩] ++ px.map Run.toChroma ++
            [⟨.frontPorch, .rat 0, .rat 0, nFront s.cfg⟩]
          nOut := s.nOut + (leadSamples s.cfg + s.cfg.nVis * nPix s.cfg + nFront s.cfg)
          x := t.x }

/-- R145, R201, R202, R205, R206, R209, ACTIVE on a row whose first offending visible column is `x0`: the runs before
it stay appended, no further run is, the error registers hold that column's error, the bounds check before the colour
check and the components in order, and `even`, `(ph, it)` and the streams are as they were. With no pixel source attached,
which only a harness run can meet, the item is refused by name (log 2). A row above 1023 has no word (log 17). -/
def Obligations.ActiveStopsAtTheFirstOffence : Prop :=
  (∀ (row : Nat) (par : Bool) (s : State), s.source = none →
    exec (.active row par) s = .refused .pixelSourceNotAttached) ∧
  ∀ (row x0 : Nat) (par : Bool) (s : State) (src : PixelSource), s.source = some src → x0 < s.cfg.nVis →
    (∀ x < x0, ColumnGood src s.cfg row x) → ¬ ColumnGood src s.cfg row x0 →
    ∃ px : List Run, px.length = x0 ∧
      (∀ x < x0, ∃ p luma u v, pixRead src (columnMap s.cfg x) row = some p ∧
        chromaEncode s.cfg p par = .sample luma u v ∧
        px[x]? = some ⟨.activeVideo, luma, .rat u, .rat v, nPix s.cfg⟩) ∧
      ∃ t, exec (.active row par) s = .next t ∧
        t = { s with
          st := .fault
          lbuf := s.lbuf ++ [⟨.syncH, s.cfg.levelSync, nHsync s.cfg⟩,
            ⟨.backPorch, s.cfg.levelBlank, nBdelay s.cfg⟩, ⟨.burst, s.cfg.levelBlank, nBurst s.cfg⟩,
            ⟨.backPorch, s.cfg.levelBlank, nBprem s.cfg⟩] ++ px.map Run.toLuma
          cbuf := s.cbuf ++ [⟨.syncH, .rat 0, .rat 0, nHsync s.cfg⟩,
            ⟨.backPorch, .rat 0, .rat 0, nBdelay s.cfg⟩,
            ⟨.burst, .minusK, if par then .plusK else .minusK, nBurst s.cfg⟩,
            ⟨.backPorch, .rat 0, .rat 0, nBprem s.cfg⟩] ++ px.map Run.toChroma
          nOut := s.nOut + (leadSamples s.cfg + x0 * nPix s.cfg)
          err := t.err
          x := t.x
          freeCtr := t.freeCtr } ∧
        (s.itemIndex < 1024 → t.err.n.toNat = s.itemIndex) ∧
        t.err.x = x0 ∧ t.err.xs = columnMap s.cfg x0 ∧ t.err.ys = row ∧ t.err.word = 0#16 ∧
        (pixRead src (columnMap s.cfg x0) row = none →
          t.err.code = 1#2 ∧ t.err.comp = 0#2 ∧ t.err.val = 0) ∧
        (∀ p, pixRead src (columnMap s.cfg x0) row = some p →
          t.err.code = 2#2 ∧ chromaEncode s.cfg p par = .malformed t.err.comp t.err.val)

/-- R149, R75, R203, the two reserved rows and every other illegal word: IllegalCommand is raised, nothing is appended, no
pixel is read, and nothing else changes but the model's free-value counter (log 4). The column counter after it is left
open (log 5). A reserved instruction is one whose word has that row's OP (log 17). -/
def Obligations.IllegalWordRaisesIllegalCommand : Prop :=
  ∀ (w : Lcw) (s : State),
    (∀ i : Instr, (i = .reservedOp6 w ∨ i = .reservedOp7 w) → i.wellFormed = true → ∃ t, exec i s = .next t ∧
      t = { s with st := .fault, err := ⟨3#2, t.err.n, 0, 0, 0, 0#2, 0, w⟩, x := t.x, freeCtr := t.freeCtr } ∧
      (s.itemIndex < 1024 → t.err.n.toNat = s.itemIndex)) ∧
    (lcwIllegal w = true → ∃ t, execWord w s = .next t ∧
      t = { s with st := .fault, err := ⟨3#2, t.err.n, 0, 0, 0, 0#2, 0, w⟩, x := t.x, freeCtr := t.freeCtr } ∧
      (s.itemIndex < 1024 → t.err.n.toNat = s.itemIndex))

/-- R130, the frame of every instruction: `even`, `(ph, it)`, CFG, the streams and the pixel space stay, every pixel reads
as before, `st` changes only by fault entry and the error registers only with it, and the buffers only grow. -/
def Obligations.LineBuilderFrame : Prop :=
  ∀ (i : Instr) (s t : State), exec i s = .next t →
    t.even = s.even ∧ t.ph = s.ph ∧ t.it = s.it ∧ t.cfg = s.cfg ∧ t.source = s.source ∧
    (∀ src, s.source = some src → ∃ src', t.source = some src' ∧
      ∀ xs ys, pixRead src' xs ys = pixRead src xs ys) ∧
    t.lumaOut = s.lumaOut ∧ t.chromaOut = s.chromaOut ∧ t.driver = s.driver ∧ t.inputs = s.inputs ∧
    ((t.st = s.st ∧ t.err = s.err) ∨ (t.st = .fault ∧ t.err.code ≠ 0#2)) ∧
    s.lbuf <+: t.lbuf ∧ s.cbuf <+: t.cbuf ∧ s.nOut ≤ t.nOut

/-- R146 and R147: the samples and the runs each item appends when it does not fault, for every pixel source and parity,
and the REF counts. -/
def Obligations.ItemSampleCounts : Prop :=
  (∀ (i : Instr) (s t : State), s.st ≠ .fault → exec i s = .next t → t.st ≠ .fault →
    let c := s.cfg
    let line := nHsync c + nBdelay c + nBurst c + nBprem c
    let counts : Nat × Nat := match i with
      | .long _ => (nLongP c + nLongR c, 2)
      | .short _ => (nShortP c + nShortR c, 2)
      | .blank _ => (line + nActive c + nFront c, 6)
      | .active _ _ => (line + c.nVis * nPix c + nFront c, c.nVis + 5)
      | .half _ => (nHalf c, 1)
      | .tail _ => (line + nTailfill c, 5)
      | .reservedOp6 _ => (0, 0)
      | .reservedOp7 _ => (0, 0)
    t.nOut = s.nOut + counts.1 ∧ t.lbuf.length = s.lbuf.length + counts.2 ∧
      t.cbuf.length = s.cbuf.length + counts.2) ∧
  [ItemKind.long, .short, .blank, .active, .half, .tail].map (itemSamples Cfg.ref) = [432, 432, 863, 863, 432, 431] ∧
  itemRunCount Cfg.ref .active = 707

/-- R152: with two pixel sources, where neither run of an instruction faults, the counts and kinds of all runs appended
agree, and every run that is not ACTIVE_VIDEO agrees whole. -/
def Obligations.OnlyActiveVideoDependsOnThePixels : Prop :=
  ∀ (i : Instr) (s t t' : State) (other : Option PixelSource), s.st ≠ .fault →
    exec i s = .next t → exec i { s with source := other } = .next t' → t.st ≠ .fault → t'.st ≠ .fault →
    t.nOut = t'.nOut ∧
    t.lbuf.map (fun r => (r.kind, r.count)) = t'.lbuf.map (fun r => (r.kind, r.count)) ∧
    t.lbuf.filter (fun r => r.kind != .activeVideo) = t'.lbuf.filter (fun r => r.kind != .activeVideo) ∧
    t.cbuf.filter (fun r => r.kind != .activeVideo) = t'.cbuf.filter (fun r => r.kind != .activeVideo)

/-! ## Errors -/

/-- R205: fault entry: `st`, the error registers and the status outputs; the buffers, `n_out`, `even`, `(ph, it)`, CFG,
the pixel source and the streams stay. -/
def Obligations.FaultEntry : Prop :=
  ∀ (e : ItemError) (s : State),
    (s.raise e).st = .fault ∧ (s.raise e).faultOut = true ∧ (s.raise e).doneOut = false ∧
    (s.raise e).err = e.record (s.raise e).err.n ∧
    (s.itemIndex < 1024 → (s.raise e).err.n.toNat = s.itemIndex) ∧
    s.raise e = { s with
      st := .fault
      err := (s.raise e).err
      x := (s.raise e).x
      freeCtr := (s.raise e).freeCtr }

/-! ## FrameSequencer -/

/-- A step runs the decoded instruction: in RUN, in a step without an event of the host (none is to come, or the next is
`quiet`, log 9), the word the driver hands over is decoded and executed; what the step adds is, without a fault, the
advance (or, in harness mode, the next position), and with one nothing. The second clause is of the model's own device for
the host's questions, `withFetchWord` (DESIGN CHOICE, log 10): a table word it places is the one the next step runs. -/
def Obligations.StepRunsTheDecodedInstruction : Prop :=
  (∀ (s s' : State) (w : Lcw) (i : Instr), s.cfg.Legal → s.st = .run → TakesNoEvent s s' → decode w = .instr i →
    ((s.driver = .sequencer ∧ issueWord s.ph.toNat s.it.toNat s.even = some w) ∨
      ∃ pos rest, s.driver = .harness pos (w :: rest)) →
    step s = match exec i s' with
      | .next t => .next (if t.st = .fault then t else t.completeItem)
      | .fault f => .fault f
      | .refused r => .refused r) ∧
  (∀ (s : State) (nbits w : Nat) (i : Instr), s.cfg.Legal → decodeTableWord nbits w = some i →
    step (s.withFetchWord nbits w) = match exec i (s.withFetchWord nbits w) with
      | .next t => .next (if t.st = .fault then t else t.completeItem)
      | .fault f => .fault f
      | .refused r => .refused r)

/-- R162: at every item the FrameSequencer hands a word over, it is legal, its RSV is 0, its EVEN is the parity flag, its
ROW is `2*it` in phase 3, `2*it + 1` in phase 9 and 0 otherwise, and its OP is the phase's (R160). -/
def Obligations.IssuedWordIsLegal : Prop :=
  ∀ s : State, s.driver = .sequencer → s.ph.toNat < 12 →
    s.it.toNat < ([5, 5, 17, 288, 5, 5, 5, 1, 17, 288, 1, 5] : List Nat).getD s.ph.toNat 0 →
    ∃ w, s.fetch = .word w ∧ lcwIllegal w = false ∧ lcwRsv w = 0#2 ∧ lcwEven w = s.even ∧
      (lcwRow w).toNat =
        (if s.ph = 3#4 then 2 * s.it.toNat else if s.ph = 9#4 then 2 * s.it.toNat + 1 else 0) ∧
      (lcwRow w).toNat ≤ 575 ∧
      (lcwOp w).toNat = ([0, 1, 2, 3, 1, 0, 1, 4, 2, 3, 5, 1] : List Nat).getD s.ph.toNat 0

/-- R163: in a step without an event of the host (none to come, or `quiet`: the list of events is the model's choice, log 3
and log 9), after an item without fault the hardware's own run toggles `even` and advances `(ph, it)`, and past the last
item of phase 11 it is DONE with the streams flattened; after a fault none of these updates happens. No phase is empty. -/
def Obligations.StepTogglesAndAdvances : Prop :=
  (∀ ph < 12, 1 ≤ phaseCount ph) ∧
  ∀ (s s' t : State) (w : Lcw), s.cfg.Legal → s.st = .run → TakesNoEvent s s' → s.driver = .sequencer →
    PointerLegal s → issueWord s.ph.toNat s.it.toNat s.even = some w → execWord w s' = .next t →
    (t.st ≠ .fault → ∃ u, step s = .next u ∧ u.even = !s.even ∧
      (s.it.toNat + 1 < phaseCount s.ph.toNat → u.ph = s.ph ∧ u.it.toNat = s.it.toNat + 1) ∧
      (s.it.toNat + 1 = phaseCount s.ph.toNat → u.ph.toNat = s.ph.toNat + 1 ∧ u.it = 0#9) ∧
      u.lbuf = t.lbuf ∧ u.cbuf = t.cbuf ∧ u.nOut = t.nOut ∧ u.err = t.err ∧
      (u.ph = 12#4 → u.st = .done ∧ u.lumaOut = flattenLuma t.lbuf ∧ u.chromaOut = flattenChroma t.cbuf) ∧
      (u.ph ≠ 12#4 → u.st = .run ∧ u.lumaOut = s.lumaOut ∧ u.chromaOut = s.chromaOut)) ∧
    (t.st = .fault → step s = .next t ∧ t.even = s.even ∧ t.ph = s.ph ∧ t.it = s.it)

/-- R22, R161: the item index of `(ph, it)` is in 0..641, distinct items have distinct indexes, and the advance adds one
(and reaches 642 at END). -/
def Obligations.ItemIndexCountsTheItems : Prop :=
  (∀ ph it ph' it', ph < 12 → it < phaseCount ph → ph' < 12 → it' < phaseCount ph' →
    scheduleIndex ph it < 642 ∧ (scheduleIndex ph it = scheduleIndex ph' it' → ph = ph' ∧ it = it')) ∧
  (∀ (ph : BitVec 4) (it : BitVec 9), ph.toNat < 12 → it.toNat < phaseCount ph.toNat →
    scheduleIndex (advancePointer ph it).1.toNat (advancePointer ph it).2.toNat =
      scheduleIndex ph.toNat it.toNat + 1) ∧
  scheduleIndex 12 0 = 642

/-- R170, and the phase starts of R172 at REF: the frame totals, by formula and at REF; `N_FRAME` is the start of END for
every configuration. -/
def Obligations.FrameTotals : Prop :=
  nField1 Cfg.ref = 269695 ∧ nField2 Cfg.ref = 270558 ∧ nFrame Cfg.ref = 540253 ∧
  (List.range 13).map (phaseStart Cfg.ref) =
    [0, 2160, 4320, 18991, 267535, 269695, 271855, 274015, 274447, 289118, 537662, 538093, 540253] ∧
  ∀ c : Cfg, phaseStart c 12 = nFrame c ∧ nFrame c = nField1 c + nField2 c ∧
    nField1 c = 5 * itemSamples c .long + 5 * itemSamples c .short + 17 * itemSamples c .blank +
      288 * itemSamples c .active + 5 * itemSamples c .short ∧
    nField2 c = 5 * itemSamples c .long + 5 * itemSamples c .short + itemSamples c .half + 17 * itemSamples c .blank +
      288 * itemSamples c .active + itemSamples c .tail + 5 * itemSamples c .short ∧
    nFrame c = 10 * itemSamples c .long + 20 * itemSamples c .short + 34 * itemSamples c .blank +
      576 * itemSamples c .active + itemSamples c .half + itemSamples c .tail

/-- R171: LONG, SHORT, HALF and TAIL last half a line period and BLANK and ACTIVE one, as the sum of the durations of
their runs; Field 1 lasts 312.5 line periods, Field 2 313.5 and the frame 626. -/
def Obligations.FrameLasts626LinePeriods : Prop :=
  ∀ c : Cfg, c.Legal →
    c.tLongPulse + (c.tLine / 2 - c.tLongPulse) = itemDuration c .long ∧
    c.tShortPulse + (c.tLine / 2 - c.tShortPulse) = itemDuration c .short ∧
    c.tHsync + (c.tBurstDelay + burstDuration c + (c.tBackPorch - c.tBurstDelay - burstDuration c)) + c.tActive +
      c.tFrontPorch = itemDuration c .blank ∧
    c.tHsync + (c.tBurstDelay + burstDuration c + (c.tBackPorch - c.tBurstDelay - burstDuration c)) +
      c.nVis * pixelDuration c + c.tFrontPorch = itemDuration c .active ∧
    c.tLine / 2 = itemDuration c .half ∧
    c.tHsync + (c.tBurstDelay + burstDuration c + (c.tBackPorch - c.tBurstDelay - burstDuration c)) +
      (c.tLine / 2 - c.tHsync - c.tBackPorch) = itemDuration c .tail ∧
    ((phaseTable.take 5).map fun p => (p.count : Rat) * itemDuration c p.kind).sum = 625 / 2 * c.tLine ∧
    ((phaseTable.drop 5).map fun p => (p.count : Rat) * itemDuration c p.kind).sum = 627 / 2 * c.tLine ∧
    frameDuration c = 626 * c.tLine

/-! ## SampleEmitter -/

/-- R193: the sample at index `k` is the rounded value of the run that covers `k`, in both streams. -/
def Obligations.SampleLookup : Prop :=
  (∀ (l : List LumaRun) (j k : Nat) (r : LumaRun), l[j]? = some r →
    ((l.take j).map LumaRun.count).sum ≤ k → k < ((l.take (j + 1)).map LumaRun.count).sum →
    (flattenLuma l)[k]? = some (f32Rat r.v)) ∧
  (∀ (l : List ChromaRun) (j k : Nat) (r : ChromaRun), l[j]? = some r →
    ((l.take j).map ChromaRun.count).sum ≤ k → k < ((l.take (j + 1)).map ChromaRun.count).sum →
    (flattenChroma l)[k]? = some (f32Chroma r.u, f32Chroma r.w)) ∧
  (∀ l : List LumaRun, (flattenLuma l).length = (l.map LumaRun.count).sum) ∧
  (∀ l : List ChromaRun, (flattenChroma l).length = (l.map ChromaRun.count).sum)

/-- R39: two runs of one value in a row flatten as one run of the summed count, and so does a split; the kind does not
reach the streams. -/
def Obligations.MergedRunsFlattenAlike : Prop :=
  (∀ (l m : List LumaRun) (k k' k'' : SegKind) (v : Rat) (a b : Nat),
    flattenLuma (l ++ [⟨k, v, a⟩, ⟨k', v, b⟩] ++ m) = flattenLuma (l ++ [⟨k'', v, a + b⟩] ++ m)) ∧
  (∀ (l m : List ChromaRun) (k k' k'' : SegKind) (u w : ChromaVal) (a b : Nat),
    flattenChroma (l ++ [⟨k, u, w, a⟩, ⟨k', u, w, b⟩] ++ m) = flattenChroma (l ++ [⟨k'', u, w, a + b⟩] ++ m))

/-- R12: `f32(v)` is a binary32 value nearest to `v`, and at a tie between two it is the one whose significand is even,
for every `v` in the range of R25; `f32(0)` is +0.0, and no negative zero is produced (R190). -/
def Obligations.F32IsNearestTiesToEven : Prop :=
  f32Rat 0 = 0#32 ∧ (∀ c : ChromaVal, f32Chroma c ≠ 0x80000000#32) ∧
  ∀ v : Rat, |v| < 2 ^ 127 → ∃ q, f32Value (f32Rat v) = some q ∧
    (∀ (w : F32) (q' : Rat), f32Value w = some q' → |v - q| ≤ |v - q'|) ∧
    (∀ (w : F32) (q' : Rat), f32Value w = some q' → q' ≠ q → |v - q'| = |v - q| → (f32Rat v).getLsbD 0 = false)

/-- R135 and R8: the burst value at each parity, and its binary32 patterns are those of the values nearest to plus and
minus sqrt(2)/7. -/
def Obligations.BurstPatternIsNearest : Prop :=
  burstU = .minusK ∧ burstV true = .plusK ∧ burstV false = .minusK ∧
  f32Chroma .plusK = 0x3E4EE116#32 ∧ f32Chroma .minusK = 0xBE4EE116#32 ∧
  Real.sqrt (1 / 2) * ((burstAmp : Rat) : Real) = Real.sqrt 2 / 7 ∧
  ∃ q : Rat, f32Value (f32Chroma .plusK) = some q ∧ f32Value (f32Chroma .minusK) = some (-q) ∧
    ∀ (w : F32) (q' : Rat), f32Value w = some q' →
      |Real.sqrt 2 / 7 - ((q : Rat) : Real)| ≤ |Real.sqrt 2 / 7 - ((q' : Rat) : Real)|

/-- R64, R65, R194, R220, R236: before `done = 1` the host collects nothing. Then it collects both streams whole, and the
two files they serialize to in CFG's BYTE_ORDER: their lengths, and the byte at each offset. -/
def Obligations.SerializedLayout : Prop :=
  (∀ s : State, s.doneOut = false → s.collect = none ∧ s.collectBytes = none) ∧
  (∀ s : State, s.doneOut = true → s.collect = some (s.lumaOut, s.chromaOut) ∧
    ∃ luma chroma : List Byte, s.collectBytes = some (luma, chroma) ∧
      luma.length = 4 * s.lumaOut.length ∧ chroma.length = 8 * s.chromaOut.length ∧
      (∀ (k b : Nat) (w : F32), s.lumaOut[k]? = some w → b < 4 →
        luma[4 * k + b]? =
          some (w.extractLsb' (8 * (match s.cfg.byteOrder with | .little => b | .big => 3 - b)) 8)) ∧
      (∀ (k b : Nat) (i q : F32), s.chromaOut[k]? = some (i, q) → b < 4 →
        chroma[8 * k + b]? =
          some (i.extractLsb' (8 * (match s.cfg.byteOrder with | .little => b | .big => 3 - b)) 8) ∧
        chroma[8 * k + 4 + b]? =
          some (q.extractLsb' (8 * (match s.cfg.byteOrder with | .little => b | .big => 3 - b)) 8)))

/-! ## Reset, start and the host -/

/-- R41: the reset value of every piece of state the rule lists, for the core elaborated with any CFG; the machine's own
reset state is that of some legal CFG. -/
def Obligations.ResetValues : Prop :=
  (∀ c : Cfg, (State.initial c).cfg = c ∧ (State.initial c).st = .idle ∧ (State.initial c).st.code = 0#2 ∧
    (State.initial c).ph = 0#4 ∧ (State.initial c).it = 0#9 ∧ (State.initial c).even = true ∧
    (State.initial c).x = 0 ∧ (State.initial c).err = ⟨0#2, 0#10, 0, 0, 0, 0#2, 0, 0#16⟩ ∧
    (State.initial c).nOut = 0 ∧ (State.initial c).lbuf = [] ∧ (State.initial c).cbuf = [] ∧
    (State.initial c).lumaOut = [] ∧ (State.initial c).chromaOut = [] ∧
    (State.initial c).doneOut = false ∧ (State.initial c).faultOut = false) ∧
  ∃ c : Cfg, c.Legal ∧ Sys2Proof.core.reset = State.initial c

/-- R230: reset, asserted in any state, sets every piece of state to its reset value and leaves CFG. That the attached
pixel source stays is the model's reading (DEDUCED, log 2). -/
def Obligations.ResetEventResetsEverything : Prop :=
  ∀ (s : State) (rest : List HostInput), s.cfg.Legal → s.inputs = .reset :: rest →
    step s = .next { s with
      st := .idle, ph := 0#4, it := 0#9, even := true, x := 0, err := ⟨0#2, 0#10, 0, 0, 0, 0#2, 0, 0#16⟩
      nOut := 0, lbuf := [], cbuf := [], lumaOut := [], chromaOut := [], driver := .sequencer, inputs := rest }

/-- R231 and R213: start is accepted only in IDLE, with a pixel source attached, and sets the start values in one action;
in every other state it is ignored. Start in IDLE with none attached is refused by name, the model's reading of R220
(DEDUCED, log 2); a test driver's begin outside IDLE is ignored as start is, its reading of R131 (DEDUCED, log 18). -/
def Obligations.StartIsAcceptedOnlyInIdle : Prop :=
  (∀ (s : State) (rest : List HostInput) (src : PixelSource), s.cfg.Legal → s.inputs = .start :: rest →
    s.st = .idle → s.source = some src →
    step s = .next { s with
      ph := 0#4, it := 0#9, even := true, nOut := 0, lbuf := [], cbuf := [], st := .run, driver := .sequencer
      inputs := rest }) ∧
  (∀ (s : State) (rest : List HostInput), s.cfg.Legal → s.inputs = .start :: rest → s.st = .idle → s.source = none →
    step s = .refused .pixelSourceNotAttached) ∧
  (∀ (s : State) (rest : List HostInput), s.cfg.Legal → s.inputs = .start :: rest → s.st ≠ .idle →
    step s = .next { s with inputs := rest }) ∧
  (∀ (s : State) (words : List Lcw) (rest : List HostInput), s.cfg.Legal → s.inputs = .harness words :: rest →
    s.st ≠ .idle → step s = .next { s with inputs := rest })

/-- R165, R232, R233: from any state, reset and then start give the start state, with the same CFG and pixel source
(that reset leaves the source attached is DEDUCED, log 2; the free value's counter is the model's own), and the first
word issued is 0x0008, LONG even, item 0. -/
def Obligations.ResetThenStartIsAFreshRun : Prop :=
  (∀ (s : State) (src : PixelSource), s.cfg.Legal → s.source = some src → s.inputs = [.reset, .start] →
    ∃ t, runSteps 2 s = .next t ∧ t = { startedRun s.cfg src with freeCtr := s.freeCtr }) ∧
  (∀ (c : Cfg) (src : PixelSource), c.Legal →
    ∃ t, runSteps 2 { State.initial c with inputs := [.attach src, .start] } = .next t ∧ t = startedRun c src ∧
      t.fetch = .word 0x0008#16 ∧ t.itemIndex = 0 ∧ decode 0x0008#16 = .instr (.long true))

/-- R213, the whole transition table: what a step can do to `st`, from which state and by which event. RUN goes to DONE in
a step without an event, past item 641 of the schedule, or in harness mode after the last word (R131); a test driver
begins in IDLE only (DEDUCED, log 18). -/
def Obligations.StateTransitions : Prop :=
  ∀ s t : State, step s = .next t → t.st ≠ s.st →
    (s.inputs.head? = some .reset ∧ t.st = .idle) ∨
    (s.st = .idle ∧ t.st = .run ∧
      (s.inputs.head? = some .start ∨ ∃ words, s.inputs.head? = some (.harness words))) ∨
    ((s.inputs = [] ∨ s.inputs.head? = some .quiet) ∧ s.st = .run ∧ t.st = .done ∧
      (s.driver = .sequencer → s.itemIndex = 641 ∧ t.ph = 12#4 ∧ t.it = 0#9) ∧
      (∀ pos words, s.driver = .harness pos words → words = [])) ∨
    ((s.inputs = [] ∨ s.inputs.head? = some .quiet) ∧ s.st = .run ∧ t.st = .fault ∧ t.err.code ≠ 0#2)

/-- R208, R219: FAULT and DONE are left only by reset, and until then the error registers, the streams and `n_out` stay;
with no event (none to come, or `quiet`, log 9) IDLE, DONE and FAULT are inactive: all state survives. -/
def Obligations.FaultAndDoneAreLeftOnlyByReset : Prop :=
  (∀ s t : State, (s.st = .fault ∨ s.st = .done) → step s = .next t → s.inputs.head? ≠ some .reset →
    t.st = s.st ∧ t.err = s.err ∧ t.lumaOut = s.lumaOut ∧ t.chromaOut = s.chromaOut ∧ t.nOut = s.nOut ∧
    t.even = s.even ∧ t.ph = s.ph ∧ t.it = s.it) ∧
  (∀ s s' : State, s.cfg.Legal → s.st ≠ .run → TakesNoEvent s s' → step s = .next s')

/-- R24, R28, R237: an illegal configuration is refused: it has no initial state and no run; no step changes CFG, and a
change asked for by the host is refused. -/
def Obligations.ConfigurationIsLegalAndNeverChanges : Prop :=
  (∀ c : Cfg, ¬ c.Legal → elaborate c = .refused .illegalConfiguration) ∧
  (∀ c : Cfg, c.Legal → elaborate c = .next (State.initial c)) ∧
  (∀ s : State, ¬ s.cfg.Legal → step s = .refused .illegalConfiguration) ∧
  (∀ s t : State, step s = .next t → t.cfg = s.cfg) ∧
  (∀ (s : State) (c : Cfg) (rest : List HostInput), s.cfg.Legal → s.inputs = .reconfigure c :: rest → c ≠ s.cfg →
    step s = .refused .configurationChanged)

/-- R238: while `st = RUN` a changed pixel source is refused, and between runs any source may be attached. That the same
image again is no change, and that attaching one where a harness run began with none is a change, is the model's reading
(DEDUCED and DESIGN CHOICE, log 14). -/
def Obligations.PixelSourceIsConstantInARun : Prop :=
  ∀ (s : State) (src : PixelSource) (rest : List HostInput), s.cfg.Legal → s.inputs = .attach src :: rest →
    (s.st ≠ .run → step s = .next { s with source := some src, inputs := rest }) ∧
    (∀ old, s.st = .run → s.source = some old →
      (old.width = src.width ∧ old.height = src.height ∧
          ∀ xs ys, xs < old.width → ys < old.height → old.pixel xs ys = src.pixel xs ys) →
        step s = .next { s with inputs := rest }) ∧
    (s.st = .run → s.source = none → step s = .refused .pixelSourceChanged) ∧
    (∀ old, s.st = .run → s.source = some old →
      ¬ (old.width = src.width ∧ old.height = src.height ∧
          ∀ xs ys, xs < old.width → ys < old.height → old.pixel xs ys = src.pixel xs ys) →
        step s = .refused .pixelSourceChanged)

/-- R131: a harness run: it begins from the start state, each word that does not fault moves to the next position, `even`
and `(ph, it)` keep their values, and after the last word the streams are flattened and `st` becomes DONE. That it may begin
with no pixel source attached is the model's choice (DESIGN CHOICE, log 2), and so is that the flattening is a step of its
own (log 8). The steps are those without an event of the host (log 9). -/
def Obligations.HarnessRun : Prop :=
  (∀ (s : State) (words : List Lcw) (rest : List HostInput), s.cfg.Legal → s.st = .idle →
    s.inputs = .harness words :: rest →
    step s = .next { s with
      ph := 0#4, it := 0#9, even := true, nOut := 0, lbuf := [], cbuf := [], st := .run
      driver := .harness 0 words, inputs := rest }) ∧
  (∀ (s s' t : State) (pos : Nat) (w : Lcw) (rest : List Lcw), s.cfg.Legal → s.st = .run → TakesNoEvent s s' →
    s.driver = .harness pos (w :: rest) → execWord w s' = .next t →
    s.itemIndex = pos ∧
    (t.st ≠ .fault → step s = .next { t with driver := .harness (pos + 1) rest }) ∧
    (t.st = .fault → step s = .next t) ∧ t.even = s.even ∧ t.ph = s.ph ∧ t.it = s.it) ∧
  (∀ (s s' : State) (pos : Nat), s.cfg.Legal → s.st = .run → TakesNoEvent s s' → s.driver = .harness pos [] →
    step s = .next { s' with st := .done, lumaOut := flattenLuma s.lbuf, chromaOut := flattenChroma s.cbuf })

/-! ## Invariants -/

/-- The invariant holds at reset. -/
def Obligations.InvariantHoldsAtReset : Prop := CoreInv State.reset ∧ ∀ c : Cfg, c.Legal → CoreInv (State.initial c)

/-- The invariant is kept by every step, from every state that meets it. -/
def Obligations.EveryStepKeepsTheInvariant : Prop := ∀ s t : State, CoreInv s → step s = .next t → CoreInv t

/-- R37: with no other premise, every step keeps the buffers paired and `n_out` the sum of the counts in either; it is so
at reset. -/
def Obligations.EveryStepKeepsTheBuffersPaired : Prop :=
  (∀ c : Cfg, BuffersPaired (State.initial c)) ∧
  (∀ s t : State, BuffersPaired s → step s = .next t → BuffersPaired t) ∧
  (∀ s : State, BuffersPaired s → s.lbuf.length = s.cbuf.length ∧
    s.nOut = (s.lbuf.map LumaRun.count).sum ∧ s.nOut = (s.cbuf.map ChromaRun.count).sum)

/-- R167, R131, with no other premise: every step keeps `even` equal to the evenness of the item index in the hardware's
own run, and even in harness mode. -/
def Obligations.EveryStepKeepsTheParityAlternating : Prop :=
  ∀ s t : State, ParityLegal s → step s = .next t → ParityLegal t

/-- R31: at reset and after every step, with no other premise, every luma value the core has appended is in
[LEVEL_SYNC, LEVEL_WHITE] and every chroma component in [-0.615, 0.615]; at a legal CFG such values round to finite
binary32 words. -/
def Obligations.EveryStepKeepsTheValuesInRange : Prop :=
  (∀ c : Cfg, ValuesInRange (State.initial c)) ∧
  (∀ s t : State, ValuesInRange s → step s = .next t → ValuesInRange t) ∧
  (∀ s : State, s.cfg.Legal → ValuesInRange s →
    (∀ r ∈ s.lbuf, (f32Value (f32Rat r.v)).isSome = true) ∧
    (∀ r ∈ s.cbuf, (f32Value (f32Chroma r.u)).isSome = true ∧ (f32Value (f32Chroma r.w)).isSome = true))

/-- A state that meets the invariant never stops with a fault of the model, and the hardware's own run is never refused in
a step without an event of the host (none to come, or `quiet`, log 9): `step` answers a next state. -/
def Obligations.RunNeverStops : Prop :=
  (∀ (s : State) (f : Fault), CoreInv s → step s ≠ .fault f) ∧
  (∀ s s' : State, CoreInv s → TakesNoEvent s s' → s.driver = .sequencer → ∃ t, step s = .next t)

/-- R203, R207, R192 in the states the invariant describes: the hardware's own run raises no IllegalCommand, FAULT shows
no stream, and at DONE both streams have `n_out = N_FRAME` samples. -/
def Obligations.DoneHasAWholeFrame : Prop :=
  ∀ s : State, CoreInv s →
    (s.driver = .sequencer → s.err.code ≠ 3#2) ∧
    (s.faultOut = true → s.lumaOut = [] ∧ s.chromaOut = []) ∧
    (s.doneOut = true → s.lumaOut.length = s.nOut ∧ s.chromaOut.length = s.nOut) ∧
    (s.doneOut = true → s.driver = .sequencer → s.nOut = nFrame s.cfg)

/-! ## Whole runs -/

/-- R243: every run that starts ends within 642 item steps, in DONE or in FAULT, for every legal configuration and every
pixel source. -/
def Obligations.EveryRunEndsWithin642Steps : Prop :=
  ∀ (c : Cfg) (src : PixelSource), c.Legal →
    ∃ k t, k ≤ 642 ∧ runSteps k (startedRun c src) = .next t ∧ (t.st = .done ∨ t.st = .fault)

/-- R169, R170, R192: a run all of whose reads are good is DONE after exactly 642 steps, at `(12, 0)`, with parity even,
and both streams have N_FRAME samples, whatever the picture. -/
def Obligations.GoodImageGivesAWholeFrame : Prop :=
  ∀ (c : Cfg) (src : PixelSource), c.Legal →
    (∀ ys x, ys < 576 → x < c.nVis → ColumnGood src c ys x) →
    ∃ t, runSteps 642 (startedRun c src) = .next t ∧ t.st = .done ∧ t.ph = 12#4 ∧ t.it = 0#9 ∧ t.even = true ∧
      t.err = ErrRegs.none ∧ t.nOut = nFrame c ∧ t.lumaOut.length = nFrame c ∧ t.chromaOut.length = nFrame c

/-- R58, for a source whose every pixel is well formed: the run reaches DONE exactly when `W ≥ xs_max + 1` and
`H ≥ 576`, and otherwise it ends in FAULT with InvalidPixelAccess. -/
def Obligations.SmallImageFaults : Prop :=
  ∀ (c : Cfg) (src : PixelSource), c.Legal → WellColored src →
    ∃ t, runSteps 642 (startedRun c src) = .next t ∧
      (t.st = .done ↔ xsMax c + 1 ≤ src.width ∧ 576 ≤ src.height) ∧
      (¬ (xsMax c + 1 ≤ src.width ∧ 576 ≤ src.height) → t.st = .fault ∧ t.err.code = 1#2)

/-- R209 over a whole run: the error recorded is that of the first offending column of the first offending item in
schedule order, and the samples appended are those before it. -/
def Obligations.FirstOffenceWins : Prop :=
  ∀ (c : Cfg) (src : PixelSource) (ph it row x0 : Nat), c.Legal →
    ((ph = 3 ∧ row = 2 * it) ∨ (ph = 9 ∧ row = 2 * it + 1)) → it < 288 → x0 < c.nVis →
    (∀ i x, (i < it ∨ ph = 9) → i < 288 → x < c.nVis → ColumnGood src c (2 * i) x) →
    (∀ i x, ph = 9 → i < it → x < c.nVis → ColumnGood src c (2 * i + 1) x) →
    (∀ x < x0, ColumnGood src c row x) → ¬ ColumnGood src c row x0 →
    ∃ t, runSteps 642 (startedRun c src) = .next t ∧ t.st = .fault ∧ t.ph.toNat = ph ∧ t.it.toNat = it ∧
      t.err.n.toNat = scheduleIndex ph it ∧ t.err.x = x0 ∧ t.err.xs = columnMap c x0 ∧ t.err.ys = row ∧
      t.err.code = (if src.width ≤ columnMap c x0 ∨ src.height ≤ row then 1#2 else 2#2) ∧
      t.nOut = itemStart c ph it + leadSamples c + x0 * nPix c

/-- R172 for every configuration and every image whose reads are all good: the run is DONE, and source row `y` and visible
column `x` stand at their sample index in both streams, with the pixel's encoded value at the parity of its item. -/
def Obligations.PixelStandsAtItsSampleIndex : Prop :=
  ∀ (c : Cfg) (src : PixelSource), c.Legal →
    (∀ ys x, ys < 576 → x < c.nVis → ColumnGood src c ys x) →
    ∃ t, runSteps 642 (startedRun c src) = .next t ∧ t.st = .done ∧
      ∀ y x j, y < 576 → x < c.nVis → j < nPix c →
        ∃ p luma u v, pixRead src (columnMap c x) y = some p ∧
          chromaEncode c p (scheduleIndex (rowItem y).1 (rowItem y).2 % 2 == 0) = .sample luma u v ∧
          t.lumaOut[itemStart c (rowItem y).1 (rowItem y).2 + leadSamples c + x * nPix c + j]? =
            some (f32Rat luma) ∧
          t.chromaOut[itemStart c (rowItem y).1 (rowItem y).2 + leadSamples c + x * nPix c + j]? =
            some (f32Rat u, f32Rat v)

/-- R58, R210, R152: pixels a frame never reads have no effect: two sources that give the same answer to every read of a
frame give runs equal in everything but the attached source, the error included. -/
def Obligations.UnreadPixelsHaveNoEffect : Prop :=
  ∀ (c : Cfg) (a b : PixelSource) (k : Nat), c.Legal → AgreeOnReads c a b →
    ∃ t, runSteps k (startedRun c a) = .next t ∧
      runSteps k (startedRun c b) = .next { t with source := some b }
end

