-- ==== Sys2Proof/Laws/Chroma.lean ====
section
/-! SUPPORT. What ENCODE can answer: a sample exactly for a well-formed pixel, else the first bad component. -/

namespace Sys2Proof.Machine

@[simp] theorem componentBad_iff (v : Int) : componentBad v = true ↔ v < 0 ∨ 255 < v := by
  simp [componentBad]

/-- The two answers of ENCODE (R110, R111). -/
theorem chromaEncode_cases (c : Cfg) (p : Rgb) (par : Bool) :
    (p.inRange ∧ ∃ luma u v, chromaEncode c p par = .sample luma u v) ∨
    (¬ p.inRange ∧ ∃ comp val, chromaEncode c p par = .malformed comp val) := by
  simp only [chromaEncode, componentBad_iff, Rgb.inRange]
  split
  · exact Or.inr ⟨by omega, _, _, rfl⟩
  · split
    · exact Or.inr ⟨by omega, _, _, rfl⟩
    · split
      · exact Or.inr ⟨by omega, _, _, rfl⟩
      · exact Or.inl ⟨by omega, _, _, _, rfl⟩

theorem chromaEncode_of_inRange (c : Cfg) (p : Rgb) (par : Bool) (h : p.inRange) :
    chromaEncode c p par =
      .sample (lumaLevel c (lumaY (p.r / 255) (p.g / 255) (p.b / 255)))
        (chromaU (p.r / 255) (p.g / 255) (p.b / 255))
        (paritySign par (chromaV (p.r / 255) (p.g / 255) (p.b / 255))) := by
  simp only [Rgb.inRange] at h
  simp only [chromaEncode, componentBad_iff]
  rw [if_neg (by omega), if_neg (by omega), if_neg (by omega)]

end Sys2Proof.Machine
end

