-- ==== Sys2Proof/Laws/Emitter.lean ====
section
/-! SUPPORT. FLATTEN, run by run. -/

namespace Sys2Proof.Machine

@[simp] theorem flattenLuma_nil : flattenLuma [] = [] := rfl

@[simp] theorem flattenLuma_cons (r : LumaRun) (l : List LumaRun) :
    flattenLuma (r :: l) = List.replicate r.count (f32Rat r.v) ++ flattenLuma l := by
  simp [flattenLuma]

@[simp] theorem flattenLuma_append (l m : List LumaRun) : flattenLuma (l ++ m) = flattenLuma l ++ flattenLuma m := by
  simp [flattenLuma]

@[simp] theorem flattenChroma_nil : flattenChroma [] = [] := rfl

@[simp] theorem flattenChroma_cons (r : ChromaRun) (l : List ChromaRun) :
    flattenChroma (r :: l) = List.replicate r.count (f32Chroma r.u, f32Chroma r.w) ++ flattenChroma l := by
  simp [flattenChroma]

@[simp] theorem flattenChroma_append (l m : List ChromaRun) :
    flattenChroma (l ++ m) = flattenChroma l ++ flattenChroma m := by
  simp [flattenChroma]

@[simp] theorem wordBytes_length (order : ByteOrder) (w : F32) : (wordBytes order w).length = 4 := by
  cases order <;> rfl

end Sys2Proof.Machine
end

