-- ==== Sys2Proof/Laws/Memory.lean ====
section
/-! SUPPORT. The pixel memory: every operation keeps the canonical form, and a read after a write. -/

namespace Sys2Proof.Machine

/-- Every address of the memory is above `a`. -/
def AboveAll (a : Nat) (m : Memory) : Prop := ∀ e ∈ m, a < e.1

theorem wf_cons_iff (fill : Rgb) (a : Nat) (v : Rgb) (m : Memory) :
    Memory.wf fill ((a, v) :: m) = true ↔ v ≠ fill ∧ AboveAll a m ∧ Memory.wf fill m = true := by
  induction m generalizing a v with
  | nil => simp [Memory.wf, AboveAll]
  | cons e m ih =>
    obtain ⟨b, u⟩ := e
    simp only [Memory.wf, Bool.and_eq_true, decide_eq_true_eq]
    constructor
    · rintro ⟨⟨hv, hab⟩, hm⟩
      refine ⟨hv, ?_, hm⟩
      intro e he
      rcases List.mem_cons.mp he with rfl | he
      · exact hab
      · exact lt_trans hab (((ih b u).mp hm).2.1 e he)
    · rintro ⟨hv, habove, hm⟩
      exact ⟨⟨hv, habove (b, u) (by simp)⟩, hm⟩

theorem memoryRead_of_aboveAll (fill : Rgb) (m : Memory) (a : Nat) (h : AboveAll a m) :
    memoryRead fill m a = fill := by
  induction m with
  | nil => rfl
  | cons e m ih =>
    obtain ⟨b, u⟩ := e
    have hb : a < b := h (b, u) (by simp)
    simp only [memoryRead]
    rw [if_neg (by omega)]
    exact ih fun e he => h e (by simp [he])

theorem memoryWrite_aboveAll (fill : Rgb) (m : Memory) (a b : Nat) (v : Rgb) (hb : b < a) (h : AboveAll b m) :
    AboveAll b (memoryWrite fill m a v) := by
  induction m with
  | nil =>
    intro e he
    simp only [memoryWrite] at he
    split at he
    · simp at he
    · simp only [List.mem_singleton] at he
      subst he
      exact hb
  | cons f m ih =>
    obtain ⟨d, u⟩ := f
    have hd : b < d := h (d, u) (by simp)
    have hm : AboveAll b m := fun e he => h e (by simp [he])
    intro e he
    simp only [memoryWrite] at he
    split at he
    · split at he
      · exact h e he
      · rcases List.mem_cons.mp he with rfl | he
        · exact hb
        · exact h e he
    · split at he
      · split at he
        · exact hm e he
        · rcases List.mem_cons.mp he with rfl | he
          · exact hb
          · exact hm e he
      · rcases List.mem_cons.mp he with rfl | he
        · exact hd
        · exact ih hm e he

/-- A write keeps the canonical form. -/
theorem memoryWrite_wf (fill : Rgb) (m : Memory) (a : Nat) (v : Rgb) (h : Memory.wf fill m = true) :
    Memory.wf fill (memoryWrite fill m a v) = true := by
  induction m with
  | nil =>
    simp only [memoryWrite]
    split <;> simp_all [Memory.wf]
  | cons f m ih =>
    obtain ⟨d, u⟩ := f
    obtain ⟨hu, habove, hm⟩ := (wf_cons_iff fill d u m).mp h
    simp only [memoryWrite]
    split
    · rename_i had
      split
      · exact h
      · rename_i hv
        refine (wf_cons_iff fill a v _).mpr ⟨hv, ?_, h⟩
        intro e he
        rcases List.mem_cons.mp he with rfl | he
        · exact had
        · exact lt_trans had (habove e he)
    · split
      · rename_i had
        subst had
        split
        · exact hm
        · rename_i hv
          exact (wf_cons_iff fill a v m).mpr ⟨hv, habove, hm⟩
      · refine (wf_cons_iff fill d u _).mpr ⟨hu, ?_, ih hm⟩
        exact memoryWrite_aboveAll fill m a d v (by omega) habove

/-- A read after a write, at the written address and at every other. -/
theorem memoryRead_memoryWrite (fill : Rgb) (m : Memory) (a b : Nat) (v : Rgb) (h : Memory.wf fill m = true) :
    memoryRead fill (memoryWrite fill m a v) b = if b = a then v else memoryRead fill m b := by
  induction m with
  | nil =>
    simp only [memoryWrite]
    split
    · simp_all [memoryRead]
    · simp only [memoryRead]
  | cons f m ih =>
    obtain ⟨d, u⟩ := f
    obtain ⟨_, habove, hm⟩ := (wf_cons_iff fill d u m).mp h
    simp only [memoryWrite]
    split
    · rename_i had
      split
      · rename_i hv
        split
        · rename_i hb
          subst hb
          rw [hv]
          apply memoryRead_of_aboveAll
          intro e he
          rcases List.mem_cons.mp he with rfl | he
          · exact had
          · exact lt_trans had (habove e he)
        · rfl
      · simp only [memoryRead]
    · split
      · rename_i had
        subst had
        split
        · rename_i hv
          simp only [memoryRead]
          split
          · rename_i hb
            subst hb
            rw [hv]
            exact memoryRead_of_aboveAll fill m b habove
          · rfl
        · simp only [memoryRead]
          split <;> simp_all
      · rename_i h1 h2
        simp only [memoryRead, ih hm]
        split
        · rename_i hb
          subst hb
          rw [if_neg (by omega)]
        · rfl

theorem memoryWrite_address (fill : Rgb) (m : Memory) (a : Nat) (v : Rgb) :
    ∀ e ∈ memoryWrite fill m a v, e.1 = a ∨ e ∈ m := by
  induction m with
  | nil =>
    intro e he
    simp only [memoryWrite] at he
    split at he <;> simp_all
  | cons f m ih =>
    obtain ⟨d, u⟩ := f
    intro e he
    simp only [memoryWrite] at he
    split at he
    · split at he <;> simp_all
      rcases he with rfl | h | h <;> simp_all
    · split at he
      · split at he
        · simp_all
        · rcases List.mem_cons.mp he with rfl | he <;> simp_all
      · rcases List.mem_cons.mp he with rfl | he
        · simp
        · rcases ih e he with h | h <;> simp_all

theorem address_lt (src : PixelSource) (xs ys : Nat) (hx : xs < src.width) (hy : ys < src.height) :
    ys * src.width + xs < src.width * src.height := by
  have : (ys + 1) * src.width ≤ src.height * src.width := Nat.mul_le_mul_right _ hy
  nlinarith

theorem address_injective (width xs ys xs' ys' : Nat) (hx : xs < width) (hx' : xs' < width)
    (h : ys * width + xs = ys' * width + xs') : xs = xs' ∧ ys = ys' := by
  have h1 : (ys * width + xs) % width = xs := by
    rw [Nat.add_comm, Nat.add_mul_mod_self_right, Nat.mod_eq_of_lt hx]
  have h2 : (ys' * width + xs') % width = xs' := by
    rw [Nat.add_comm, Nat.add_mul_mod_self_right, Nat.mod_eq_of_lt hx']
  have hxx : xs = xs' := by rw [← h1, h, h2]
  refine ⟨hxx, ?_⟩
  have : ys * width = ys' * width := by omega
  exact Nat.eq_of_mul_eq_mul_right (by omega) this

/-- Changing a pixel keeps the source in canonical form. -/
theorem setPixel_wf (src : PixelSource) (xs ys : Nat) (v : Rgb) (h : src.wf = true) :
    (src.setPixel xs ys v).wf = true := by
  simp only [PixelSource.setPixel]
  split
  · rename_i hc
    simp only [PixelSource.contains, Bool.and_eq_true, decide_eq_true_eq] at hc
    simp only [PixelSource.wf, Bool.and_eq_true, List.all_eq_true, decide_eq_true_eq] at h ⊢
    refine ⟨memoryWrite_wf _ _ _ _ h.1, ?_⟩
    intro e he
    rcases memoryWrite_address _ _ _ _ e he with ha | hm
    · rw [ha]
      exact address_lt src xs ys hc.1 hc.2
    · exact h.2 e hm
  · exact h

/-- A uniform image is in canonical form. -/
theorem uniform_wf (width height : Nat) (v : Rgb) : (PixelSource.uniform width height v).wf = true := rfl

@[simp] theorem uniform_pixel (width height : Nat) (v : Rgb) (xs ys : Nat) :
    (PixelSource.uniform width height v).pixel xs ys = v := rfl

/-- The machine right after reset lists no pixel: no source is attached. -/
theorem reset_source : State.reset.source = none := rfl

theorem pixRead_eq_some_iff (src : PixelSource) (xs ys : Nat) (p : Rgb) :
    pixRead src xs ys = some p ↔ xs < src.width ∧ ys < src.height ∧ src.pixel xs ys = p := by
  simp only [pixRead]
  split
  · rename_i h
    constructor
    · intro h'
      simp at h'
    · rintro ⟨h1, h2, -⟩
      omega
  · rename_i h
    simp only [Option.some.injEq]
    constructor
    · intro h'
      exact ⟨by omega, by omega, h'⟩
    · rintro ⟨-, -, h'⟩
      exact h'

theorem pixRead_eq_none_iff (src : PixelSource) (xs ys : Nat) :
    pixRead src xs ys = none ↔ src.width ≤ xs ∨ src.height ≤ ys := by
  simp only [pixRead, ite_eq_left_iff, reduceCtorEq, imp_false, not_not]

/-- Two sources are the same image exactly when they agree in size and on every pixel. -/
theorem sameImage_iff (a b : PixelSource) :
    a.sameImage b = true ↔ a.width = b.width ∧ a.height = b.height ∧
      ∀ xs ys, xs < a.width → ys < a.height → a.pixel xs ys = b.pixel xs ys := by
  simp only [PixelSource.sameImage, Bool.or_eq_true, Bool.and_eq_true, beq_iff_eq, List.all_eq_true, List.mem_range]
  constructor
  · rintro (rfl | ⟨⟨hw, hh⟩, hp⟩)
    · exact ⟨rfl, rfl, fun _ _ _ _ => rfl⟩
    · exact ⟨hw, hh, fun xs ys hx hy => hp ys hy xs hx⟩
  · rintro ⟨hw, hh, hp⟩
    exact Or.inr ⟨⟨hw, hh⟩, fun ys hy xs hx => hp xs ys hx hy⟩

end Sys2Proof.Machine
end

