-- ==== Sys2Proof/Laws/State.lean ====
section
/-! SUPPORT. One lemma per field for each update of the state, true by rfl, so that no proof unfolds a record update. -/

namespace Sys2Proof.Machine

variable (s : State)

/-! `State.append` -/

@[simp] theorem append_cfg (r : Run) : (s.append r).cfg = s.cfg := rfl
@[simp] theorem append_st (r : Run) : (s.append r).st = s.st := rfl
@[simp] theorem append_ph (r : Run) : (s.append r).ph = s.ph := rfl
@[simp] theorem append_it (r : Run) : (s.append r).it = s.it := rfl
@[simp] theorem append_even (r : Run) : (s.append r).even = s.even := rfl
@[simp] theorem append_x (r : Run) : (s.append r).x = s.x := rfl
@[simp] theorem append_err (r : Run) : (s.append r).err = s.err := rfl
@[simp] theorem append_nOut (r : Run) : (s.append r).nOut = s.nOut + r.count := rfl
@[simp] theorem append_lbuf (r : Run) : (s.append r).lbuf = s.lbuf ++ [r.toLuma] := rfl
@[simp] theorem append_cbuf (r : Run) : (s.append r).cbuf = s.cbuf ++ [r.toChroma] := rfl
@[simp] theorem append_lumaOut (r : Run) : (s.append r).lumaOut = s.lumaOut := rfl
@[simp] theorem append_chromaOut (r : Run) : (s.append r).chromaOut = s.chromaOut := rfl
@[simp] theorem append_source (r : Run) : (s.append r).source = s.source := rfl
@[simp] theorem append_driver (r : Run) : (s.append r).driver = s.driver := rfl
@[simp] theorem append_inputs (r : Run) : (s.append r).inputs = s.inputs := rfl
@[simp] theorem append_freeCtr (r : Run) : (s.append r).freeCtr = s.freeCtr := rfl

/-! `State.appendAll` -/

@[simp] theorem appendAll_cfg (rs : List Run) : (s.appendAll rs).cfg = s.cfg := rfl
@[simp] theorem appendAll_st (rs : List Run) : (s.appendAll rs).st = s.st := rfl
@[simp] theorem appendAll_ph (rs : List Run) : (s.appendAll rs).ph = s.ph := rfl
@[simp] theorem appendAll_it (rs : List Run) : (s.appendAll rs).it = s.it := rfl
@[simp] theorem appendAll_even (rs : List Run) : (s.appendAll rs).even = s.even := rfl
@[simp] theorem appendAll_x (rs : List Run) : (s.appendAll rs).x = s.x := rfl
@[simp] theorem appendAll_err (rs : List Run) : (s.appendAll rs).err = s.err := rfl
@[simp] theorem appendAll_nOut (rs : List Run) : (s.appendAll rs).nOut = s.nOut + runSamples rs := rfl
@[simp] theorem appendAll_lbuf (rs : List Run) : (s.appendAll rs).lbuf = s.lbuf ++ rs.map Run.toLuma := rfl
@[simp] theorem appendAll_cbuf (rs : List Run) : (s.appendAll rs).cbuf = s.cbuf ++ rs.map Run.toChroma := rfl
@[simp] theorem appendAll_lumaOut (rs : List Run) : (s.appendAll rs).lumaOut = s.lumaOut := rfl
@[simp] theorem appendAll_chromaOut (rs : List Run) : (s.appendAll rs).chromaOut = s.chromaOut := rfl
@[simp] theorem appendAll_source (rs : List Run) : (s.appendAll rs).source = s.source := rfl
@[simp] theorem appendAll_driver (rs : List Run) : (s.appendAll rs).driver = s.driver := rfl
@[simp] theorem appendAll_inputs (rs : List Run) : (s.appendAll rs).inputs = s.inputs := rfl
@[simp] theorem appendAll_freeCtr (rs : List Run) : (s.appendAll rs).freeCtr = s.freeCtr := rfl

/-! `State.raise` -/

@[simp] theorem raise_cfg (e : ItemError) : (s.raise e).cfg = s.cfg := rfl
@[simp] theorem raise_st (e : ItemError) : (s.raise e).st = .fault := rfl
@[simp] theorem raise_ph (e : ItemError) : (s.raise e).ph = s.ph := rfl
@[simp] theorem raise_it (e : ItemError) : (s.raise e).it = s.it := rfl
@[simp] theorem raise_even (e : ItemError) : (s.raise e).even = s.even := rfl
@[simp] theorem raise_x (e : ItemError) : (s.raise e).x = e.column s.x := rfl
@[simp] theorem raise_err (e : ItemError) : (s.raise e).err = e.record s.errIndex := rfl
@[simp] theorem raise_nOut (e : ItemError) : (s.raise e).nOut = s.nOut := rfl
@[simp] theorem raise_lbuf (e : ItemError) : (s.raise e).lbuf = s.lbuf := rfl
@[simp] theorem raise_cbuf (e : ItemError) : (s.raise e).cbuf = s.cbuf := rfl
@[simp] theorem raise_lumaOut (e : ItemError) : (s.raise e).lumaOut = s.lumaOut := rfl
@[simp] theorem raise_chromaOut (e : ItemError) : (s.raise e).chromaOut = s.chromaOut := rfl
@[simp] theorem raise_source (e : ItemError) : (s.raise e).source = s.source := rfl
@[simp] theorem raise_driver (e : ItemError) : (s.raise e).driver = s.driver := rfl
@[simp] theorem raise_inputs (e : ItemError) : (s.raise e).inputs = s.inputs := rfl
@[simp] theorem raise_freeCtr (e : ItemError) : (s.raise e).freeCtr = if s.itemIndexFits then s.freeCtr else s.freeCtr + 1 := rfl

/-! `State.resetEvent` -/

@[simp] theorem resetEvent_cfg : (s.resetEvent).cfg = s.cfg := rfl
@[simp] theorem resetEvent_st : (s.resetEvent).st = .idle := rfl
@[simp] theorem resetEvent_ph : (s.resetEvent).ph = 0#4 := rfl
@[simp] theorem resetEvent_it : (s.resetEvent).it = 0#9 := rfl
@[simp] theorem resetEvent_even : (s.resetEvent).even = true := rfl
@[simp] theorem resetEvent_x : (s.resetEvent).x = 0 := rfl
@[simp] theorem resetEvent_err : (s.resetEvent).err = ErrRegs.none := rfl
@[simp] theorem resetEvent_nOut : (s.resetEvent).nOut = 0 := rfl
@[simp] theorem resetEvent_lbuf : (s.resetEvent).lbuf = [] := rfl
@[simp] theorem resetEvent_cbuf : (s.resetEvent).cbuf = [] := rfl
@[simp] theorem resetEvent_lumaOut : (s.resetEvent).lumaOut = [] := rfl
@[simp] theorem resetEvent_chromaOut : (s.resetEvent).chromaOut = [] := rfl
@[simp] theorem resetEvent_source : (s.resetEvent).source = s.source := rfl
@[simp] theorem resetEvent_driver : (s.resetEvent).driver = .sequencer := rfl
@[simp] theorem resetEvent_inputs : (s.resetEvent).inputs = s.inputs := rfl
@[simp] theorem resetEvent_freeCtr : (s.resetEvent).freeCtr = s.freeCtr := rfl

/-! `State.startRun` -/

@[simp] theorem startRun_cfg (d : Driver) : (s.startRun d).cfg = s.cfg := rfl
@[simp] theorem startRun_st (d : Driver) : (s.startRun d).st = .run := rfl
@[simp] theorem startRun_ph (d : Driver) : (s.startRun d).ph = 0#4 := rfl
@[simp] theorem startRun_it (d : Driver) : (s.startRun d).it = 0#9 := rfl
@[simp] theorem startRun_even (d : Driver) : (s.startRun d).even = true := rfl
@[simp] theorem startRun_x (d : Driver) : (s.startRun d).x = s.x := rfl
@[simp] theorem startRun_err (d : Driver) : (s.startRun d).err = s.err := rfl
@[simp] theorem startRun_nOut (d : Driver) : (s.startRun d).nOut = 0 := rfl
@[simp] theorem startRun_lbuf (d : Driver) : (s.startRun d).lbuf = [] := rfl
@[simp] theorem startRun_cbuf (d : Driver) : (s.startRun d).cbuf = [] := rfl
@[simp] theorem startRun_lumaOut (d : Driver) : (s.startRun d).lumaOut = s.lumaOut := rfl
@[simp] theorem startRun_chromaOut (d : Driver) : (s.startRun d).chromaOut = s.chromaOut := rfl
@[simp] theorem startRun_source (d : Driver) : (s.startRun d).source = s.source := rfl
@[simp] theorem startRun_driver (d : Driver) : (s.startRun d).driver = d := rfl
@[simp] theorem startRun_inputs (d : Driver) : (s.startRun d).inputs = s.inputs := rfl
@[simp] theorem startRun_freeCtr (d : Driver) : (s.startRun d).freeCtr = s.freeCtr := rfl

/-! `State.finish` -/

@[simp] theorem finish_cfg : (s.finish).cfg = s.cfg := rfl
@[simp] theorem finish_st : (s.finish).st = .done := rfl
@[simp] theorem finish_ph : (s.finish).ph = s.ph := rfl
@[simp] theorem finish_it : (s.finish).it = s.it := rfl
@[simp] theorem finish_even : (s.finish).even = s.even := rfl
@[simp] theorem finish_x : (s.finish).x = s.x := rfl
@[simp] theorem finish_err : (s.finish).err = s.err := rfl
@[simp] theorem finish_nOut : (s.finish).nOut = s.nOut := rfl
@[simp] theorem finish_lbuf : (s.finish).lbuf = s.lbuf := rfl
@[simp] theorem finish_cbuf : (s.finish).cbuf = s.cbuf := rfl
@[simp] theorem finish_lumaOut : (s.finish).lumaOut = flattenLuma s.lbuf := rfl
@[simp] theorem finish_chromaOut : (s.finish).chromaOut = flattenChroma s.cbuf := rfl
@[simp] theorem finish_source : (s.finish).source = s.source := rfl
@[simp] theorem finish_driver : (s.finish).driver = s.driver := rfl
@[simp] theorem finish_inputs : (s.finish).inputs = s.inputs := rfl
@[simp] theorem finish_freeCtr : (s.finish).freeCtr = s.freeCtr := rfl

/-! `State.initial` -/

variable (c : Cfg)

@[simp] theorem initial_cfg : (State.initial c).cfg = c := rfl
@[simp] theorem initial_st : (State.initial c).st = .idle := rfl
@[simp] theorem initial_ph : (State.initial c).ph = 0#4 := rfl
@[simp] theorem initial_it : (State.initial c).it = 0#9 := rfl
@[simp] theorem initial_even : (State.initial c).even = true := rfl
@[simp] theorem initial_x : (State.initial c).x = 0 := rfl
@[simp] theorem initial_err : (State.initial c).err = ErrRegs.none := rfl
@[simp] theorem initial_nOut : (State.initial c).nOut = 0 := rfl
@[simp] theorem initial_lbuf : (State.initial c).lbuf = [] := rfl
@[simp] theorem initial_cbuf : (State.initial c).cbuf = [] := rfl
@[simp] theorem initial_lumaOut : (State.initial c).lumaOut = [] := rfl
@[simp] theorem initial_chromaOut : (State.initial c).chromaOut = [] := rfl
@[simp] theorem initial_source : (State.initial c).source = none := rfl
@[simp] theorem initial_driver : (State.initial c).driver = .sequencer := rfl
@[simp] theorem initial_inputs : (State.initial c).inputs = [] := rfl
@[simp] theorem initial_freeCtr : (State.initial c).freeCtr = 0 := rfl

/-! The run records. -/

@[simp] theorem toLuma_kind (r : Run) : r.toLuma.kind = r.kind := rfl
@[simp] theorem toLuma_v (r : Run) : r.toLuma.v = r.luma := rfl
@[simp] theorem toLuma_count (r : Run) : r.toLuma.count = r.count := rfl
@[simp] theorem toChroma_kind (r : Run) : r.toChroma.kind = r.kind := rfl
@[simp] theorem toChroma_u (r : Run) : r.toChroma.u = r.u := rfl
@[simp] theorem toChroma_w (r : Run) : r.toChroma.w = r.w := rfl
@[simp] theorem toChroma_count (r : Run) : r.toChroma.count = r.count := rfl

end Sys2Proof.Machine
end

