-- ==== Sys2Proof/Laws/Ops.lean ====
section
/-! SUPPORT. The shared operations: Append and its list form, the item index, and fault entry. -/

namespace Sys2Proof.Machine

@[simp] theorem runSamples_nil : runSamples [] = 0 := rfl

@[simp] theorem runSamples_cons (r : Run) (rs : List Run) : runSamples (r :: rs) = r.count + runSamples rs := rfl

@[simp] theorem runSamples_append (rs qs : List Run) : runSamples (rs ++ qs) = runSamples rs + runSamples qs := by
  simp [runSamples]

/-- Runs of one count. -/
theorem runSamples_of_count (rs : List Run) (n : Nat) (h : ∀ r ∈ rs, r.count = n) : runSamples rs = rs.length * n := by
  induction rs with
  | nil => simp
  | cons r rs ih =>
    rw [runSamples_cons, ih fun q hq => h q (by simp [hq]), h r (by simp), List.length_cons]
    ring

@[simp] theorem appendAll_nil (s : State) : s.appendAll [] = s := by
  simp [State.appendAll]

/-- Appending a list of runs is appending its first and then the others (R36, R151). -/
theorem appendAll_cons (r : Run) (rs : List Run) (s : State) : s.appendAll (r :: rs) = (s.append r).appendAll rs := by
  simp [State.appendAll, State.append, Nat.add_assoc]

theorem appendAll_appendAll (rs qs : List Run) (s : State) :
    (s.appendAll rs).appendAll qs = s.appendAll (rs ++ qs) := by
  simp [State.appendAll, Nat.add_assoc]

@[simp] theorem appendAll_itemIndex (rs : List Run) (s : State) : (s.appendAll rs).itemIndex = s.itemIndex := rfl

@[simp] theorem appendAll_errIndex (rs : List Run) (s : State) : (s.appendAll rs).errIndex = s.errIndex := rfl

@[simp] theorem appendAll_itemIndexFits (rs : List Run) (s : State) :
    (s.appendAll rs).itemIndexFits = s.itemIndexFits := rfl

/-- In the 10 bits of `err_n` the item index is recorded as it is. -/
theorem errIndex_toNat (s : State) (h : s.itemIndex < 1024) : s.errIndex.toNat = s.itemIndex := by
  simp [State.errIndex, State.itemIndexFits, h]

theorem record_code_ne_zero (e : ItemError) (n : BitVec 10) : (e.record n).code ≠ 0#2 := by
  cases e <;> simp [ItemError.record]

@[simp] theorem record_n (e : ItemError) (n : BitVec 10) : (e.record n).n = n := by
  cases e <;> rfl

end Sys2Proof.Machine
end

