-- ==== Sys2Proof/Laws/LineBuilder.lean ====
section
/-! SUPPORT. What the LineBuilder can do: one lemma per sub-operation and meaning, and the inversion of `exec`. -/

namespace Sys2Proof.Machine

@[simp] theorem plainRun_kind (k : SegKind) (v : Rat) (n : Nat) : (plainRun k v n).kind = k := rfl
@[simp] theorem plainRun_luma (k : SegKind) (v : Rat) (n : Nat) : (plainRun k v n).luma = v := rfl
@[simp] theorem plainRun_u (k : SegKind) (v : Rat) (n : Nat) : (plainRun k v n).u = .rat 0 := rfl
@[simp] theorem plainRun_w (k : SegKind) (v : Rat) (n : Nat) : (plainRun k v n).w = .rat 0 := rfl
@[simp] theorem plainRun_count (k : SegKind) (v : Rat) (n : Nat) : (plainRun k v n).count = n := rfl

/-- The samples of a line's sync and back porch (R146). -/
theorem lead_samples (c : Cfg) (par : Bool) :
    runSamples (horizontalSync c ++ backPorch c par) = leadSamples c := by
  simp [horizontalSync, backPorch, leadSamples]
  omega

theorem lead_length (c : Cfg) (par : Bool) : (horizontalSync c ++ backPorch c par).length = 4 := rfl

/-- A column that appends a run read a pixel and encoded it (R145). -/
theorem activeColumn_run {c : Cfg} {src : PixelSource} {ys : Nat} {par : Bool} {x : Nat} {r : Run}
    (h : activeColumn c src ys par x = .run r) :
    ∃ p luma u v, pixRead src (columnMap c x) ys = some p ∧ chromaEncode c p par = .sample luma u v ∧
      r = ⟨.activeVideo, luma, .rat u, .rat v, nPix c⟩ := by
  simp only [activeColumn] at h
  split at h
  · cases h
  · rename_i p hp
    split at h
    · cases h
    · rename_i luma u v he
      cases h
      exact ⟨p, luma, u, v, hp, he, rfl⟩

/-- A column that raises: the bounds check comes before the colour check (R201, R202, R209). -/
theorem activeColumn_error {c : Cfg} {src : PixelSource} {ys : Nat} {par : Bool} {x : Nat} {e : ItemError}
    (h : activeColumn c src ys par x = .error e) :
    (pixRead src (columnMap c x) ys = none ∧ e = .invalidPixelAccess x (columnMap c x) ys) ∨
    (∃ p comp val, pixRead src (columnMap c x) ys = some p ∧ chromaEncode c p par = .malformed comp val ∧
      e = .malformedColor x (columnMap c x) ys comp val) := by
  simp only [activeColumn] at h
  split at h
  · rename_i hp
    cases h
    exact Or.inl ⟨hp, rfl⟩
  · rename_i p hp
    split at h
    · rename_i comp val he
      cases h
      exact Or.inr ⟨p, comp, val, hp, he, rfl⟩
    · cases h

/-- A column is good exactly when it appends a run. -/
theorem columnGood_iff (c : Cfg) (src : PixelSource) (ys : Nat) (par : Bool) (x : Nat) :
    ColumnGood src c ys x ↔ ∃ r, activeColumn c src ys par x = .run r := by
  constructor
  · rintro ⟨p, hp, hr⟩
    rcases chromaEncode_cases c p par with ⟨-, luma, u, v, he⟩ | ⟨hn, -⟩
    · refine ⟨⟨.activeVideo, luma, .rat u, .rat v, nPix c⟩, ?_⟩
      simp only [activeColumn, hp, he]
    · exact absurd hr hn
  · rintro ⟨r, h⟩
    obtain ⟨p, luma, u, v, hp, he, -⟩ := activeColumn_run h
    rcases chromaEncode_cases c p par with ⟨hr, -⟩ | ⟨-, comp, val, hm⟩
    · exact ⟨p, hp, hr⟩
    · rw [he] at hm
      cases hm

/-- The columns that are all good append their runs in order. -/
theorem activeColumns_good (c : Cfg) (src : PixelSource) (ys : Nat) (par : Bool) (f : Nat → Run) (xs : List Nat)
    (h : ∀ x ∈ xs, activeColumn c src ys par x = .run (f x)) :
    activeColumns c src ys par xs = (xs.map f, none) := by
  induction xs with
  | nil => rfl
  | cons x xs ih =>
    simp only [activeColumns, h x (by simp), ih fun y hy => h y (by simp [hy]), List.map_cons]

/-- The first column that raises ends the line: the runs before it stay, and no column after it matters. -/
theorem activeColumns_stops (c : Cfg) (src : PixelSource) (ys : Nat) (par : Bool) (f : Nat → Run) (l : List Nat)
    (x : Nat) (rest : List Nat) (e : ItemError) (h : ∀ y ∈ l, activeColumn c src ys par y = .run (f y))
    (he : activeColumn c src ys par x = .error e) :
    activeColumns c src ys par (l ++ x :: rest) = (l.map f, some e) := by
  induction l with
  | nil => simp only [List.nil_append, activeColumns, he, List.map_nil]
  | cons y l ih =>
    simp only [List.cons_append, activeColumns, h y (by simp), ih fun z hz => h z (by simp [hz]), List.map_cons]

/-- Every run of the visible part is one pixel's, whatever happens (R115, R145). -/
theorem activeColumns_runs (c : Cfg) (src : PixelSource) (ys : Nat) (par : Bool) (xs : List Nat) :
    ∀ r ∈ (activeColumns c src ys par xs).1, r.kind = .activeVideo ∧ r.count = nPix c := by
  induction xs with
  | nil => simp [activeColumns]
  | cons x xs ih =>
    simp only [activeColumns]
    split
    · simp
    · rename_i r hr
      obtain ⟨p, luma, u, v, -, -, rfl⟩ := activeColumn_run hr
      intro q hq
      rcases List.mem_cons.mp hq with rfl | hq
      · exact ⟨rfl, rfl⟩
      · exact ih q hq

theorem activeColumns_length (c : Cfg) (src : PixelSource) (ys : Nat) (par : Bool) (xs : List Nat)
    (h : (activeColumns c src ys par xs).2 = none) : (activeColumns c src ys par xs).1.length = xs.length := by
  induction xs with
  | nil => rfl
  | cons x xs ih =>
    simp only [activeColumns] at h ⊢
    split at h
    · simp at h
    · simp only [List.length_cons, ih h]

/-- An error of the visible part is that of one of its columns. -/
theorem activeColumns_error {c : Cfg} {src : PixelSource} {ys : Nat} {par : Bool} {xs : List Nat} {e : ItemError}
    (h : (activeColumns c src ys par xs).2 = some e) : ∃ x ∈ xs, activeColumn c src ys par x = .error e := by
  induction xs with
  | nil => simp [activeColumns] at h
  | cons x xs ih =>
    simp only [activeColumns] at h
    split at h
    · rename_i e' he
      simp only [Option.some.injEq] at h
      exact ⟨x, by simp, h ▸ he⟩
    · obtain ⟨y, hy, hye⟩ := ih h
      exact ⟨y, by simp [hy], hye⟩

theorem activeColumns_none {c : Cfg} {src : PixelSource} {ys : Nat} {par : Bool} {xs : List Nat}
    (h : (activeColumns c src ys par xs).2 = none) : ∀ x ∈ xs, ColumnGood src c ys x := by
  induction xs with
  | nil => simp
  | cons x xs ih =>
    simp only [activeColumns] at h
    split at h
    · simp at h
    · rename_i r hr
      intro y hy
      rcases List.mem_cons.mp hy with rfl | hy
      · exact (columnGood_iff c src ys par y).mpr ⟨r, hr⟩
      · exact ih h y hy

/-- What ACTIVE does with a source attached: the whole line, or the line up to an error and fault entry (R145). -/
theorem execActive_cases (row : Nat) (par : Bool) (s : State) (src : PixelSource) (hs : s.source = some src) :
    ((activeVideo s.cfg src row par).2 = none ∧
      execActive row par s = .next { s.appendAll (horizontalSync s.cfg ++ backPorch s.cfg par ++
        (activeVideo s.cfg src row par).1 ++ frontPorch s.cfg) with x := s.cfg.nVis }) ∨
    ∃ e, (activeVideo s.cfg src row par).2 = some e ∧
      execActive row par s = .next ((s.appendAll (horizontalSync s.cfg ++ backPorch s.cfg par ++
        (activeVideo s.cfg src row par).1)).raise e) := by
  simp only [execActive, hs, rowOperand]
  generalize activeVideo s.cfg src row par = p
  obtain ⟨runs, e⟩ := p
  cases e with
  | none => exact Or.inl ⟨rfl, rfl⟩
  | some e => exact Or.inr ⟨e, rfl, rfl⟩

/-- Everything an instruction can do when it answers a next state: it appends runs, and then possibly takes fault entry
for an illegal word or for a visible column. -/
theorem exec_next_cases {i : Instr} {s t : State} (h : exec i s = .next t) :
    (∃ rs x, t = { s.appendAll rs with x := x } ∧ (x = s.x ∨ x = s.cfg.nVis)) ∨
    (∃ rs e, t = (s.appendAll rs).raise e ∧
      ((rs = [] ∧ ∃ w, e = .illegalCommand w ∧ (i = .reservedOp6 w ∨ i = .reservedOp7 w)) ∨
        ∃ row par src x, i = .active row par ∧ s.source = some src ∧ x < s.cfg.nVis ∧
          activeColumn s.cfg src row par x = .error e)) := by
  have plain : ∀ rs, t = s.appendAll rs → ∃ rs x, t = { s.appendAll rs with x := x } ∧
      (x = s.x ∨ x = s.cfg.nVis) := fun rs h => ⟨rs, s.x, h, Or.inl rfl⟩
  cases i with
  | long par => exact Or.inl (plain (longRuns s.cfg) (by simpa [exec, execLong, eq_comm] using h))
  | short par => exact Or.inl (plain (shortRuns s.cfg) (by simpa [exec, execShort, eq_comm] using h))
  | blank par => exact Or.inl (plain (blankRuns s.cfg par) (by simpa [exec, execBlank, eq_comm] using h))
  | half par => exact Or.inl (plain (halfRuns s.cfg) (by simpa [exec, execHalf, eq_comm] using h))
  | tail par => exact Or.inl (plain (tailRuns s.cfg par) (by simpa [exec, execTail, eq_comm] using h))
  | reservedOp6 w =>
    refine Or.inr ⟨[], .illegalCommand w, ?_, Or.inl ⟨rfl, w, rfl, Or.inl rfl⟩⟩
    simpa [exec, execReservedOp6, illegalWord, eq_comm] using h
  | reservedOp7 w =>
    refine Or.inr ⟨[], .illegalCommand w, ?_, Or.inl ⟨rfl, w, rfl, Or.inr rfl⟩⟩
    simpa [exec, execReservedOp7, illegalWord, eq_comm] using h
  | active row par =>
    simp only [exec] at h
    cases hs : s.source with
    | none => simp [execActive, hs] at h
    | some src =>
      rcases execActive_cases row par s src hs with ⟨-, he⟩ | ⟨e, hv, he⟩
      · rw [he] at h
        cases h
        exact Or.inl ⟨_, _, rfl, Or.inr rfl⟩
      · rw [he] at h
        cases h
        obtain ⟨x, hx, hxe⟩ := activeColumns_error hv
        exact Or.inr ⟨_, e, rfl, Or.inr ⟨row, par, src, x, rfl, rfl, by simpa using hx, hxe⟩⟩

/-- No instruction stops with a fault, and the only refusal is ACTIVE's, with no pixel source attached. -/
theorem exec_stops_only_without_source (i : Instr) (s : State) :
    (∃ t, exec i s = .next t) ∨
    (exec i s = .refused .pixelSourceNotAttached ∧ s.source = none ∧ ∃ row par, i = .active row par) := by
  cases i with
  | active row par =>
    cases hs : s.source with
    | none => exact Or.inr ⟨by simp [exec, execActive, hs], rfl, row, par, rfl⟩
    | some src =>
      rcases execActive_cases row par s src hs with ⟨-, he⟩ | ⟨e, -, he⟩
      · exact Or.inl ⟨_, he⟩
      · exact Or.inl ⟨_, he⟩
  | long par => exact Or.inl ⟨_, rfl⟩
  | short par => exact Or.inl ⟨_, rfl⟩
  | blank par => exact Or.inl ⟨_, rfl⟩
  | half par => exact Or.inl ⟨_, rfl⟩
  | tail par => exact Or.inl ⟨_, rfl⟩
  | reservedOp6 w => exact Or.inl ⟨_, rfl⟩
  | reservedOp7 w => exact Or.inl ⟨_, rfl⟩

end Sys2Proof.Machine
end

