-- ==== Sys2Proof/Laws/PerInstr.lean ====
section
/-! SUPPORT. The family TableRow, one lemma per constructor: the word of a well-formed instruction matches its own row of
spec/opcode_table.json (`match` under `mask`), and a command's operands stand in the word's fields (R71, R72, R73). -/

namespace Sys2Proof.Laws.TableRow

/-- A word of the row with this `match` and `mask`. -/
def Matches (w mtch mask : Lcw) : Prop := w &&& mask = mtch

/-- The word of a well-formed instruction is a word of its row, with the operands in their fields. -/
def Statement (i : Instr) : Prop :=
  i.wellFormed = true →
    match i with
    | .long par => Matches (encode i) 0x0000#16 0xFFF7#16 ∧ lcwEven (encode i) = par
    | .short par => Matches (encode i) 0x0001#16 0xFFF7#16 ∧ lcwEven (encode i) = par
    | .blank par => Matches (encode i) 0x0002#16 0xFFF7#16 ∧ lcwEven (encode i) = par
    | .active row par => Matches (encode i) 0x0003#16 0xC007#16 ∧ lcwEven (encode i) = par ∧
        (lcwRow (encode i)).toNat = row
    | .half par => Matches (encode i) 0x0004#16 0xFFF7#16 ∧ lcwEven (encode i) = par
    | .tail par => Matches (encode i) 0x0005#16 0xFFF7#16 ∧ lcwEven (encode i) = par
    | .reservedOp6 w => Matches (encode i) 0x0006#16 0x0007#16 ∧ encode i = w
    | .reservedOp7 w => Matches (encode i) 0x0007#16 0x0007#16 ∧ encode i = w

theorem long (par : Bool) : Statement (.long par) := by
  intro _
  cases par <;> exact ⟨rfl, rfl⟩

theorem short (par : Bool) : Statement (.short par) := by
  intro _
  cases par <;> exact ⟨rfl, rfl⟩

theorem blank (par : Bool) : Statement (.blank par) := by
  intro _
  cases par <;> exact ⟨rfl, rfl⟩

/-- Every value of ROW and EVEN stands in its field. -/
theorem active_fields (row : BitVec 10) (par : Bool) :
    lcwWord row par 3#3 &&& 0xC007#16 = 0x0003#16 ∧ lcwEven (lcwWord row par 3#3) = par ∧
      lcwRow (lcwWord row par 3#3) = row := by
  revert row par
  decide +kernel

theorem active (row : Nat) (par : Bool) : Statement (.active row par) := by
  intro h
  have hr : row < 1024 := of_decide_eq_true h
  obtain ⟨h1, h2, h3⟩ := active_fields (BitVec.ofNat 10 row) par
  refine ⟨h1, h2, ?_⟩
  show (lcwRow (lcwWord (BitVec.ofNat 10 row) par 3#3)).toNat = row
  rw [h3, BitVec.toNat_ofNat, Nat.mod_eq_of_lt hr]

theorem half (par : Bool) : Statement (.half par) := by
  intro _
  cases par <;> exact ⟨rfl, rfl⟩

theorem tail (par : Bool) : Statement (.tail par) := by
  intro _
  cases par <;> exact ⟨rfl, rfl⟩

/-- The low three bits of a word, under the mask of the reserved rows. -/
theorem and_seven (w : Lcw) : w &&& 0x0007#16 = (w.extractLsb' 0 3).setWidth 16 := by
  ext i hi
  simp only [BitVec.getElem_and, BitVec.getElem_setWidth, BitVec.getLsbD_extractLsb', Nat.zero_add]
  by_cases h : i < 3
  · interval_cases i <;> simp [BitVec.getLsbD_eq_getElem]
  · interval_cases i <;> simp_all

theorem reservedOp6 (w : Lcw) : Statement (.reservedOp6 w) := by
  intro h
  have hw : w.extractLsb' 0 3 = 6#3 := eq_of_beq h
  refine ⟨?_, rfl⟩
  show w &&& 0x0007#16 = 0x0006#16
  rw [and_seven, hw]
  rfl

theorem reservedOp7 (w : Lcw) : Statement (.reservedOp7 w) := by
  intro h
  have hw : w.extractLsb' 0 3 = 7#3 := eq_of_beq h
  refine ⟨?_, rfl⟩
  show w &&& 0x0007#16 = 0x0007#16
  rw [and_seven, hw]
  rfl

end Sys2Proof.Laws.TableRow
end

