-- ==== Sys2Proof/Laws/Schedule.lean ====
section
/-! SUPPORT. The schedule: the phase table by cases, the issued word and what it decodes to, the advance of the item index,
and the start of an item in samples. -/

namespace Sys2Proof.Machine

/-- The items there are: twelve phases with their kind, count and first row (R160). -/
theorem phaseTable_cases {ph : Nat} {p : Phase} (h : phaseTable[ph]? = some p) :
    (ph = 0 ∧ p = ⟨.long, 5, 0⟩) ∨ (ph = 1 ∧ p = ⟨.short, 5, 0⟩) ∨ (ph = 2 ∧ p = ⟨.blank, 17, 0⟩) ∨
    (ph = 3 ∧ p = ⟨.active, 288, 0⟩) ∨ (ph = 4 ∧ p = ⟨.short, 5, 0⟩) ∨ (ph = 5 ∧ p = ⟨.long, 5, 0⟩) ∨
    (ph = 6 ∧ p = ⟨.short, 5, 0⟩) ∨ (ph = 7 ∧ p = ⟨.half, 1, 0⟩) ∨ (ph = 8 ∧ p = ⟨.blank, 17, 0⟩) ∨
    (ph = 9 ∧ p = ⟨.active, 288, 1⟩) ∨ (ph = 10 ∧ p = ⟨.tail, 1, 0⟩) ∨ (ph = 11 ∧ p = ⟨.short, 5, 0⟩) := by
  have hlt : ph < 12 := by
    by_contra hc
    have : phaseTable[ph]? = none := List.getElem?_eq_none (by simpa [phaseTable] using hc)
    rw [this] at h
    cases h
  interval_cases ph <;>
    simp_all [phaseTable, itemsLong, itemsShort, itemsBlank, itemsActive, eq_comm]

theorem phaseTable_none {ph : Nat} (h : 12 ≤ ph) : phaseTable[ph]? = none :=
  List.getElem?_eq_none (by simpa [phaseTable] using h)

theorem phase_lt {ph : Nat} {p : Phase} (h : phaseTable[ph]? = some p) : ph < 12 := by
  by_contra hc
  rw [phaseTable_none (by omega)] at h
  cases h

theorem phaseCount_of_le {ph : Nat} (h : 12 ≤ ph) : phaseCount ph = 0 := by
  simp [phaseCount, phaseTable_none h]

theorem phaseCount_pos {ph : Nat} (h : ph < 12) : 0 < phaseCount ph := by
  interval_cases ph <;> decide

theorem phaseCount_le (ph : Nat) : phaseCount ph ≤ 288 := by
  by_cases h : ph < 12
  · interval_cases ph <;> decide
  · rw [phaseCount_of_le (by omega)]
    omega

/-- The item index is that of the phase's first item plus `it`. -/
theorem scheduleIndex_add (ph it : Nat) : scheduleIndex ph it = scheduleIndex ph 0 + it := rfl

/-- The next phase starts where the last one ends. -/
theorem scheduleIndex_succ {ph : Nat} (h : ph < 12) : scheduleIndex (ph + 1) 0 = scheduleIndex ph 0 + phaseCount ph := by
  interval_cases ph <;> decide

theorem scheduleIndex_lt {ph it : Nat} (h : ph < 12) (hit : it < phaseCount ph) : scheduleIndex ph it < 642 := by
  have e : scheduleIndex ph it = scheduleIndex ph 0 + it := rfl
  have b : scheduleIndex ph 0 + phaseCount ph ≤ 642 := by interval_cases ph <;> decide
  omega

/-- The sample starts of an item, and of the item after it in the phase. -/
theorem itemStart_add (c : Cfg) {ph : Nat} {p : Phase} (h : phaseTable[ph]? = some p) (it : Nat) :
    itemStart c ph (it + 1) = itemStart c ph it + itemSamples c p.kind := by
  simp only [itemStart, h]
  ring

/-- A phase ends where the next one starts. -/
theorem itemStart_phase (c : Cfg) {ph : Nat} {p : Phase} (h : phaseTable[ph]? = some p) :
    itemStart c ph p.count = itemStart c (ph + 1) 0 := by
  have hs : phaseTable.take (ph + 1) = phaseTable.take ph ++ [p] := by
    rw [List.take_add_one, h]
    rfl
  have : phaseStart c (ph + 1) = phaseStart c ph + p.count * itemSamples c p.kind := by
    simp only [phaseStart, hs, List.map_append, List.sum_append, List.map_cons, List.map_nil, List.sum_cons,
      List.sum_nil, phaseSamples, Nat.add_zero]
  simp only [itemStart, h, this, Nat.zero_mul]
  split <;> rfl

/-- The instruction of an item. -/
def phaseInstr (p : Phase) (it : Nat) (even : Bool) : Instr :=
  match p.kind with
  | .long => .long even
  | .short => .short even
  | .blank => .blank even
  | .active => .active (2 * it + p.firstRow) even
  | .half => .half even
  | .tail => .tail even

theorem decode_lcwWord (row : BitVec 10) (even : Bool) : decode (lcwWord row even 3#3) = .instr (.active row.toNat even) := by
  revert row even
  decide +kernel

theorem decode_lcwWord_plain (even : Bool) :
    decode (lcwWord 0#10 even 0#3) = .instr (.long even) ∧ decode (lcwWord 0#10 even 1#3) = .instr (.short even) ∧
    decode (lcwWord 0#10 even 2#3) = .instr (.blank even) ∧ decode (lcwWord 0#10 even 4#3) = .instr (.half even) ∧
    decode (lcwWord 0#10 even 5#3) = .instr (.tail even) := by
  revert even
  decide

/-- The word issued at an item decodes to the item's instruction (R162). -/
theorem decode_issued {ph it : Nat} {even : Bool} {p : Phase} (h : phaseTable[ph]? = some p) (hit : it < p.count) :
    issueWord ph it even = some (lcwWord (BitVec.ofNat 10 (p.row it)) even p.kind.op) ∧
    decode (lcwWord (BitVec.ofNat 10 (p.row it)) even p.kind.op) = .instr (phaseInstr p it even) := by
  refine ⟨by simp [issueWord, h, hit], ?_⟩
  obtain ⟨hlong, hshort, hblank, hhalf, htail⟩ := decode_lcwWord_plain even
  have hactive : ∀ first, first < 2 → it < 288 →
      decode (lcwWord (BitVec.ofNat 10 (2 * it + first)) even 3#3) = .instr (.active (2 * it + first) even) := by
    intro first hf hi
    rw [decode_lcwWord, BitVec.toNat_ofNat, Nat.mod_eq_of_lt (by omega)]
  have hph := phase_lt h
  interval_cases ph <;> obtain rfl := Option.some.inj h
  exacts [hlong, hshort, hblank, hactive 0 (by omega) hit, hshort, hlong, hshort, hhalf, hblank,
    hactive 1 (by omega) hit, htail, hshort]

/-- A word is issued exactly at an item. -/
theorem issueWord_isSome {ph it : Nat} {even : Bool} {w : Lcw} (h : issueWord ph it even = some w) :
    ∃ p, phaseTable[ph]? = some p ∧ it < p.count ∧ decode w = .instr (phaseInstr p it even) := by
  simp only [issueWord] at h
  split at h
  · rename_i p hp
    split at h
    · rename_i hit
      simp only [Option.some.injEq] at h
      exact ⟨p, hp, hit, h ▸ (decode_issued hp hit).2⟩
    · cases h
  · cases h

/-- The advance in numbers: the next item of the phase, or item 0 of the next phase (R163). -/
theorem advancePointer_toNat (ph : BitVec 4) (it : BitVec 9) (hph : ph.toNat < 12)
    (hit : it.toNat < phaseCount ph.toNat) :
    ((it.toNat + 1 < phaseCount ph.toNat ∧ (advancePointer ph it).1 = ph ∧
        (advancePointer ph it).2.toNat = it.toNat + 1) ∨
     (it.toNat + 1 = phaseCount ph.toNat ∧ (advancePointer ph it).1.toNat = ph.toNat + 1 ∧
        (advancePointer ph it).2 = 0#9)) := by
  have hle := phaseCount_le ph.toNat
  simp only [advancePointer]
  split
  · rename_i h
    refine Or.inl ⟨h, rfl, ?_⟩
    simp only [BitVec.toNat_add, BitVec.toNat_ofNat]
    omega
  · refine Or.inr ⟨by omega, ?_, rfl⟩
    simp only [BitVec.toNat_add, BitVec.toNat_ofNat]
    omega

theorem phaseCount_of_table {ph : Nat} {p : Phase} (h : phaseTable[ph]? = some p) : phaseCount ph = p.count := by
  simp [phaseCount, h]

/-- At an item a word is issued, and it decodes to the item's instruction. -/
theorem issueWord_of_item {ph it : Nat} (even : Bool) (h : ph < 12) (hit : it < phaseCount ph) :
    ∃ p w, phaseTable[ph]? = some p ∧ it < p.count ∧ issueWord ph it even = some w ∧
      decode w = .instr (phaseInstr p it even) := by
  have hlt : ph < phaseTable.length := h
  have hp : phaseTable[ph]? = some phaseTable[ph] := by simp
  have hit' : it < phaseTable[ph].count := by
    rw [phaseCount_of_table hp] at hit
    exact hit
  exact ⟨_, _, hp, hit', (decode_issued hp hit').1, (decode_issued hp hit').2⟩

/-- The next item starts where this one ends (R172). -/
theorem itemStart_advance (c : Cfg) (ph : BitVec 4) (it : BitVec 9) {p : Phase} (hp : phaseTable[ph.toNat]? = some p)
    (hit : it.toNat < p.count) :
    itemStart c (advancePointer ph it).1.toNat (advancePointer ph it).2.toNat =
      itemStart c ph.toNat it.toNat + itemSamples c p.kind := by
  have hpc := phaseCount_of_table hp
  rcases advancePointer_toNat ph it (phase_lt hp) (by rw [hpc]; exact hit) with ⟨-, e1, e2⟩ | ⟨h, e1, e2⟩
  · rw [e1, e2, itemStart_add c hp]
  · rw [e1, e2, ← itemStart_add c hp, show it.toNat + 1 = p.count by omega, itemStart_phase c hp]
    rfl

/-- The advance leads to an item or to END (R22, R163). -/
theorem advancePointer_legal (ph : BitVec 4) (it : BitVec 9) {p : Phase} (hp : phaseTable[ph.toNat]? = some p)
    (hit : it.toNat < p.count) :
    ((advancePointer ph it).1 ≠ 12#4 ∧ (advancePointer ph it).1.toNat < 12 ∧
      (advancePointer ph it).2.toNat < phaseCount (advancePointer ph it).1.toNat) ∨
    ((advancePointer ph it).1 = 12#4 ∧ (advancePointer ph it).2 = 0#9) := by
  have hpc := phaseCount_of_table hp
  have hl := phase_lt hp
  have ne12 : ∀ q : BitVec 4, q.toNat < 12 → q ≠ 12#4 := by
    rintro q hq rfl
    simp at hq
  rcases advancePointer_toNat ph it hl (by rw [hpc]; exact hit) with ⟨hlt, e1, e2⟩ | ⟨-, e1, e2⟩
  · left
    rw [e1, e2]
    exact ⟨ne12 _ hl, hl, by omega⟩
  · by_cases h12 : (advancePointer ph it).1 = 12#4
    · exact Or.inr ⟨h12, e2⟩
    · have hne : (advancePointer ph it).1.toNat ≠ 12 := fun h => h12 (by rw [← BitVec.toNat_inj, h]; rfl)
      have hlt : (advancePointer ph it).1.toNat < 12 := by omega
      exact Or.inl ⟨h12, hlt, by rw [e2]; exact phaseCount_pos hlt⟩

/-- The advance as one update of the state: the toggle, the pointer, and past the last item FLATTEN and DONE (R163). -/
theorem advance_eq (s : State) :
    s.advance = { (if (advancePointer s.ph s.it).1 = 12#4 then s.finish else s) with
      even := !s.even, ph := (advancePointer s.ph s.it).1, it := (advancePointer s.ph s.it).2 } := by
  simp only [State.advance]
  split <;> rfl

end Sys2Proof.Machine
end

