-- ==== Sys2Proof/Laws/Step.lean ====
section
/-! SUPPORT. The inversion of a step: which events and which item led from `s` to `t`. -/

namespace Sys2Proof.Machine

@[simp] theorem withFetchWord_cfg (s : State) (nbits w : Nat) : (s.withFetchWord nbits w).cfg = s.cfg := rfl
@[simp] theorem withFetchWord_st (s : State) (nbits w : Nat) : (s.withFetchWord nbits w).st = .run := rfl
@[simp] theorem withFetchWord_inputs (s : State) (nbits w : Nat) : (s.withFetchWord nbits w).inputs = [] := rfl
@[simp] theorem withFetchWord_driver (s : State) (nbits w : Nat) :
    (s.withFetchWord nbits w).driver = .harness 0 [BitVec.ofNat 16 (w % 2 ^ nbits)] := rfl

/-- An illegal configuration has no step (R28). -/
theorem step_illegal (s : State) (h : ¬ s.cfg.Legal) : step s = .refused .illegalConfiguration := by
  simp only [step, machineStep, if_neg h]

/-- With no event to come, a step is the core's own. -/
theorem step_quiet (s : State) (hc : s.cfg.Legal) (hi : s.inputs = []) : step s = coreStep s := by
  simp only [step, machineStep, if_pos hc, State.takeInput, hi, hostStep]

/-- With an event to come, a step takes it, and the other events stay. -/
theorem step_event (s : State) (e : HostInput) (rest : List HostInput) (hc : s.cfg.Legal) (hi : s.inputs = e :: rest) :
    step s = hostStep e { s with inputs := rest } := by
  simp only [step, machineStep, if_pos hc, State.takeInput, hi]

/-- In a step without an event the core takes its own step (R213, R220). -/
theorem step_noEvent {s s' : State} (hc : s.cfg.Legal) (h : TakesNoEvent s s') : step s = coreStep s' := by
  rcases h with ⟨hi, rfl⟩ | ⟨rest, hi, rfl⟩
  · exact step_quiet s' hc hi
  · exact step_event s .quiet rest hc hi

/-- Such a step changes nothing else before the core's own: only the events to come. -/
theorem TakesNoEvent.eq {s s' : State} (h : TakesNoEvent s s') : s' = { s with inputs := s'.inputs } := by
  rcases h with ⟨-, rfl⟩ | ⟨rest, -, rfl⟩ <;> rfl

/-- A step that answers a next state takes the core's own step or one event, from a legal configuration. -/
theorem step_next_cases {s t : State} (h : step s = .next t) :
    s.cfg.Legal ∧
    ((s.inputs = [] ∧ coreStep s = .next t) ∨
      ∃ e rest, s.inputs = e :: rest ∧ hostStep e { s with inputs := rest } = .next t) := by
  by_cases hc : s.cfg.Legal
  · refine ⟨hc, ?_⟩
    cases hi : s.inputs with
    | nil => exact Or.inl ⟨rfl, step_quiet s hc hi ▸ h⟩
    | cons e rest => exact Or.inr ⟨e, rest, rfl, step_event s e rest hc hi ▸ h⟩
  · rw [step_illegal s hc] at h
    cases h

/-- What an event that answers a next state did (R213, R230, R231, R131, R237, R238). -/
theorem hostStep_next_cases {e : HostInput} {s t : State} (h : hostStep e s = .next t) :
    (e = .quiet ∧ coreStep s = .next t) ∨
    (e = .reset ∧ t = s.resetEvent) ∨
    (e = .start ∧ s.st = .idle ∧ s.source.isSome = true ∧ t = s.startRun .sequencer) ∨
    (∃ words, e = .harness words ∧ s.st = .idle ∧ t = s.startRun (.harness 0 words)) ∨
    (∃ src, e = .attach src ∧ s.st ≠ .run ∧ t = { s with source := some src }) ∨
    ((e = .start ∨ (∃ words, e = .harness words) ∨ (∃ src, e = .attach src) ∨ ∃ c, e = .reconfigure c) ∧ t = s) := by
  cases e with
  | quiet => exact Or.inl ⟨rfl, h⟩
  | reset =>
    simp only [hostStep, Host.Outcome.next.injEq] at h
    exact Or.inr (Or.inl ⟨rfl, h.symm⟩)
  | start =>
    simp only [hostStep, startEvent] at h
    split at h
    · rename_i hst
      split at h
      · cases h
      · rename_i src hsrc
        cases h
        exact Or.inr (Or.inr (Or.inl ⟨rfl, hst, by simp [hsrc], rfl⟩))
    · cases h
      simp
  | harness words =>
    simp only [hostStep, harnessEvent] at h
    split at h
    · rename_i hst
      cases h
      exact Or.inr (Or.inr (Or.inr (Or.inl ⟨words, rfl, hst, rfl⟩)))
    · cases h
      simp
  | attach src =>
    simp only [hostStep, attachEvent] at h
    split at h
    · split at h
      · split at h
        · cases h
          simp
        · cases h
      · cases h
    · rename_i hst
      cases h
      exact Or.inr (Or.inr (Or.inr (Or.inr (Or.inl ⟨src, rfl, hst, rfl⟩))))
  | reconfigure c =>
    simp only [hostStep, reconfigureEvent] at h
    split at h
    · cases h
      simp
    · cases h

/-- What the core's own step that answers a next state did (R164, R131). -/
theorem coreStep_next_cases {s t : State} (h : coreStep s = .next t) :
    (s.st ≠ .run ∧ t = s) ∨
    (s.st = .run ∧ s.fetch = .endOfWords ∧ t = s.finish) ∨
    (s.st = .run ∧ ∃ w u, s.fetch = .word w ∧ execWord w s = .next u ∧ t = u.afterItem) := by
  simp only [coreStep] at h
  split at h
  · rename_i hst
    split at h
    · rename_i w hf
      cases he : execWord w s with
      | next u =>
        rw [he] at h
        simp only [outcomeAfterItem, Host.Outcome.next.injEq] at h
        exact Or.inr (Or.inr ⟨hst, w, u, hf, he, h.symm⟩)
      | fault f => rw [he] at h; cases h
      | refused r => rw [he] at h; cases h
    · rename_i hf
      cases h
      exact Or.inr (Or.inl ⟨hst, hf, rfl⟩)
    · cases h
  · rename_i hst
    cases h
    exact Or.inl ⟨hst, rfl⟩

/-- Everything a word can do when it answers a next state, as for an instruction: an illegal word raises (R149). -/
theorem execWord_next_cases {w : Lcw} {s t : State} (h : execWord w s = .next t) :
    (∃ rs x, t = { s.appendAll rs with x := x } ∧ (x = s.x ∨ x = s.cfg.nVis)) ∨
    (∃ rs e, t = (s.appendAll rs).raise e ∧
      ((rs = [] ∧ ∃ v, e = .illegalCommand v) ∨
        ∃ row par src x, s.source = some src ∧ x < s.cfg.nVis ∧ activeColumn s.cfg src row par x = .error e)) := by
  simp only [execWord] at h
  split at h
  · rcases exec_next_cases h with h | ⟨rs, e, ht, ⟨hrs, v, he, -⟩ | ⟨row, par, src, x, -, hx⟩⟩
    · exact Or.inl h
    · exact Or.inr ⟨rs, e, ht, Or.inl ⟨hrs, v, he⟩⟩
    · exact Or.inr ⟨rs, e, ht, Or.inr ⟨row, par, src, x, hx⟩⟩
  · rename_i why v hd
    simp only [illegalWord, Host.Outcome.next.injEq] at h
    exact Or.inr ⟨[], .illegalCommand v, by simp [h], Or.inl ⟨rfl, v, rfl⟩⟩

/-- The frame of a word: what executing it leaves, and that `st` changes only by fault entry (R130, R205). -/
theorem execWord_frame {w : Lcw} {s t : State} (h : execWord w s = .next t) :
    t.even = s.even ∧ t.ph = s.ph ∧ t.it = s.it ∧ t.driver = s.driver ∧ t.lumaOut = s.lumaOut ∧
    t.chromaOut = s.chromaOut ∧ t.source = s.source ∧ t.inputs = s.inputs ∧ t.cfg = s.cfg ∧
    ((t.st = s.st ∧ t.err = s.err) ∨ (t.st = .fault ∧ t.err.code ≠ 0#2)) := by
  rcases execWord_next_cases h with ⟨rs, x, rfl, -⟩ | ⟨rs, e, rfl, -⟩
  · simp
  · simp [record_code_ne_zero]

/-- What the FrameSequencer hands over in the hardware's own run is the issued word. -/
theorem fetch_sequencer {s : State} {w : Lcw} (hd : s.driver = .sequencer) (h : s.fetch = .word w) :
    issueWord s.ph.toNat s.it.toNat s.even = some w := by
  simp only [State.fetch, hd] at h
  split at h
  · simp_all
  · cases h

/-- A property that no event breaks and that the core's own step keeps, every step keeps. -/
theorem step_keeps (P : State → Prop) (hin : ∀ s rest, P s → P { s with inputs := rest })
    (hreset : ∀ s, P s → P s.resetEvent)
    (hstart : ∀ s d, s.st = .idle → P s → (d = .sequencer → s.source.isSome = true) →
      (d = .sequencer ∨ ∃ words, d = .harness 0 words) → P (s.startRun d))
    (hattach : ∀ s src, s.st ≠ .run → P s → P { s with source := some src })
    (hcore : ∀ s t, P s → s.cfg.Legal → coreStep s = .next t → P t) {s t : State} (hp : P s) (h : step s = .next t) :
    P t := by
  obtain ⟨hc, ⟨-, hcs⟩ | ⟨e, rest, -, hh⟩⟩ := step_next_cases h
  · exact hcore s t hp hc hcs
  · have hp' := hin s rest hp
    rcases hostStep_next_cases hh with ⟨rfl, hcs⟩ | ⟨rfl, rfl⟩ | ⟨_, hst, hs, rfl⟩ | ⟨_, _, hst, rfl⟩ |
      ⟨_, _, hn, rfl⟩ | ⟨_, rfl⟩
    · exact hcore _ t hp' hc hcs
    · exact hreset _ hp'
    · exact hstart _ _ hst hp' (fun _ => hs) (Or.inl rfl)
    · exact hstart _ _ hst hp' (by simp) (Or.inr ⟨_, rfl⟩)
    · exact hattach _ _ hn hp'
    · exact hp'

end Sys2Proof.Machine
end

