-- ==== Sys2Proof/Laws/Timing.lean ====
section
/-! SUPPORT. What the rounding primitive and the TimingCompiler can answer. -/

namespace Sys2Proof.Machine

/-- Everything `rheDiv` says of its answer `q` for `n / d`: it is within half of the quotient, and even at a tie. -/
theorem rheDiv_spec (n : Int) (d : Nat) (hd : 0 < d) :
    -(d : Int) ≤ 2 * (n - rheDiv n d * d) ∧ 2 * (n - rheDiv n d * d) ≤ d ∧
    (2 * (n - rheDiv n d * d) = d → rheDiv n d % 2 = 0) ∧
    (2 * (n - rheDiv n d * d) = -(d : Int) → rheDiv n d % 2 = 0) := by
  have hdiv := Int.mul_ediv_add_emod n d
  have h0 := Int.emod_nonneg n (show (d : Int) ≠ 0 by omega)
  have h1 := Int.emod_lt_of_pos n (show (0 : Int) < d by omega)
  simp only [rheDiv]
  generalize n / (d : Int) = q at *
  generalize n % (d : Int) = r at *
  have hc : (d : Int) * q = q * d := Int.mul_comm _ _
  have hq : (q + 1) * (d : Int) = q * d + d := by ring
  split
  · refine ⟨?_, ?_, ?_, ?_⟩ <;> intros <;> omega
  · split
    · rw [hq]
      refine ⟨?_, ?_, ?_, ?_⟩ <;> intros <;> omega
    · split
      · refine ⟨?_, ?_, ?_, ?_⟩ <;> intros <;> omega
      · rw [hq]
        refine ⟨?_, ?_, ?_, ?_⟩ <;> intros <;> omega

/-- The answer is the only integer within half of the quotient, unless the quotient is halfway. -/
theorem rheDiv_unique (n : Int) (d : Nat) (z : Int) (hd : 0 < d) (h1 : -(d : Int) < 2 * (n - z * d))
    (h2 : 2 * (n - z * d) < d) : rheDiv n d = z := by
  obtain ⟨ha, hb, -, -⟩ := rheDiv_spec n d hd
  have e : 2 * (rheDiv n d - z) * (d : Int) = 2 * (n - z * d) - 2 * (n - rheDiv n d * d) := by ring
  have hd' : (0 : Int) < d := by omega
  have u : 2 * (rheDiv n d - z) < 2 := by
    by_contra hc
    have : 2 * (d : Int) ≤ 2 * (rheDiv n d - z) * d := by nlinarith
    omega
  have l : -2 < 2 * (rheDiv n d - z) := by
    by_contra hc
    have : 2 * (rheDiv n d - z) * (d : Int) ≤ -2 * d := by nlinarith
    omega
  omega

theorem rat_num_eq (q : Rat) : (q.num : Rat) = q * q.den := (Rat.mul_den_eq_num q).symm

/-- `rhe` in the rationals: within one half, and even at a tie (R12). -/
theorem rhe_spec (q : Rat) :
    -(1 / 2) ≤ q - rhe q ∧ q - rhe q ≤ 1 / 2 ∧
    (q - rhe q = 1 / 2 → rhe q % 2 = 0) ∧ (q - rhe q = -(1 / 2) → rhe q % 2 = 0) := by
  have hpos : (0 : Rat) < q.den := by exact_mod_cast q.den_pos
  obtain ⟨h1, h2, h3, h4⟩ := rheDiv_spec q.num q.den q.den_pos
  have key : 2 * ((q.num : Rat) - rheDiv q.num q.den * q.den) = 2 * (q - rhe q) * q.den := by
    rw [rat_num_eq, rhe]
    ring
  refine ⟨?_, ?_, ?_, ?_⟩
  · have : -(q.den : Rat) ≤ 2 * ((q.num : Rat) - rheDiv q.num q.den * q.den) := by exact_mod_cast h1
    rw [key] at this
    nlinarith
  · have : 2 * ((q.num : Rat) - rheDiv q.num q.den * q.den) ≤ q.den := by exact_mod_cast h2
    rw [key] at this
    nlinarith
  · intro h
    apply h3
    have : 2 * ((q.num : Rat) - rheDiv q.num q.den * q.den) = q.den := by
      rw [key, h]
      ring
    exact_mod_cast this
  · intro h
    apply h4
    have : 2 * ((q.num : Rat) - rheDiv q.num q.den * q.den) = -q.den := by
      rw [key, h]
      ring
    exact_mod_cast this

/-- Strictly within one half, the answer is the integer there. -/
theorem rhe_unique (q : Rat) (z : Int) (h1 : -(1 / 2) < q - z) (h2 : q - z < 1 / 2) : rhe q = z := by
  obtain ⟨ha, hb, -, -⟩ := rhe_spec q
  have u : (rhe q : Rat) - z < 1 := by linarith
  have l : (-1 : Rat) < (rhe q : Rat) - z := by linarith
  have u' : rhe q - z < 1 := by exact_mod_cast u
  have l' : -1 < rhe q - z := by exact_mod_cast l
  omega

@[simp] theorem rhe_intCast (z : Int) : rhe (z : Rat) = z := rhe_unique _ _ (by norm_num) (by norm_num)

/-- `rhe` never decreases. -/
theorem rhe_mono {p q : Rat} (h : p ≤ q) : rhe p ≤ rhe q := by
  by_contra hc
  obtain ⟨hp1, hp2, hp3, hp4⟩ := rhe_spec p
  obtain ⟨hq1, hq2, hq3, hq4⟩ := rhe_spec q
  have hlt : rhe q + 1 ≤ rhe p := by omega
  have hlt' : (rhe q : Rat) + 1 ≤ rhe p := by exact_mod_cast hlt
  have e1 : q - rhe q = 1 / 2 := by linarith
  have e2 : p - rhe p = -(1 / 2) := by linarith
  have e3 : (rhe p : Rat) = rhe q + 1 := by linarith
  have e4 : rhe p = rhe q + 1 := by exact_mod_cast e3
  have := hq3 e1
  have := hp4 e2
  omega

theorem rhe_nonneg {q : Rat} (h : 0 ≤ q) : 0 ≤ rhe q := by
  have := rhe_mono h
  simpa using (rhe_intCast 0) ▸ this

/-- Every duration the core converts is not negative at a legal configuration (R100), so a count is its `rhe`. -/
theorem samples_eq_rhe (c : Cfg) (d : Rat) (hfs : 0 < c.fs) (hd : 0 ≤ d) : (samples c d : Int) = rhe (d * c.fs) := by
  have : 0 ≤ rhe (d * c.fs) := rhe_nonneg (mul_nonneg hd hfs.le)
  simp only [samples]
  omega

theorem columnMap_eq_rhe (c : Cfg) (x : Nat) : (columnMap c x : Int) = rhe ((x : Rat) * c.wRef / c.nVis) := by
  have : 0 ≤ rhe ((x : Rat) * c.wRef / c.nVis) := rhe_nonneg (by positivity)
  simp only [columnMap]
  omega

end Sys2Proof.Machine
end

