-- ==== Sys2Proof/Tests/Slice0.lean ====
section
/-! SUPPORT. The model's own tests. Every expected value is from spec/95_test_vectors.md (its vector is named), from the
encoding tables of spec/30_encoding.md, or worked out by hand from the rule named. The theorems `witness_<Name>` show, for
each statement Obligations.<Name> with hypotheses, states and operands that meet them, clause by clause, at boundary
values. -/

open Sys2Proof Sys2Proof.Machine

namespace Sys2Proof.Tests

section

set_option Elab.async false

/-! ## Well-formedness: one ill-formed term for each check, refused -/

theorem test_row_too_large : (Instr.active 1024 true).wellFormed = false := by decide
theorem test_row_largest : (Instr.active 1023 true).wellFormed = true := by decide
theorem test_reserved6_other_op : (Instr.reservedOp6 0x0007#16).wellFormed = false := by decide
theorem test_reserved7_other_op : (Instr.reservedOp7 0x0006#16).wellFormed = false := by decide

/-! ## Decoding, words written out from the layout R71: RSV, ROW, EVEN, OP (T-LCW-1 to T-LCW-12) -/

theorem test_decode_long : decode 0b00_0000000000_1_000#16 = .instr (.long true) := by decide
theorem test_decode_short : decode 0b00_0000000000_0_001#16 = .instr (.short false) := by decide
theorem test_decode_blank : decode 0b00_0000000000_1_010#16 = .instr (.blank true) := by decide
theorem test_decode_half : decode 0b00_0000000000_0_100#16 = .instr (.half false) := by decide
theorem test_decode_tail : decode 0b00_0000000000_1_101#16 = .instr (.tail true) := by decide
theorem test_decode_active : decode 0b00_1000111110_1_011#16 = .instr (.active 574 true) := by decide
theorem test_decode_active_largest : decode 0b00_1111111111_1_011#16 = .instr (.active 1023 true) := by decide
theorem test_decode_reserved6 : decode 0b00_0000000000_1_110#16 = .instr (.reservedOp6 0x000E#16) := by decide
theorem test_decode_reserved7 : decode 0xFFFF#16 = .instr (.reservedOp7 0xFFFF#16) := by decide

/-- T-LCW-14: RSV is not 0. -/
theorem test_decode_rsv : decode 0x4008#16 = .illegal .reservedBits 0x4008#16 ∧
    decode 0x8000#16 = .illegal .reservedBits 0x8000#16 ∧ decode 0xC00B#16 = .illegal .reservedBits 0xC00B#16 := by
  decide
/-- T-LCW-15: ROW is not 0 on LONG, LONG and BLANK. -/
theorem test_decode_row : decode 0x0018#16 = .illegal .rowOnNonActive 0x0018#16 ∧
    decode 0x0010#16 = .illegal .rowOnNonActive 0x0010#16 ∧ decode 0x001A#16 = .illegal .rowOnNonActive 0x001A#16 := by
  decide
/-- T-LCW-13 to T-LCW-16: all of them illegal words; T-LCW-12 is legal. -/
theorem test_illegal_words : [0x0006#16, 0x000E#16, 0x0007#16, 0x000F#16, 0x4008#16, 0x8000#16, 0xC00B#16, 0x0018#16,
    0x0010#16, 0x001A#16, 0xFFFF#16].all lcwIllegal = true ∧ lcwIllegal 0x3FFB#16 = false := by
  decide
/-- The encoding direction: ACTIVE 100, odd is 0x0643 and ACTIVE 101, even is 0x065B. -/
theorem test_encode_active : encode (.active 100 false) = 0x0643#16 ∧ encode (.active 101 true) = 0x065B#16 := by
  decide
theorem test_table_word : decodeTableWord 16 0x23F3 = some (.active 575 false) ∧ decodeTableWord 16 0x4000 = none := by
  decide

/-! ## The assembler (R81, R82) -/

theorem test_assemble_active :
    assemble ['a', 'c', 't', 'i', 'v', 'e', ' ', '5', '7', '5', ',', ' ', 'O', 'D', 'D', ' ', ';', 'x'] =
      some [0x23F3#16] := by decide
theorem test_assemble_word : assemble ['.', 'w', 'o', 'r', 'd', ' ', '0', 'x', '4', '0', '0', '8'] =
    some [0x4008#16] := by decide
theorem test_assemble_rep : assemble ['R', 'E', 'P', ' ', '2', ',', ' ', 'H', 'A', 'L', 'F', ' ', 'e', 'v', 'e', 'n'] =
    some [0x000C#16, 0x000C#16] := by decide
theorem test_assemble_row_too_large :
    assemble ['A', 'C', 'T', 'I', 'V', 'E', ' ', '1', '0', '2', '4', ',', ' ', 'o', 'd', 'd'] = none := by decide
/-- T-L1-3: items 27 and 28 of FIELD1, 330 and 348 of the frame. -/
theorem test_frame_words : (field1Instrs.map encode)[27]? = some 0x0003#16 ∧
    (field1Instrs.map encode)[28]? = some 0x002B#16 ∧ (field2Instrs.map encode)[330 - 320]? = some 0x000C#16 ∧
    (field2Instrs.map encode)[348 - 320]? = some 0x001B#16 := by decide +kernel

/-! ## Rounding, counts and the column map -/

/-- R12: the rule's examples of `rhe`. -/
theorem test_rhe : rhe (5 / 2) = 2 ∧ rhe (7 / 2) = 4 ∧ rhe (-1 / 2) = 0 ∧ rhe (6345 / 100) = 63 := by decide +kernel
/-- T-TC-17 to T-TC-20: the ties. -/
theorem test_samples_ties : samples Cfg.ref (1 / 2 / 13500000) = 0 ∧ samples Cfg.ref (3 / 2 / 13500000) = 2 ∧
    samples Cfg.ref (5 / 2 / 13500000) = 2 ∧ samples Cfg.ref (7 / 2 / 13500000) = 4 := by decide +kernel
/-- T-TC-5, T-TC-15, T-TC-6: each count is of its own duration. -/
theorem test_samples_remainders : nBprem Cfg.ref = 34 ∧ nTailfill Cfg.ref = 292 ∧
    samples Cfg.ref Cfg.ref.tBackPorch = 77 := by decide +kernel
/-- T-LB-12: the counts at 27 MHz. -/
theorem test_counts_27MHz : let c := { Cfg.ref with fs := 27000000 }
    (nPix c, nHsync c, nBdelay c, nBurst c, nBprem c, nFront c) = (2, 127, 24, 61, 69, 43) := by decide +kernel
/-- T-L1-10. -/
theorem test_column_map : columnMap Cfg.ref 19 = 19 ∧ columnMap Cfg.ref 20 = 21 ∧ columnMap Cfg.ref 683 = 701 ∧
    columnMap Cfg.ref 701 = 719 := by decide +kernel

/-! ## ChromaEncoder and binary32 -/

/-- T-CE-10: exact values. -/
theorem test_encode_pixel : chromaEncode Cfg.ref ⟨12, 34, 56⟩ true =
    .sample (97451 / 255000) (6413 / 127500) (-1573 / 25500) := by decide +kernel
/-- T-CE-1, odd: V is negated and U is not. -/
theorem test_encode_odd : chromaEncode Cfg.ref ⟨255, 0, 0⟩ false = .sample (5093 / 10000) (-147 / 1000) (-615 / 1000) := by
  decide +kernel
/-- T-CE-16: the levels of another configuration. -/
theorem test_encode_levels : chromaEncode { Cfg.ref with levelBlack := 1 / 4, levelWhite := 3 / 4 } ⟨255, 0, 0⟩ true =
    .sample (3995 / 10000) (-147 / 1000) (615 / 1000) := by decide +kernel
/-- T-CE-13 to T-CE-15: the first bad component. -/
theorem test_encode_malformed : chromaEncode Cfg.ref ⟨256, 0, 0⟩ true = .malformed 0#2 256 ∧
    chromaEncode Cfg.ref ⟨0, 300, -5⟩ true = .malformed 1#2 300 ∧
    chromaEncode Cfg.ref ⟨-3, 400, 0⟩ false = .malformed 0#2 (-3) := by decide +kernel
/-- T-CE-1, T-CE-2, T-CE-8, T-CE-10, T-CE-11: patterns, one of them negative. -/
theorem test_f32 : f32Rat (5093 / 10000) = 0x3F02617C#32 ∧ f32Rat (-289 / 1000) = 0xBE93F7CF#32 ∧
    f32Rat (3 / 10) = 0x3E99999A#32 ∧ f32Rat (-1573 / 25500) = 0xBD7CAABF#32 ∧ f32Rat (41 / 17000) = 0x3B1E0EB3#32 ∧
    f32Rat 1 = 0x3F800000#32 ∧ f32Rat 0 = 0x00000000#32 := by decide +kernel
/-- IEEE-754: the smallest subnormal, its half (a tie, to even), and a tie at 2^24 + 1 (to even). -/
theorem test_f32_ties : f32Rat (1 / 2 ^ 149) = 0x00000001#32 ∧ f32Rat (1 / 2 ^ 150) = 0x00000000#32 ∧
    f32Rat 16777217 = 0x4B800000#32 ∧ f32Rat 16777219 = 0x4B800002#32 := by decide +kernel
/-- The value read back from a pattern: 1, -2, the smallest subnormal, and an infinity. -/
theorem test_f32Value : f32Value 0x3F800000#32 = some 1 ∧ f32Value 0xC0000000#32 = some (-2) ∧
    f32Value 0x00000001#32 = some (1 / 2 ^ 149) ∧ f32Value 0x7F800000#32 = none := by decide +kernel
/-- R135: `(2^23 + 0x4EE116) * 2^(124 - 150)` is the neighbour of sqrt(2)/7: between the squares of the two midpoints. -/
theorem test_burst_pattern : (((2 * 13558038 - 1 : Rat) / 2 ^ 27) ^ 2 < 2 / 49) ∧
    ((2 : Rat) / 49 < ((2 * 13558038 + 1 : Rat) / 2 ^ 27) ^ 2) ∧
    f32Value (f32Chroma .plusK) = some (13558038 / 2 ^ 26) := by decide +kernel

/-! ## Small states -/

/-- A small legal configuration: two visible columns, W_REF / N_VIS exactly 3/2. -/
def tiny : Cfg := { Cfg.ref with nVis := 2, wRef := 3 }

/-- A well-coloured image, just large enough for it. -/
def img : PixelSource := PixelSource.uniform 3 576 ⟨12, 34, 56⟩

/-- The same image with a malformed pixel where row 575 is read at visible column 1. -/
def imgBad : PixelSource := img.setPixel 2 575 ⟨256, -1, 0⟩

/-- A state in RUN, with the word to come handed over by a test driver. -/
def ready (c : Cfg) (src : PixelSource) (words : List Lcw) : State := startedHarness c src words

/-- A state in RUN at `(ph, it)`, on the image of 720 by 576 black. -/
def atItem (ph : BitVec 4) (it : BitVec 9) (even : Bool) : State :=
  { startedRun tiny img with ph := ph, it := it, even := even }

/-- A configuration whose every count is 0. -/
def still : Cfg := { tiny with fs := 1 }

theorem tiny_legal : tiny.Legal := by decide +kernel
theorem still_legal : still.Legal := by decide +kernel
theorem ref_legal : Cfg.ref.Legal := by decide +kernel

/-- What a test looks at of an outcome. -/
def view (o : Host.Outcome State Fault Refusal) {α : Type} (f : State → α) : Option α :=
  match o with
  | .next t => some (f t)
  | _ => none

/-! ## One step of each instruction, at REF, expected from T-LB, T-ERR and T-P -/

/-- T-LB-1. -/
theorem test_long : view (step (ready Cfg.ref img [0x0008#16])) (fun t => (t.lbuf, t.cbuf.map ChromaRun.u, t.nOut)) =
    some ([⟨.syncLong, 0, 369⟩, ⟨.syncLong, 3 / 10, 63⟩], [.rat 0, .rat 0], 432) := by decide +kernel
/-- T-LB-3. -/
theorem test_short : view (step (ready Cfg.ref img [0x0001#16])) (fun t => (t.lbuf, t.nOut)) =
    some ([⟨.syncShort, 0, 32⟩, ⟨.syncShort, 3 / 10, 400⟩], 432) := by decide +kernel
/-- T-LB-4 and T-LB-5: the runs, and the burst at either parity. -/
theorem test_blank : view (step (ready Cfg.ref img [0x000A#16])) State.lbuf =
      some [⟨.syncH, 0, 63⟩, ⟨.backPorch, 3 / 10, 12⟩, ⟨.burst, 3 / 10, 30⟩, ⟨.backPorch, 3 / 10, 34⟩,
        ⟨.blankFill, 3 / 10, 702⟩, ⟨.frontPorch, 3 / 10, 22⟩] ∧
    view (step (ready Cfg.ref img [0x000A#16])) (fun t => t.cbuf[2]?) = some (some ⟨.burst, .minusK, .plusK, 30⟩) ∧
    view (step (ready Cfg.ref img [0x0002#16])) (fun t => t.cbuf[2]?) = some (some ⟨.burst, .minusK, .minusK, 30⟩) := by
  decide +kernel
/-- T-LB-6. -/
theorem test_half : view (step (ready Cfg.ref img [0x000C#16])) (fun t => (t.lbuf, t.cbuf, t.nOut)) =
    some ([⟨.blankFill, 3 / 10, 432⟩], [⟨.blankFill, .rat 0, .rat 0, 432⟩], 432) := by decide +kernel
/-- T-LB-7. -/
theorem test_tail : view (step (ready Cfg.ref img [0x000D#16])) (fun t => (t.lbuf.map LumaRun.count, t.cbuf[2]?, t.nOut)) =
    some ([63, 12, 30, 34, 292], some ⟨.burst, .minusK, .plusK, 30⟩, 431) := by decide +kernel
/-- T-LB-9: the line's runs and samples, and one pixel's run. -/
theorem test_active : view (step (ready Cfg.ref (PixelSource.uniform 720 576 ⟨12, 34, 56⟩) [0x001B#16]))
      (fun t => (t.lbuf.length, t.nOut, t.lbuf[705]?, t.cbuf[705]?)) =
    some (707, 863, some ⟨.activeVideo, 97451 / 255000, 1⟩,
      some ⟨.activeVideo, .rat (6413 / 127500), .rat (-1573 / 25500), 1⟩) := by decide +kernel
/-- T-ERR-1: the first column outside a 1 by 1 image; one pixel run was appended. -/
theorem test_active_bounds : view (step (ready Cfg.ref (PixelSource.uniform 1 1 ⟨0, 0, 0⟩) [0x0003#16]))
      (fun t => (t.st, t.err, t.lbuf.length, t.nOut)) =
    some (.fault, ⟨1#2, 0#10, 1, 1, 0, 0#2, 0, 0#16⟩, 5, 140) := by decide +kernel
/-- T-ERR-8: IllegalCommand, and nothing is appended. -/
theorem test_reserved6 : view (step (ready Cfg.ref img [0x0006#16])) (fun t => (t.st, t.err, t.nOut)) =
    some (.fault, ⟨3#2, 0#10, 0, 0, 0, 0#2, 0, 0x0006#16⟩, 0) := by decide +kernel
theorem test_reserved7 : view (step (ready Cfg.ref img [0x000F#16])) (fun t => (t.st, t.err, t.lumaOut)) =
    some (.fault, ⟨3#2, 0#10, 0, 0, 0, 0#2, 0, 0x000F#16⟩, []) := by decide +kernel
/-- The word placed by `withFetchWord` is the one that the next step runs. -/
theorem test_withFetchWord : view (step (State.reset.withFetchWord 16 0x0005)) State.nOut = some 431 := by
  decide +kernel
/-- R150, T-LB-11: a run of count 0 is appended. -/
theorem test_zero_count : view (step (ready { Cfg.ref with tBurstDelay := 0 } img [0x000A#16]))
    (fun t => (t.lbuf.length, t.lbuf[1]?)) = some (6, some ⟨.backPorch, 3 / 10, 0⟩) := by decide +kernel

/-! ## The FrameSequencer and the SampleEmitter -/

/-- T-SEQ-6: the last item ends at `(12, 0)`, DONE, parity even. -/
theorem test_last_item : view (step (atItem 11#4 4#9 false)) (fun t => (t.st, t.ph, t.it, t.even)) =
    some (.done, 12#4, 0#9, true) := by decide +kernel
/-- R163: the last item of a phase leads to item 0 of the next, with the parity toggled. -/
theorem test_next_phase : view (step (atItem 2#4 16#9 true)) (fun t => (t.st, t.ph, t.it, t.even)) =
    some (.run, 3#4, 0#9, false) := by decide +kernel
/-- T-SE-1: a burst run. -/
theorem test_flatten_burst : flattenLuma [⟨.burst, 3 / 10, 2⟩] = [0x3E99999A#32, 0x3E99999A#32] ∧
    flattenChroma [⟨.burst, .minusK, .plusK, 1⟩] = [(0xBE4EE116#32, 0x3E4EE116#32)] := by decide +kernel
/-- T-SE-3 and T-SE-4. -/
theorem test_serialize : serializeLuma .little [0x3E99999A#32] = [0x9A#8, 0x99#8, 0x99#8, 0x3E#8] ∧
    serializeLuma .big [0x3E99999A#32] = [0x3E#8, 0x99#8, 0x99#8, 0x9A#8] ∧
    serializeChroma .little [(0xBE4EE116#32, 0x3E4EE116#32)] =
      [0x16#8, 0xE1#8, 0x4E#8, 0xBE#8, 0x16#8, 0xE1#8, 0x4E#8, 0x3E#8] ∧
    serializeChroma .big [(0xBE4EE116#32, 0x3E4EE116#32)] =
      [0xBE#8, 0x4E#8, 0xE1#8, 0x16#8, 0x3E#8, 0x4E#8, 0xE1#8, 0x16#8] := by decide
/-- T-SEQ-5: the sample index of a pixel. -/
theorem test_pixel_index : itemStart Cfg.ref 3 50 + leadSamples Cfg.ref = 62280 ∧
    itemStart Cfg.ref 9 287 + leadSamples Cfg.ref + 701 = 537639 := by decide +kernel

/-! ## Witnesses: the hypotheses of the statements can be met -/

theorem pixRead_img (x ys : Nat) (hy : ys < 576) (hx : x < 2) :
    pixRead img (columnMap tiny x) ys = some ⟨12, 34, 56⟩ := by
  have hc : columnMap tiny x < 3 := by
    interval_cases x <;> decide +kernel
  have hn : ¬ ((PixelSource.uniform 3 576 ⟨12, 34, 56⟩).width ≤ columnMap tiny x ∨
      (PixelSource.uniform 3 576 ⟨12, 34, 56⟩).height ≤ ys) := by
    simp only [PixelSource.uniform]
    omega
  rw [img, pixRead, if_neg hn]
  rfl

/-- Every read of a frame of `tiny` on `img` is good. -/
theorem img_good : ∀ ys x, ys < 576 → x < tiny.nVis → ColumnGood img tiny ys x :=
  fun ys x hy hx => ⟨⟨12, 34, 56⟩, pixRead_img x ys hy hx, by decide⟩

/-- On `imgBad`, row 575 is good at column 0 and not at column 1. -/
theorem imgBad_first : ColumnGood imgBad tiny 575 0 ∧ ¬ ColumnGood imgBad tiny 575 1 := by
  have h0 : pixRead imgBad (columnMap tiny 0) 575 = some ⟨12, 34, 56⟩ := by decide +kernel
  have h1 : pixRead imgBad (columnMap tiny 1) 575 = some ⟨256, -1, 0⟩ := by decide +kernel
  refine ⟨⟨_, h0, by decide⟩, ?_⟩
  rintro ⟨p, hp, hr⟩
  rw [h1] at hp
  cases hp
  exact absurd hr (by decide)

/-- Row 576 is outside `img`, whichever the column. -/
theorem img_row_outside : ¬ ColumnGood img tiny 576 0 := by
  have h : pixRead img (columnMap tiny 0) 576 = none := by decide +kernel
  rintro ⟨p, hp, -⟩
  rw [h] at hp
  cases hp

theorem columnMap_tiny (x : Nat) (hx : x < tiny.nVis) : columnMap tiny x < 3 := by
  have hx : x < 2 := hx
  interval_cases x <;> decide +kernel

/-- An image with one listed pixel reads as `img` everywhere else. -/
theorem pixRead_off_cell (a : Nat) (v : Rgb) (ys x : Nat) (hy : ys < 576) (hx : x < tiny.nVis)
    (ha : ys * 3 + columnMap tiny x ≠ a) :
    pixRead ⟨3, 576, ⟨12, 34, 56⟩, [(a, v)]⟩ (columnMap tiny x) ys = some ⟨12, 34, 56⟩ := by
  have hc := columnMap_tiny x hx
  rw [pixRead, if_neg (by simp only; omega), PixelSource.pixel]
  simp only [memoryRead]
  rw [if_neg ha]

theorem imgBad_cells : imgBad = ⟨3, 576, ⟨12, 34, 56⟩, [(1727, ⟨256, -1, 0⟩)]⟩ := by decide +kernel

/-- Before row 575 every read of `imgBad` is good. -/
theorem imgBad_good (ys x : Nat) (hy : ys < 575) (hx : x < tiny.nVis) : ColumnGood imgBad tiny ys x := by
  have hc := columnMap_tiny x hx
  rw [imgBad_cells]
  exact ⟨_, pixRead_off_cell 1727 _ ys x (by omega) hx (by omega), by decide⟩

/-- A malformed pixel where row 574, the last of Field 1, is read at visible column 1. -/
def imgBadField1 : PixelSource := img.setPixel 2 574 ⟨0, 0, 256⟩

theorem imgBadField1_cells : imgBadField1 = ⟨3, 576, ⟨12, 34, 56⟩, [(1724, ⟨0, 0, 256⟩)]⟩ := by decide +kernel

theorem imgBadField1_good (ys x : Nat) (hy : ys < 574) (hx : x < tiny.nVis) : ColumnGood imgBadField1 tiny ys x := by
  have hc := columnMap_tiny x hx
  rw [imgBadField1_cells]
  exact ⟨_, pixRead_off_cell 1724 _ ys x (by omega) hx (by omega), by decide⟩

theorem imgBadField1_first : ColumnGood imgBadField1 tiny 574 0 ∧ ¬ ColumnGood imgBadField1 tiny 574 1 := by
  have h0 : pixRead imgBadField1 (columnMap tiny 0) 574 = some ⟨12, 34, 56⟩ := by decide +kernel
  have h1 : pixRead imgBadField1 (columnMap tiny 1) 574 = some ⟨0, 0, 256⟩ := by decide +kernel
  refine ⟨⟨_, h0, by decide⟩, ?_⟩
  rintro ⟨p, hp, hr⟩
  rw [h1] at hp
  cases hp
  exact absurd hr (by decide)

/-- A step without an event: none to come, or `quiet` first. -/
theorem noEvent_nil (s : State) (h : s.inputs = []) : TakesNoEvent s s := Or.inl ⟨h, rfl⟩
theorem noEvent_quiet (s : State) : TakesNoEvent { s with inputs := [.quiet, .start] } { s with inputs := [.start] } :=
  Or.inr ⟨[.start], rfl, rfl⟩

theorem witness_CanonicalWordsDecode : issueWord 9 287 false = some 0x23F3#16 ∧ issueWord 10 0 true = some 0x000D#16 ∧
    issueWord 3 287 true = some 0x23EB#16 := by decide
theorem witness_DecodeOfEncodeIsTheInstruction : (Instr.active 1023 false).wellFormed = true ∧
    (Instr.reservedOp6 0xFFFE#16).wellFormed = true ∧ (Instr.reservedOp7 0x0007#16).wellFormed = true := by decide
theorem witness_EncodeOfDecodeIsTheWord : decode 0x3FFB#16 = .instr (.active 1023 true) ∧
    decode 0xFFF6#16 = .instr (.reservedOp6 0xFFF6#16) := by decide
/-- A word for each of the six cases, at a boundary of its fields. -/
theorem witness_DecodeFollowsTheProcedure :
    (0xFFFE % 8 = 6) ∧ (0xFFFF % 8 = 7) ∧ (0x4005 % 8 < 6 ∧ 0x4005 / 16384 ≠ 0) ∧
    (0x3FFB % 8 = 3 ∧ 0x3FFB / 16384 = 0) ∧
    (0x0010 % 8 < 6 ∧ 0x0010 % 8 ≠ 3 ∧ 0x0010 / 16384 = 0 ∧ 0x0010 / 16 % 1024 ≠ 0) ∧
    (0x000D % 8 < 6 ∧ 0x000D % 8 ≠ 3 ∧ 0x000D / 16384 = 0 ∧ 0x000D / 16 % 1024 = 0) := by decide
theorem witness_CanonicalTextAssembles : (Instr.active 1023 false).wellFormed = true ∧
    (Instr.reservedOp7 0xFFFF#16).wellFormed = true := by decide
theorem witness_FrameExpandsToTheSchedule : 11 < 12 ∧ 4 < phaseCount 11 := by decide
theorem witness_RheIsNearestTiesToEven : |(5 / 2 : Rat) - rhe (5 / 2)| = 1 / 2 ∧ |(-1 / 2 : Rat) - rhe (-1 / 2)| = 1 / 2 := by
  have h1 : rhe (5 / 2) = 2 := by decide +kernel
  have h2 : rhe (-1 / 2) = 0 := by decide +kernel
  rw [h1, h2]
  norm_num [abs_of_nonneg, abs_of_nonpos]
theorem witness_SamplesRoundsTheProduct : Cfg.ref.Legal ∧ (0 : Rat) ≤ 1 / 27000000 ∧
    (1 / 27000000 : Rat) * Cfg.ref.fs = (0 : Nat) + 1 / 2 ∧ (3 / 27000000 : Rat) * Cfg.ref.fs = (1 : Nat) + 1 / 2 ∧
    (1 / 27000001 : Rat) * Cfg.ref.fs < 1 / 2 :=
  ⟨ref_legal, by decide +kernel, by decide +kernel, by decide +kernel, by decide +kernel⟩
/-- Both sides of "exactly when": W_REF / N_VIS = 3/2 with W_REF - 1 even, and with W_REF - 1 odd. -/
theorem witness_ColumnMapProperties : tiny.Legal ∧ 1 < tiny.nVis ∧ xsMax tiny = tiny.wRef - 1 ∧
    { Cfg.ref with nVis := 4, wRef := 6 }.Legal ∧ xsMax { Cfg.ref with nVis := 4, wRef := 6 } = 4 ∧
    (∀ x < 702, columnMap Cfg.ref x ≠ 700) :=
  ⟨tiny_legal, by decide, by decide +kernel, by decide +kernel, by decide +kernel, by decide +kernel⟩
theorem witness_PixReadIsBoundsChecked : img.width ≤ 3 ∧ img.height ≤ 576 ∧ 2 < img.width ∧ 575 < img.height ∧
    img.wf = true := by decide
theorem witness_EncodeOfWellFormedPixel : (⟨0, 255, 0⟩ : Rgb).inRange := by decide
/-- Each of the three cases, and each side of the range. -/
theorem witness_ComponentCheckReportsTheFirst : chromaEncode Cfg.ref ⟨-1, 256, 0⟩ true = .malformed 0#2 (-1) ∧
    chromaEncode Cfg.ref ⟨255, 256, -1⟩ true = .malformed 1#2 256 ∧
    chromaEncode Cfg.ref ⟨0, 255, -1⟩ true = .malformed 2#2 (-1) := by decide +kernel
theorem witness_EncodeRanges : Cfg.ref.Legal ∧ (⟨255, 0, 0⟩ : Rgb).inRange ∧
    chromaEncode Cfg.ref ⟨255, 0, 0⟩ true = .sample (5093 / 10000) (-147 / 1000) (615 / 1000) :=
  ⟨ref_legal, by decide, by decide +kernel⟩
theorem witness_GreyAxisIsExact : (0 : Int) ≤ 255 ∧ (255 : Int) ≤ 255 := by decide
/-- The corner of R140 and R141: a pulse of the whole half line is legal. -/
theorem witness_LongAppendsItsRuns : { Cfg.ref with tLongPulse := Cfg.ref.tLine / 2 }.Legal := by decide +kernel
theorem witness_ShortAppendsItsRuns : { Cfg.ref with tShortPulse := Cfg.ref.tLine / 2 }.Legal := by decide +kernel
theorem witness_ActiveAppendsItsLine : (startedRun tiny img).source = some img ∧
    ∀ x < (startedRun tiny img).cfg.nVis, ColumnGood img (startedRun tiny img).cfg 575 x :=
  ⟨rfl, fun x hx => img_good 575 x (by decide) hx⟩
/-- A malformed pixel at the last column, a row outside the image at column 0, and no source. -/
theorem witness_ActiveStopsAtTheFirstOffence :
    ((startedRun tiny imgBad).source = some imgBad ∧ 1 < (startedRun tiny imgBad).cfg.nVis ∧
      (∀ x < 1, ColumnGood imgBad (startedRun tiny imgBad).cfg 575 x) ∧
      ¬ ColumnGood imgBad (startedRun tiny imgBad).cfg 575 1 ∧ (startedRun tiny imgBad).itemIndex < 1024 ∧
      pixRead imgBad (columnMap tiny 1) 575 = some ⟨256, -1, 0⟩) ∧
    (0 < (startedRun tiny img).cfg.nVis ∧ ¬ ColumnGood img (startedRun tiny img).cfg 576 0 ∧
      pixRead img (columnMap tiny 0) 576 = none) ∧ State.reset.source = none := by
  refine ⟨⟨rfl, by decide, ?_, imgBad_first.2, by decide, by decide +kernel⟩, ⟨by decide, img_row_outside,
    by decide +kernel⟩, rfl⟩
  intro x hx
  obtain rfl : x = 0 := by omega
  exact imgBad_first.1
theorem witness_IllegalWordRaisesIllegalCommand : lcwIllegal 0x4008#16 = true ∧ lcwIllegal 0x0010#16 = true ∧
    lcwIllegal 0xFFFF#16 = true ∧ (Instr.reservedOp6 0x0006#16).wellFormed = true ∧
    (Instr.reservedOp7 0xFFFF#16).wellFormed = true ∧ State.reset.itemIndex < 1024 ∧
    { State.reset with driver := .harness 1023 [] }.itemIndex < 1024 := by decide
theorem witness_LineBuilderFrame : (view (exec (.active 575 true) (startedRun tiny img)) State.source) =
      some (some img) ∧ view (exec (.reservedOp7 0xFFFF#16) (startedRun tiny img)) State.st = some .fault := by
  decide +kernel
theorem witness_ItemSampleCounts : (startedRun tiny img).st ≠ .fault ∧
    view (exec (.active 575 true) (startedRun tiny img)) State.st = some .run ∧
    view (exec (.tail true) (startedRun tiny img)) State.st = some .run := by decide +kernel
theorem witness_OnlyActiveVideoDependsOnThePixels :
    view (exec (.active 575 true) (startedRun tiny img)) State.st = some .run ∧
    view (exec (.active 575 true) { startedRun tiny img with source := some (PixelSource.uniform 3 576 ⟨255, 0, 0⟩) })
      State.st = some .run := by decide +kernel
theorem witness_FaultEntry : (atItem 11#4 4#9 false).itemIndex = 641 ∧ (atItem 11#4 4#9 false).itemIndex < 1024 := by
  decide
/-- Both drivers, the last item and a harness word, with no event to come and with a quiet one, and a word that a table
row gives. -/
theorem witness_StepRunsTheDecodedInstruction :
    ((atItem 11#4 4#9 false).st = .run ∧ TakesNoEvent (atItem 11#4 4#9 false) (atItem 11#4 4#9 false) ∧
      TakesNoEvent { atItem 11#4 4#9 false with inputs := [.quiet, .start] }
        { atItem 11#4 4#9 false with inputs := [.start] } ∧
      (atItem 11#4 4#9 false).driver = .sequencer ∧ issueWord 11 4 false = some 0x0001#16 ∧
      decode 0x0001#16 = .instr (.short false)) ∧
    ((ready tiny img [0x000D#16]).driver = .harness 0 [0x000D#16] ∧ (ready tiny img [0x000D#16]).st = .run ∧
      TakesNoEvent (ready tiny img [0x000D#16]) (ready tiny img [0x000D#16]) ∧
      decode 0x000D#16 = .instr (.tail true)) ∧
    decodeTableWord 16 0x3FFB = some (.active 1023 true) ∧ (atItem 11#4 4#9 false).cfg.Legal :=
  ⟨⟨by decide, noEvent_nil _ rfl, noEvent_quiet _, by decide, by decide, by decide⟩,
    ⟨by decide, by decide, noEvent_nil _ rfl, by decide⟩, by decide, tiny_legal⟩
theorem witness_IssuedWordIsLegal : (atItem 9#4 287#9 false).driver = .sequencer ∧ (atItem 9#4 287#9 false).ph.toNat < 12 ∧
    (287 : Nat) < ([5, 5, 17, 288, 5, 5, 5, 1, 17, 288, 1, 5] : List Nat).getD 9 0 := by decide
/-- In the middle of a phase, at its end, at the last item, and at a faulting item; with a quiet event too. -/
theorem witness_StepTogglesAndAdvances :
    PointerLegal (atItem 3#4 0#9 false) ∧ PointerLegal (atItem 11#4 4#9 false) ∧
    TakesNoEvent (atItem 3#4 0#9 false) (atItem 3#4 0#9 false) ∧
    TakesNoEvent { atItem 11#4 4#9 false with inputs := [.quiet, .start] }
      { atItem 11#4 4#9 false with inputs := [.start] } ∧
    issueWord 3 0 false = some 0x0003#16 ∧ issueWord 11 4 false = some 0x0001#16 ∧
    view (execWord 0x0003#16 (atItem 3#4 0#9 false)) State.st = some .run ∧
    view (execWord 0x0001#16 { atItem 11#4 4#9 false with inputs := [.start] }) State.st = some .run ∧
    view (execWord 0x23F3#16 { atItem 9#4 287#9 false with source := some imgBad }) State.st = some .fault :=
  ⟨Or.inl (by decide), Or.inl (by decide), noEvent_nil _ rfl, noEvent_quiet _, by decide, by decide, by decide +kernel,
    by decide +kernel, by decide +kernel⟩
theorem witness_ItemIndexCountsTheItems : (11 : Nat) < 12 ∧ 4 < phaseCount 11 ∧ scheduleIndex 11 4 = 641 ∧
    (11#4).toNat < 12 ∧ (4#9).toNat < phaseCount (11#4).toNat := by decide
theorem witness_FrameLasts626LinePeriods : Cfg.ref.Legal := ref_legal
/-- The last sample of the second run, after a run of count 0. -/
theorem witness_SampleLookup : let l : List LumaRun := [⟨.syncH, 0, 2⟩, ⟨.burst, 0, 0⟩, ⟨.burst, 1, 3⟩]
    l[2]? = some ⟨.burst, 1, 3⟩ ∧ ((l.take 2).map LumaRun.count).sum ≤ 4 ∧ 4 < ((l.take 3).map LumaRun.count).sum := by
  decide +kernel
theorem witness_F32IsNearestTiesToEven : |(1 / 2 ^ 150 : Rat)| < 2 ^ 127 ∧
    f32Value 0x00000001#32 = some (1 / 2 ^ 149) ∧ f32Rat (1 / 2 ^ 150) = 0#32 :=
  ⟨by norm_num, by decide +kernel, by decide +kernel⟩
theorem witness_BurstPatternIsNearest : f32Value 0x3E4EE115#32 = some (13558037 / 2 ^ 26) := by decide +kernel
/-- A state in DONE with short streams. -/
def streamed : State := { State.reset with st := .done, lumaOut := [1#32, 2#32], chromaOut := [(1#32, 2#32)] }

/-- Nothing before DONE; the last byte of the last sample of a stream that is done, in either byte order. -/
theorem witness_SerializedLayout : State.reset.doneOut = false ∧ streamed.doneOut = true ∧
    streamed.lumaOut[1]? = some 2#32 ∧ streamed.chromaOut[0]? = some (1#32, 2#32) ∧ 3 < 4 ∧
    streamed.cfg.byteOrder = .little ∧
    { streamed with cfg := { Cfg.ref with byteOrder := .big } }.doneOut = true := by decide
/-- T-SE-3: what the host collects, in either byte order. -/
theorem test_collectBytes :
    (State.collectBytes { streamed with lumaOut := [0x3E99999A#32] }).map Prod.fst =
      some [0x9A#8, 0x99#8, 0x99#8, 0x3E#8] ∧
    (State.collectBytes { streamed with
      lumaOut := [0x3E99999A#32], cfg := { Cfg.ref with byteOrder := .big } }).map Prod.fst =
      some [0x3E#8, 0x99#8, 0x99#8, 0x9A#8] := by decide
/-! ### The host's events -/

/-- A DONE state and a FAULT state that a run can leave. -/
def doneState : State := { State.initial still with source := some img, st := .done, ph := 12#4 }
def faultState : State := { State.initial tiny with source := some img, st := .fault, err := ⟨1#2, 27#10, 1, 1, 0, 0#2, 0, 0#16⟩ }

theorem witness_ResetEventResetsEverything : { faultState with inputs := [.reset, .start] }.cfg.Legal ∧
    { faultState with inputs := [.reset, .start] }.inputs = .reset :: [.start] := ⟨tiny_legal, rfl⟩
theorem witness_StartIsAcceptedOnlyInIdle : (State.initial tiny).st = .idle ∧
    { State.initial tiny with source := some img, inputs := [.start] }.source = some img ∧
    { State.initial tiny with inputs := [.start] }.source = none ∧
    { faultState with inputs := [.start] }.st ≠ .idle ∧
    { startedRun tiny img with inputs := [.harness [0x0008#16]] }.st ≠ .idle ∧ tiny.Legal :=
  ⟨rfl, rfl, rfl, by decide, by decide, tiny_legal⟩
theorem witness_ResetThenStartIsAFreshRun : { doneState with inputs := [.reset, .start] }.cfg.Legal ∧
    { doneState with inputs := [.reset, .start] }.source = some img := ⟨still_legal, rfl⟩
/-- A step for each of the four transitions, one of them with a quiet event. -/
theorem witness_StateTransitions :
    view (step { doneState with inputs := [.reset] }) State.st = some .idle ∧
    view (step { State.initial tiny with source := some img, inputs := [.start] }) State.st = some .run ∧
    view (step { State.initial tiny with inputs := [.harness [0x0008#16]] }) State.st = some .run ∧
    view (step { atItem 11#4 4#9 false with inputs := [.quiet] }) State.st = some .done ∧
    view (step (ready tiny img [])) State.st = some .done ∧
    view (step { atItem 9#4 287#9 false with source := some imgBad }) State.st = some .fault := by decide +kernel
theorem witness_FaultAndDoneAreLeftOnlyByReset : view (step doneState) State.st = some .done ∧
    view (step { faultState with inputs := [.start] }) (fun t => (t.st, t.err.n)) = some (.fault, 27#10) ∧
    { faultState with inputs := [.start] }.inputs.head? ≠ some .reset ∧ (State.initial tiny).st ≠ .run ∧
    TakesNoEvent (State.initial tiny) (State.initial tiny) ∧
    TakesNoEvent { faultState with inputs := [.quiet, .start] } { faultState with inputs := [.start] } :=
  ⟨by decide +kernel, by decide +kernel, by decide, by decide, noEvent_nil _ rfl, noEvent_quiet _⟩
/-- A line that is 1 microsecond too long breaks R27; N_VIS = W_REF breaks R26; FS = 0 breaks R25. -/
theorem witness_ConfigurationIsLegalAndNeverChanges : ¬ { Cfg.ref with tActive := 53 / 1000000 }.Legal ∧
    ¬ { Cfg.ref with nVis := 720 }.Legal ∧ ¬ { Cfg.ref with fs := 0 }.Legal ∧ tiny.Legal ∧ still ≠ tiny ∧
    view (step (startedRun tiny img)) State.nOut = some 432 :=
  ⟨by decide +kernel, by decide +kernel, by decide +kernel, tiny_legal, by decide +kernel, by decide +kernel⟩
/-- The image itself is the same; one with another pixel is not; and a harness run that began with none attached. -/
theorem witness_PixelSourceIsConstantInARun : (startedRun tiny img).st = .run ∧ (startedRun tiny img).source = some img ∧
    tiny.Legal ∧ (img.width = img.width ∧ img.height = img.height ∧
      ∀ xs ys, xs < img.width → ys < img.height → img.pixel xs ys = img.pixel xs ys) ∧
    img.pixel 2 575 ≠ imgBad.pixel 2 575 ∧ (State.initial tiny).st ≠ .run ∧
    ((State.initial tiny).startRun (.harness 0 [])).st = .run ∧
    ((State.initial tiny).startRun (.harness 0 [])).source = none :=
  ⟨rfl, rfl, tiny_legal, ⟨rfl, rfl, fun _ _ _ _ => rfl⟩, by decide +kernel, by decide, rfl, rfl⟩
theorem witness_HarnessRun : (State.initial tiny).st = .idle ∧ (State.initial tiny).source = none ∧
    (ready tiny img [0x0008#16]).driver = .harness 0 [0x0008#16] ∧
    TakesNoEvent (ready tiny img [0x0008#16]) (ready tiny img [0x0008#16]) ∧
    view (execWord 0x0008#16 (ready tiny img [0x0008#16])) State.st = some .run ∧
    view (execWord 0x0006#16 (ready tiny img [0x0006#16])) State.st = some .fault ∧
    (ready tiny img []).driver = .harness 0 [] ∧ (ready tiny img []).st = .run ∧
    TakesNoEvent { ready tiny img [] with inputs := [.quiet, .start] } { ready tiny img [] with inputs := [.start] } ∧
    tiny.Legal :=
  ⟨rfl, rfl, rfl, noEvent_nil _ rfl, by decide +kernel, by decide +kernel, rfl, rfl, noEvent_quiet _, tiny_legal⟩
/-! ### The invariant -/

/-- A run that has begun meets the invariant, and takes a step. -/
theorem started_inv : CoreInv (startedRun tiny img) where
  cfgLegal := tiny_legal
  buffersPaired := ⟨rfl, rfl⟩
  outputsGated := ⟨fun h => absurd h (by decide), fun _ => ⟨rfl, rfl⟩⟩
  pointerLegal := Or.inl (by decide)
  parityLegal := by
    show (true : Bool) = decide (scheduleIndex 0 0 % 2 = 0)
    decide
  errorsLegal := ⟨fun _ => rfl, fun h => absurd h (by decide)⟩
  positionLegal := fun _ _ => by
    show (0 : Nat) = itemStart tiny 0 0
    decide +kernel
  sourceLegal := ⟨fun src h => (by cases h; decide), fun src h => (by cases h), fun _ _ => rfl⟩
  stateLegal := ⟨fun h => absurd h (by decide), fun h => absurd h (by decide)⟩
  columnLegal := Nat.zero_le _

theorem doneState_inv : CoreInv doneState where
  cfgLegal := still_legal
  buffersPaired := ⟨rfl, rfl⟩
  outputsGated := ⟨fun _ => ⟨rfl, rfl⟩, fun h => absurd rfl h⟩
  pointerLegal := Or.inr ⟨rfl, rfl, rfl⟩
  parityLegal := by
    show (true : Bool) = decide (scheduleIndex 12 0 % 2 = 0)
    decide
  errorsLegal := ⟨fun _ => rfl, fun h => absurd h (by decide)⟩
  positionLegal := fun _ _ => by
    show (0 : Nat) = itemStart still 12 0
    decide +kernel
  sourceLegal := ⟨fun src h => (by cases h; decide), fun src h => (by cases h), fun h => absurd h (by decide)⟩
  stateLegal := ⟨fun _ _ => rfl, fun h => absurd h (by decide)⟩
  columnLegal := Nat.zero_le _

theorem witness_InvariantHoldsAtReset : tiny.Legal := tiny_legal
theorem witness_EveryStepKeepsTheInvariant : CoreInv (startedRun tiny img) ∧
    view (step (startedRun tiny img)) State.nOut = some 432 := ⟨started_inv, by decide +kernel⟩
theorem witness_EveryStepKeepsTheBuffersPaired : BuffersPaired (startedRun tiny img) ∧
    view (step (startedRun tiny img)) (fun t => t.lbuf.length) = some 2 := ⟨⟨rfl, rfl⟩, by decide +kernel⟩
theorem witness_EveryStepKeepsTheParityAlternating : ParityLegal (startedRun tiny img) ∧
    view (step (startedRun tiny img)) (fun t => t.even) = some false := ⟨started_inv.parityLegal, by decide +kernel⟩
/-- Values at both ends of the ranges. -/
theorem witness_EveryStepKeepsTheValuesInRange : tiny.Legal ∧ ValuesInRange (startedRun tiny img) ∧
    view (step (startedRun tiny img)) State.nOut = some 432 ∧
    ValuesInRange { State.initial tiny with
      lbuf := [⟨.syncH, 0, 1⟩, ⟨.activeVideo, 1, 1⟩]
      cbuf := [⟨.burst, .minusK, .plusK, 1⟩, ⟨.activeVideo, .rat (-(615 / 1000)), .rat (615 / 1000), 1⟩] } := by
  refine ⟨tiny_legal, ⟨fun r h => (by cases h), fun r h => (by cases h)⟩, by decide +kernel, ?_, ?_⟩
  · show ∀ r ∈ [(⟨.syncH, 0, 1⟩ : LumaRun), ⟨.activeVideo, 1, 1⟩], (0 : Rat) ≤ r.v ∧ r.v ≤ 1
    decide +kernel
  · intro r h
    simp only [List.mem_cons, List.not_mem_nil, or_false] at h
    rcases h with rfl | rfl
    · have h0 := Real.sqrt_nonneg 2
      have h2 : Real.sqrt 2 ≤ 2 := Real.sqrt_le_iff.mpr ⟨by norm_num, by norm_num⟩
      simp only [ChromaVal.InRange]
      refine ⟨⟨?_, ?_⟩, ⟨?_, ?_⟩⟩ <;> linarith
    · simp only [ChromaVal.InRange]
      norm_num
theorem witness_RunNeverStops : CoreInv (startedRun tiny img) ∧ TakesNoEvent (startedRun tiny img) (startedRun tiny img) ∧
    (startedRun tiny img).driver = .sequencer := ⟨started_inv, noEvent_nil _ rfl, rfl⟩
theorem witness_DoneHasAWholeFrame : CoreInv doneState ∧ doneState.doneOut = true ∧ doneState.driver = .sequencer ∧
    faultState.faultOut = true ∧ nFrame still = 0 := ⟨doneState_inv, rfl, rfl, rfl, by decide +kernel⟩

/-! ### Whole runs -/

theorem witness_EveryRunEndsWithin642Steps : tiny.Legal := tiny_legal
theorem witness_GoodImageGivesAWholeFrame : tiny.Legal ∧
    ∀ ys x, ys < 576 → x < tiny.nVis → ColumnGood img tiny ys x := ⟨tiny_legal, img_good⟩
/-- A large enough image, and one a column too narrow. -/
theorem witness_SmallImageFaults : tiny.Legal ∧ WellColored img ∧ xsMax tiny + 1 ≤ img.width ∧
    WellColored (PixelSource.uniform 2 576 ⟨0, 0, 0⟩) ∧
    ¬ (xsMax tiny + 1 ≤ (PixelSource.uniform 2 576 ⟨0, 0, 0⟩).width) := by
  refine ⟨tiny_legal, fun xs ys _ _ => ?_, by decide +kernel, fun xs ys _ _ => ?_, by decide +kernel⟩
  · show (⟨12, 34, 56⟩ : Rgb).inRange
    decide
  · show (⟨0, 0, 0⟩ : Rgb).inRange
    decide
/-- The last column of the last row of each field, in phase 3 and in phase 9; every read before it is good. -/
theorem witness_FirstOffenceWins : tiny.Legal ∧ 287 < 288 ∧ 1 < tiny.nVis ∧
    ((3 = 3 ∧ 574 = 2 * 287) ∧
      (∀ i x, (i < 287 ∨ 3 = 9) → i < 288 → x < tiny.nVis → ColumnGood imgBadField1 tiny (2 * i) x) ∧
      (∀ i x, 3 = 9 → i < 287 → x < tiny.nVis → ColumnGood imgBadField1 tiny (2 * i + 1) x) ∧
      (∀ x < 1, ColumnGood imgBadField1 tiny 574 x) ∧ ¬ ColumnGood imgBadField1 tiny 574 1) ∧
    ((9 = 9 ∧ 575 = 2 * 287 + 1) ∧
      (∀ i x, (i < 287 ∨ 9 = 9) → i < 288 → x < tiny.nVis → ColumnGood imgBad tiny (2 * i) x) ∧
      (∀ i x, 9 = 9 → i < 287 → x < tiny.nVis → ColumnGood imgBad tiny (2 * i + 1) x) ∧
      (∀ x < 1, ColumnGood imgBad tiny 575 x) ∧ ¬ ColumnGood imgBad tiny 575 1) := by
  refine ⟨tiny_legal, by decide, by decide,
    ⟨by decide, fun i x hi _ hx => imgBadField1_good _ x (by omega) hx, fun i x h => absurd h (by decide), fun x hx => ?_,
      imgBadField1_first.2⟩,
    ⟨by decide, fun i x _ hi hx => imgBad_good _ x (by omega) hx, fun i x _ hi hx => imgBad_good _ x (by omega) hx,
      fun x hx => ?_, imgBad_first.2⟩⟩
  · obtain rfl : x = 0 := by omega
    exact imgBadField1_first.1
  · obtain rfl : x = 0 := by omega
    exact imgBad_first.1
theorem witness_PixelStandsAtItsSampleIndex : tiny.Legal ∧
    (∀ ys x, ys < 576 → x < tiny.nVis → ColumnGood img tiny ys x) ∧ 1 < tiny.nVis ∧ 350 < nPix tiny :=
  ⟨tiny_legal, img_good, by decide, by decide +kernel⟩
/-- Source column 1 is never read by `tiny`. -/
theorem witness_UnreadPixelsHaveNoEffect : tiny.Legal ∧ columnMap tiny 0 = 0 ∧ columnMap tiny 1 = 2 ∧
    img.setPixel 1 0 ⟨300, 0, 0⟩ ≠ img ∧ AgreeOnReads tiny img (img.setPixel 1 0 ⟨300, 0, 0⟩) := by
  refine ⟨tiny_legal, by decide +kernel, by decide +kernel, by decide +kernel, ?_⟩
  intro x ys hx hy
  have hcells : img.setPixel 1 0 ⟨300, 0, 0⟩ = ⟨3, 576, ⟨12, 34, 56⟩, [(1, ⟨300, 0, 0⟩)]⟩ := by decide +kernel
  have hx' : x = 0 ∨ x = 1 := by
    have : x < 2 := hx
    omega
  have hc : columnMap tiny x = 0 ∨ columnMap tiny x = 2 := by
    rcases hx' with rfl | rfl
    · exact Or.inl (by decide +kernel)
    · exact Or.inr (by decide +kernel)
  rw [pixRead_img x ys hy hx, hcells, pixRead_off_cell 1 _ ys x hy hx (by omega)]
end

end Sys2Proof.Tests
end

section
/-! PROOF. `rhe` and `f32` round to the nearest value, ties to even (spec/00_scope.md R12). Every finite binary32 value
is an integer of at most 24 bits times a power of two, so `f32` is nearest because it applies `rhe` at the place of the
last significant bit. -/

namespace Sys2Proof.Machine

/-! ### The nearest integer -/

/-- Two integers are at least one apart, so no rational is near both. -/
theorem one_le_abs_sub_add_abs_sub (x : Rat) {s z : Int} (hne : z ≠ s) : 1 ≤ |x - s| + |x - z| := by
  have hone : (1 : Rat) ≤ |(z : Rat) - s| := by exact_mod_cast Int.one_le_abs (sub_ne_zero.2 hne)
  calc (1 : Rat) ≤ |(x - s) - (x - z)| := by rwa [sub_sub_sub_cancel_left]
    _ ≤ |x - s| + |x - z| := abs_sub _ _

/-- An integer within one half is a nearest one. -/
theorem abs_sub_le_of_within_half {x : Rat} {s : Int} (h : |x - s| ≤ 1 / 2) (z : Int) : |x - s| ≤ |x - z| := by
  rcases eq_or_ne z s with rfl | hne
  · exact le_rfl
  · linarith [one_le_abs_sub_add_abs_sub x hne]

/-- Where a second integer is as near as one within one half, the distance is one half. -/
theorem abs_sub_eq_half_of_tie {x : Rat} {s z : Int} (h : |x - s| ≤ 1 / 2) (hne : z ≠ s)
    (htie : |x - z| = |x - s|) : |x - s| = 1 / 2 := by
  linarith [one_le_abs_sub_add_abs_sub x hne]

theorem abs_sub_rhe_le_half (q : Rat) : |q - rhe q| ≤ 1 / 2 := by
  obtain ⟨hlo, hhi, -, -⟩ := rhe_spec q
  exact abs_le.2 ⟨hlo, hhi⟩

theorem rhe_even_of_abs_sub_eq_half {q : Rat} (h : |q - rhe q| = 1 / 2) : rhe q % 2 = 0 := by
  obtain ⟨-, -, hup, hdown⟩ := rhe_spec q
  rcases (abs_eq (by norm_num)).1 h with h | h
  · exact hup h
  · exact hdown h

/-- Settles O7: `rhe` is within one half of its argument, and no integer is nearer than one within one half. -/
theorem rheIsNearestTiesToEven : Obligations.RheIsNearestTiesToEven := fun q =>
  ⟨abs_sub_le_of_within_half (abs_sub_rhe_le_half q), rhe_even_of_abs_sub_eq_half⟩

/-! ### Rounding at a place -/

/-- A quotient need not be in lowest terms for `rheDiv` to be the `rhe` of it. -/
theorem rheDiv_eq_rhe (n : Int) {d : Nat} (hd : 0 < d) : rheDiv n d = rhe ((n : Rat) / d) := by
  obtain ⟨c, hn, hden⟩ := Rat.exists_eq_mul_div_num_and_eq_mul_div_den n (d := (d : Int)) (by omega)
  simp only [Int.cast_natCast] at hn hden
  set q : Rat := (n : Rat) / d
  have hq : (0 : Int) < q.den := by exact_mod_cast q.den_pos
  have hc : 0 < c := pos_of_mul_pos_left (by omega : 0 < c * (q.den : Int)) hq.le
  have hlt (a b : Int) : c * a < c * b ↔ a < b := Int.mul_lt_mul_left hc
  simp only [rhe, rheDiv]
  rw [hn, hden, Int.mul_ediv_mul_of_pos _ _ hc, Int.mul_emod_mul_of_pos _ _ hc, mul_left_comm]
  simp only [hlt]

/-- The significand is the value in units of the place, rounded by `rhe`. -/
theorem f32Significand_eq_rhe (n : Nat) {d : Nat} (hd : 0 < d) (e : Int) :
    (f32Significand n d e : Int) = rhe ((n : Rat) / d / 2 ^ e) := by
  have hnonneg : 0 ≤ rhe ((n : Rat) / d / 2 ^ e) := rhe_nonneg (by positivity)
  simp only [f32Significand]
  split
  next he =>
    lift e to Nat using he
    rw [zpow_natCast] at hnonneg ⊢
    rw [Int.toNat_natCast, rheDiv_eq_rhe _ (by positivity)]
    push_cast
    rw [← div_div]
    omega
  next he =>
    obtain ⟨j, rfl⟩ : ∃ j : Nat, e = -(j : Int) := ⟨(-e).toNat, by omega⟩
    rw [zpow_neg, zpow_natCast, div_inv_eq_mul] at hnonneg ⊢
    rw [neg_neg, Int.toNat_natCast, rheDiv_eq_rhe _ hd]
    push_cast
    rw [mul_div_right_comm]
    omega

/-- One comparison decides `floorLog2` between the difference of the two logarithms and the integer below it. -/
theorem floorLog2_eq (n : Nat) {d : Nat} (hd : 0 < d) :
    floorLog2 n d = if (2 : Rat) ^ ((n.log2 : Int) - d.log2) ≤ (n : Rat) / d then (n.log2 : Int) - d.log2
      else (n.log2 : Int) - d.log2 - 1 := by
  have hd' : (0 : Rat) < d := by exact_mod_cast hd
  simp only [floorLog2]
  generalize (n.log2 : Int) - d.log2 = l
  split
  next hl =>
    lift l to Nat using hl
    refine if_congr ?_ rfl rfl
    rw [le_div_iff₀ hd', zpow_natCast, mul_comm, Int.toNat_natCast]
    norm_cast
  next hl =>
    obtain ⟨j, rfl⟩ : ∃ j : Nat, l = -(j : Int) := ⟨(-l).toNat, by omega⟩
    refine if_congr ?_ rfl rfl
    rw [le_div_iff₀ hd', zpow_neg, zpow_natCast, inv_mul_le_iff₀ (by positivity), mul_comm, neg_neg, Int.toNat_natCast]
    norm_cast

theorem log2_bounds {n : Nat} (hn : 0 < n) :
    (2 : Rat) ^ (n.log2 : Int) ≤ n ∧ (n : Rat) < 2 ^ ((n.log2 : Int) + 1) := by
  have hlo := Nat.log2_self_le hn.ne'
  have hhi := Nat.lt_log2_self (n := n)
  exact ⟨by exact_mod_cast hlo, by exact_mod_cast hhi⟩

/-- `floorLog2` is the exponent of the greatest power of two that is not above the quotient. -/
theorem floorLog2_spec {n d : Nat} (hn : 0 < n) (hd : 0 < d) :
    (2 : Rat) ^ floorLog2 n d ≤ (n : Rat) / d ∧ (n : Rat) / d < 2 ^ (floorLog2 n d + 1) := by
  have hd' : (0 : Rat) < d := by exact_mod_cast hd
  obtain ⟨hnlo, hnhi⟩ := log2_bounds hn
  obtain ⟨hdlo, hdhi⟩ := log2_bounds hd
  have hlo : (2 : Rat) ^ ((n.log2 : Int) - d.log2 - 1) ≤ (n : Rat) / d := by
    rw [sub_sub, zpow_sub₀ two_ne_zero]
    exact div_le_div₀ (by positivity) hnlo hd' hdhi.le
  have hhi : (n : Rat) / d < 2 ^ ((n.log2 : Int) - d.log2 + 1) := by
    rw [sub_add_eq_add_sub, zpow_sub₀ two_ne_zero]
    exact div_lt_div₀ hnhi hdlo (by positivity) (by positivity)
  rw [floorLog2_eq n hd]
  split
  next hle => exact ⟨hle, hhi⟩
  next hgt => exact ⟨hlo, by simpa using not_le.1 hgt⟩

theorem f32Place_ge (n d : Nat) : -149 ≤ f32Place n d := le_max_right _ _

/-- At its place a value has at most 24 significant bits. -/
theorem div_f32Place_lt {n d : Nat} (hn : 0 < n) (hd : 0 < d) : (n : Rat) / d / 2 ^ f32Place n d < 2 ^ 24 := by
  have hle : floorLog2 n d + 1 ≤ 24 + f32Place n d := by
    simp only [f32Place]
    omega
  rw [div_lt_iff₀ (by positivity)]
  calc (n : Rat) / d < 2 ^ (floorLog2 n d + 1) := (floorLog2_spec hn hd).2
    _ ≤ 2 ^ (24 + f32Place n d) := zpow_le_zpow_right₀ (by norm_num) hle
    _ = 2 ^ 24 * 2 ^ f32Place n d := by rw [zpow_add₀ two_ne_zero]; norm_num

/-- Above the lowest place a value has at least 24 significant bits. -/
theorem le_div_f32Place {n d : Nat} (hn : 0 < n) (hd : 0 < d) (he : f32Place n d ≠ -149) :
    (2 : Rat) ^ 23 ≤ (n : Rat) / d / 2 ^ f32Place n d := by
  have heq : floorLog2 n d = 23 + f32Place n d := by
    simp only [f32Place] at he ⊢
    omega
  rw [le_div_iff₀ (by positivity)]
  calc (2 : Rat) ^ 23 * 2 ^ f32Place n d = 2 ^ floorLog2 n d := by rw [heq, zpow_add₀ two_ne_zero]; norm_num
    _ ≤ (n : Rat) / d := (floorLog2_spec hn hd).1

/-- In the range of R25 the place leaves the exponent field below its greatest code. -/
theorem f32Place_le {n d : Nat} (hn : 0 < n) (hd : 0 < d) (hlt : (n : Rat) / d < 2 ^ 127) : f32Place n d ≤ 103 := by
  have hpow : (2 : Rat) ^ floorLog2 n d < 2 ^ (127 : Int) := (floorLog2_spec hn hd).1.trans_lt (by exact_mod_cast hlt)
  have := (zpow_lt_zpow_iff_right₀ (by norm_num : (1 : Rat) < 2)).1 hpow
  simp only [f32Place]
  omega

/-! ### The values of the finite words -/

/-- An integer of at most 24 bits times a power of two not below 2^-149: the form of every finite binary32 value. -/
def IsBinary32 (x : Rat) : Prop := ∃ t e : Int, |t| < 2 ^ 24 ∧ -149 ≤ e ∧ x = t * 2 ^ e

theorem IsBinary32.neg {x : Rat} (h : IsBinary32 x) : IsBinary32 (-x) := by
  obtain ⟨t, e, ht, he, rfl⟩ := h
  exact ⟨-t, e, by rwa [abs_neg], he, by push_cast; ring⟩

/-- The number of a word whose fields are the sign `neg`, the exponent code `ex` and the fraction `frac`. -/
def wordOfFields (neg : Bool) (ex frac : Nat) : Nat := (if neg then 2 ^ 31 else 0) + (ex * 2 ^ 23 + frac)

theorem exists_fields (w : F32) :
    ∃ (neg : Bool) (ex frac : Nat), w.toNat = wordOfFields neg ex frac ∧ ex < 2 ^ 8 ∧ frac < 2 ^ 23 := by
  have hw := w.isLt
  refine ⟨decide (2 ^ 31 ≤ w.toNat), w.toNat / 2 ^ 23 % 2 ^ 8, w.toNat % 2 ^ 23, ?_, by omega, by omega⟩
  simp only [wordOfFields, decide_eq_true_eq]
  split <;> omega

/-- The value of a word in its fields; a subnormal word has the place of exponent code 1. -/
theorem f32Value_of_fields {w : F32} {neg : Bool} {ex frac : Nat} (hw : w.toNat = wordOfFields neg ex frac)
    (hex : ex < 2 ^ 8) (hfrac : frac < 2 ^ 23) :
    f32Value w = if ex = 255 then none
      else some ((if neg then -1 else 1 : Rat) * ((if ex = 0 then frac else 2 ^ 23 + frac : Nat) : Rat) *
        2 ^ (max (ex : Int) 1 - 150)) := by
  have hsign : w.getLsbD 31 = neg := by
    rw [← BitVec.testBit_toNat, Nat.testBit_eq_decide_div_mod_eq, hw, wordOfFields]
    cases neg
    · exact decide_eq_false (by simp only [Bool.false_eq_true, if_false]; omega)
    · exact decide_eq_true (by simp only [if_true]; omega)
  have hcode : (w.extractLsb' 23 8).toNat = ex := by
    rw [BitVec.extractLsb'_toNat, Nat.shiftRight_eq_div_pow, hw, wordOfFields]
    split <;> omega
  have hpart : (w.extractLsb' 0 23).toNat = frac := by
    rw [BitVec.extractLsb'_toNat, Nat.shiftRight_eq_div_pow, hw, wordOfFields]
    split <;> omega
  simp only [f32Value, hsign, hcode, hpart]
  refine if_congr Iff.rfl rfl ?_
  split
  next h0 =>
    subst h0
    norm_num [div_eq_mul_inv]
  next h0 =>
    rw [max_eq_left (by omega), zpow_sub₀ two_ne_zero, zpow_natCast, mul_div_assoc]
    norm_cast

/-- Every finite word's value has the form. -/
theorem isBinary32_of_f32Value {w : F32} {x : Rat} (h : f32Value w = some x) : IsBinary32 x := by
  obtain ⟨neg, ex, frac, hw, hex, hfrac⟩ := exists_fields w
  rw [f32Value_of_fields hw hex hfrac] at h
  split at h
  next => cases h
  next =>
    set sig : Nat := if ex = 0 then frac else 2 ^ 23 + frac with hsig
    have hlt : sig < 2 ^ 24 := by
      rw [hsig]
      split <;> omega
    have hpos : IsBinary32 (sig * 2 ^ (max (ex : Int) 1 - 150)) :=
      ⟨sig, max (ex : Int) 1 - 150, by rw [Nat.abs_cast]; exact_mod_cast hlt, by omega, by norm_cast⟩
    obtain rfl := Option.some.inj h
    cases neg
    · simpa using hpos
    · simpa using hpos.neg

/-- A significand of up to 2^24, added to the exponent's code less one, gives the word of the significand at that place:
one that reaches 2^24 carries into the exponent field. -/
theorem f32Value_of_significand {w : F32} {neg : Bool} {k s : Nat} (hw : w.toNat = wordOfFields neg k s)
    (hs : s ≤ 2 ^ 24) (hk : k = 0 ∨ 2 ^ 23 ≤ s) (hmax : k ≤ 252) :
    f32Value w = some ((if neg then -1 else 1 : Rat) * s * 2 ^ ((k : Int) - 149)) := by
  obtain hsub | hnorm | rfl : s < 2 ^ 23 ∨ (2 ^ 23 ≤ s ∧ s < 2 ^ 24) ∨ s = 2 ^ 24 := by omega
  · obtain rfl : k = 0 := by omega
    rw [f32Value_of_fields hw (by omega) hsub]
    simp
  · obtain ⟨hlo, hhi⟩ := hnorm
    have hw' : w.toNat = wordOfFields neg (k + 1) (s - 2 ^ 23) := by
      rw [hw, wordOfFields, wordOfFields]
      omega
    rw [f32Value_of_fields hw' (by omega) (by omega), if_neg (by omega), if_neg k.succ_ne_zero, Nat.add_sub_cancel' hlo,
      max_eq_left (by omega), show ((k + 1 : Nat) : Int) - 150 = k - 149 by omega]
  · have hw' : w.toNat = wordOfFields neg (k + 2) 0 := by
      rw [hw, wordOfFields, wordOfFields]
      omega
    rw [f32Value_of_fields hw' (by omega) (by omega), if_neg (by omega), if_neg (k + 1).succ_ne_zero,
      max_eq_left (by omega), show ((k + 2 : Nat) : Int) - 150 = 1 + (k - 149) by omega, zpow_add₀ two_ne_zero]
    push_cast
    ring_nf

/-! ### The nearest finite value -/

/-- Where `a` has at least 24 significant bits at place `e`, or `e` is the lowest place, no value of the form is nearer
to `a` than `rhe` at that place, and one as near is a multiple of the place's unit too, so that the answer is even. -/
theorem rhe_nearest_isBinary32 {a x : Rat} {e : Int} (hplace : e ≠ -149 → 2 ^ 23 ≤ a / 2 ^ e) (hx : IsBinary32 x) :
    |a - rhe (a / 2 ^ e) * 2 ^ e| ≤ |a - x| ∧
    (x ≠ rhe (a / 2 ^ e) * 2 ^ e → |a - x| = |a - rhe (a / 2 ^ e) * 2 ^ e| → rhe (a / 2 ^ e) % 2 = 0) := by
  have hu : (0 : Rat) < 2 ^ e := by positivity
  have hscale (z : Int) : |a - z * 2 ^ e| = |a / 2 ^ e - z| * 2 ^ e := by
    rw [← abs_of_pos hu, ← abs_mul, abs_of_pos hu, sub_mul, div_mul_cancel₀ _ hu.ne']
  have hhalf := abs_sub_rhe_le_half (a / 2 ^ e)
  obtain ⟨t, f, ht, hf, rfl⟩ := hx
  by_cases hfe : e ≤ f
  · obtain ⟨z, hz⟩ : ∃ z : Int, (t : Rat) * 2 ^ f = z * 2 ^ e := by
      refine ⟨t * 2 ^ (f - e).toNat, ?_⟩
      push_cast
      rw [mul_assoc, ← zpow_natCast, ← zpow_add₀ two_ne_zero]
      congr 2
      omega
    rw [hz, hscale, hscale]
    refine ⟨mul_le_mul_of_nonneg_right (abs_sub_le_of_within_half hhalf z) hu.le, fun hne htie => ?_⟩
    have hne' : z ≠ rhe (a / 2 ^ e) := fun h => hne (by rw [h])
    exact rhe_even_of_abs_sub_eq_half (abs_sub_eq_half_of_tie hhalf hne' (mul_right_cancel₀ hu.ne' htie))
  · have hbelow : (t : Rat) * 2 ^ f < (2 ^ 23 : Int) * 2 ^ e := by
      have ht' : (t : Rat) < 2 ^ 24 := by exact_mod_cast (abs_lt.1 ht).2
      calc (t : Rat) * 2 ^ f < 2 ^ 24 * 2 ^ f := mul_lt_mul_of_pos_right ht' (by positivity)
        _ ≤ 2 ^ 24 * 2 ^ (e - 1) := by gcongr <;> [norm_num; omega]
        _ = (2 ^ 23 : Int) * 2 ^ e := by rw [zpow_sub₀ two_ne_zero]; push_cast; ring
    have habove : ((2 ^ 23 : Int) : Rat) * 2 ^ e ≤ a := by
      rw [← le_div_iff₀ hu]
      exact_mod_cast hplace (by omega)
    have hlt : |a - rhe (a / 2 ^ e) * 2 ^ e| < |a - t * 2 ^ f| :=
      calc |a - rhe (a / 2 ^ e) * 2 ^ e| ≤ |a - (2 ^ 23 : Int) * 2 ^ e| := by
            rw [hscale, hscale]
            exact mul_le_mul_of_nonneg_right (abs_sub_le_of_within_half hhalf _) hu.le
        _ < |a - t * 2 ^ f| := by
            rw [abs_of_nonneg (by linarith), abs_of_nonneg (by linarith)]
            linarith
    exact ⟨hlt.le, fun _ htie => absurd htie hlt.ne'⟩

/-! ### `f32` -/

theorem natAbs_num_div_den (v : Rat) : (v.num.natAbs : Rat) / v.den = |v| := by
  rw [Nat.cast_natAbs, Int.cast_abs, ← Nat.abs_cast v.den, ← abs_div, Rat.num_div_den]

/-- The place of the last significant bit of `f32 v`. -/
def placeOf (v : Rat) : Int := f32Place v.num.natAbs v.den

theorem placeOf_ge (v : Rat) : -149 ≤ placeOf v := f32Place_ge _ _

theorem natAbs_num_pos {v : Rat} (hv : v ≠ 0) : 0 < v.num.natAbs := Int.natAbs_pos.2 (Rat.num_ne_zero.2 hv)

theorem le_abs_div_placeOf {v : Rat} (hv : v ≠ 0) (he : placeOf v ≠ -149) : 2 ^ 23 ≤ |v| / 2 ^ placeOf v :=
  natAbs_num_div_den v ▸ le_div_f32Place (natAbs_num_pos hv) v.den_pos he

/-- The significand of `f32 v` at its place. -/
def significandOf (v : Rat) : Nat := f32Significand v.num.natAbs v.den (placeOf v)

theorem significandOf_eq_rhe (v : Rat) : (significandOf v : Int) = rhe (|v| / 2 ^ placeOf v) :=
  natAbs_num_div_den v ▸ f32Significand_eq_rhe _ v.den_pos _

theorem significandOf_le {v : Rat} (hv : v ≠ 0) : significandOf v ≤ 2 ^ 24 := by
  have hlt : |v| / 2 ^ placeOf v < 2 ^ 24 := natAbs_num_div_den v ▸ div_f32Place_lt (natAbs_num_pos hv) v.den_pos
  have hmono : rhe (|v| / 2 ^ placeOf v) ≤ rhe ((2 ^ 24 : Int) : Rat) := rhe_mono (by exact_mod_cast hlt.le)
  rw [rhe_intCast, ← significandOf_eq_rhe] at hmono
  exact_mod_cast hmono

theorem significandOf_ge {v : Rat} (hv : v ≠ 0) (he : placeOf v ≠ -149) : 2 ^ 23 ≤ significandOf v := by
  have hmono : rhe ((2 ^ 23 : Int) : Rat) ≤ rhe (|v| / 2 ^ placeOf v) :=
    rhe_mono (by exact_mod_cast le_abs_div_placeOf hv he)
  rw [rhe_intCast, ← significandOf_eq_rhe] at hmono
  exact_mod_cast hmono

theorem placeOf_le {v : Rat} (hv : v ≠ 0) (hlt : |v| < 2 ^ 127) : placeOf v ≤ 103 :=
  f32Place_le (natAbs_num_pos hv) v.den_pos ((natAbs_num_div_den v).symm ▸ hlt)

/-- The number of the word of a rational that does not round to zero. -/
theorem f32Rat_toNat_of_ne_zero {v : Rat} (hv : v ≠ 0) (hm : f32Magnitude v.num.natAbs v.den ≠ 0) :
    (f32Rat v).toNat = (if v < 0 then 2 ^ 31 else 0) + f32Magnitude v.num.natAbs v.den := by
  have hmax : f32Magnitude v.num.natAbs v.den ≤ 0x7F800000 := min_le_right _ _
  simp only [f32Rat, Rat.num_ne_zero.2 hv, hm, if_false, Rat.num_neg, BitVec.toNat_ofNat]
  split <;> omega

theorem f32Rat_of_magnitude_eq_zero {v : Rat} (hm : f32Magnitude v.num.natAbs v.den = 0) : f32Rat v = 0#32 := by
  simp [f32Rat, hm]

/-- In the range of R25 no value overflows: the word's number is its fields' sum. -/
theorem f32Magnitude_eq {v : Rat} (hv : v ≠ 0) (hlt : |v| < 2 ^ 127) :
    f32Magnitude v.num.natAbs v.den = (placeOf v + 149).toNat * 2 ^ 23 + significandOf v := by
  have hs := significandOf_le hv
  have he := placeOf_le hv hlt
  exact min_eq_left (by change (placeOf v + 149).toNat * 2 ^ 23 + significandOf v ≤ _; omega)

/-- The value of the word of a rational in the range of R25: its magnitude is rounded at its place. -/
theorem f32Value_f32Rat {v : Rat} (hv : v ≠ 0) (hlt : |v| < 2 ^ 127) :
    f32Value (f32Rat v) = some ((if v < 0 then -1 else 1 : Rat) * rhe (|v| / 2 ^ placeOf v) * 2 ^ placeOf v) := by
  have hge := placeOf_ge v
  have hmag := f32Magnitude_eq hv hlt
  rw [← significandOf_eq_rhe, Int.cast_natCast]
  by_cases hm : f32Magnitude v.num.natAbs v.den = 0
  · have hs : significandOf v = 0 := by omega
    rw [f32Rat_of_magnitude_eq_zero hm, hs]
    simpa using f32Value_of_fields (w := 0#32) (neg := false) (ex := 0) (frac := 0) rfl (by norm_num) (by norm_num)
  · have hw : (f32Rat v).toNat = wordOfFields (decide (v < 0)) (placeOf v + 149).toNat (significandOf v) := by
      rw [f32Rat_toNat_of_ne_zero hv hm, hmag, wordOfFields]
      simp only [decide_eq_true_eq]
    have hk : (placeOf v + 149).toNat = 0 ∨ 2 ^ 23 ≤ significandOf v := by
      by_cases he : placeOf v = -149
      · exact .inl (by omega)
      · exact .inr (significandOf_ge hv he)
    have hmax := placeOf_le hv hlt
    rw [f32Value_of_significand hw (significandOf_le hv) hk (by omega), Int.toNat_of_nonneg (by omega),
      add_sub_cancel_right]
    simp only [decide_eq_true_eq]

/-- The last bit of the word is that of the significand. -/
theorem f32Rat_lsb_of_rhe_even {v : Rat} (hv : v ≠ 0) (hlt : |v| < 2 ^ 127)
    (heven : rhe (|v| / 2 ^ placeOf v) % 2 = 0) : (f32Rat v).getLsbD 0 = false := by
  rw [← significandOf_eq_rhe] at heven
  have hmag := f32Magnitude_eq hv hlt
  by_cases hm : f32Magnitude v.num.natAbs v.den = 0
  · rw [f32Rat_of_magnitude_eq_zero hm]
    rfl
  · rw [← BitVec.testBit_toNat, Nat.testBit_zero, f32Rat_toNat_of_ne_zero hv hm, hmag]
    exact decide_eq_false (by split <;> omega)

/-- R190: a value that rounds to zero gives +0.0, and any other has a magnitude that is not zero. -/
theorem f32Rat_ne_neg_zero (v : Rat) : f32Rat v ≠ 0x80000000#32 := by
  intro h
  by_cases hv : v = 0
  · subst hv
    exact absurd h (by decide)
  by_cases hm : f32Magnitude v.num.natAbs v.den = 0
  · rw [f32Rat_of_magnitude_eq_zero hm] at h
    exact absurd h (by decide)
  · have hmax : f32Magnitude v.num.natAbs v.den ≤ 0x7F800000 := min_le_right _ _
    have hnat := f32Rat_toNat_of_ne_zero hv hm
    rw [h, show (0x80000000#32).toNat = 2 ^ 31 from rfl] at hnat
    split at hnat <;> omega

theorem f32Chroma_ne_neg_zero (c : ChromaVal) : f32Chroma c ≠ 0x80000000#32 := by
  cases c with
  | rat q => exact f32Rat_ne_neg_zero q
  | plusK => decide
  | minusK => decide

/-- Among the finite words `f32` gives a nearest one, and one whose last bit is 0 where another value is as near. The
negative half is the positive half of the mirrored value. -/
theorem f32Rat_nearest {v : Rat} (hv : v ≠ 0) (hlt : |v| < 2 ^ 127) {q x : Rat} (hq : f32Value (f32Rat v) = some q)
    (hx : IsBinary32 x) :
    |v - q| ≤ |v - x| ∧ (x ≠ q → |v - x| = |v - q| → (f32Rat v).getLsbD 0 = false) := by
  obtain rfl := Option.some.inj ((f32Value_f32Rat hv hlt).symm.trans hq)
  have hlsb := f32Rat_lsb_of_rhe_even hv hlt
  have hnear {y : Rat} (hy : IsBinary32 y) := rhe_nearest_isBinary32 (le_abs_div_placeOf hv) hy
  generalize hr : (rhe (|v| / 2 ^ placeOf v) : Rat) * 2 ^ placeOf v = r at hnear
  rw [mul_assoc, hr]
  split
  next hneg =>
    obtain ⟨hle, htie⟩ := hnear hx.neg
    have hmirror (y : Rat) : |(|v|) - y| = |v - -y| := by
      rw [abs_of_neg hneg, ← abs_neg (v - -y)]
      congr 1
      ring
    rw [hmirror, hmirror, neg_neg] at hle htie
    rw [neg_one_mul]
    exact ⟨hle, fun hne heq => hlsb (htie (fun h => hne (by rw [← h, neg_neg])) heq)⟩
  next hpos =>
    obtain ⟨hle, htie⟩ := hnear hx
    rw [abs_of_nonneg (not_lt.1 hpos)] at hle htie hlsb
    rw [one_mul]
    exact ⟨hle, fun hne heq => hlsb (htie hne heq)⟩

/-- Settles O36: `f32` rounds by `rhe` at the place of the last significant bit, every finite word's value has the form
that `rhe_nearest_isBinary32` speaks of, and no magnitude of 0 gets a sign. -/
theorem f32IsNearestTiesToEven : Obligations.F32IsNearestTiesToEven := by
  refine ⟨rfl, f32Chroma_ne_neg_zero, fun v hlt => ?_⟩
  by_cases hv : v = 0
  · subst hv
    refine ⟨0, by decide +kernel, fun w x _ => by simp, fun w x _ _ _ => rfl⟩
  · exact ⟨_, f32Value_f32Rat hv hlt,
      fun w x hx => (f32Rat_nearest hv hlt (f32Value_f32Rat hv hlt) (isBinary32_of_f32Value hx)).1,
      fun w x hx => (f32Rat_nearest hv hlt (f32Value_f32Rat hv hlt) (isBinary32_of_f32Value hx)).2⟩

end Sys2Proof.Machine
end

section
/-! PROOF. How a step of the core ends (spec/43_frame_sequencer.md R163, R164; spec/42_line_builder.md R131), and what that
says of CFG and of the item index (spec/10_state.md R22, R24, R28). -/

namespace Sys2Proof.Machine

/-! ### The end of an item -/

@[simp] theorem advance_cfg (s : State) : s.advance.cfg = s.cfg := by rw [advance_eq]; split <;> rfl
@[simp] theorem advance_x (s : State) : s.advance.x = s.x := by rw [advance_eq]; split <;> rfl
@[simp] theorem advance_err (s : State) : s.advance.err = s.err := by rw [advance_eq]; split <;> rfl
@[simp] theorem advance_nOut (s : State) : s.advance.nOut = s.nOut := by rw [advance_eq]; split <;> rfl
@[simp] theorem advance_lbuf (s : State) : s.advance.lbuf = s.lbuf := by rw [advance_eq]; split <;> rfl
@[simp] theorem advance_cbuf (s : State) : s.advance.cbuf = s.cbuf := by rw [advance_eq]; split <;> rfl
@[simp] theorem advance_source (s : State) : s.advance.source = s.source := by rw [advance_eq]; split <;> rfl
@[simp] theorem advance_driver (s : State) : s.advance.driver = s.driver := by rw [advance_eq]; split <;> rfl
@[simp] theorem advance_inputs (s : State) : s.advance.inputs = s.inputs := by rw [advance_eq]; split <;> rfl
@[simp] theorem advance_even (s : State) : s.advance.even = !s.even := by rw [advance_eq]
@[simp] theorem advance_ph (s : State) : s.advance.ph = (advancePointer s.ph s.it).1 := by rw [advance_eq]
@[simp] theorem advance_it (s : State) : s.advance.it = (advancePointer s.ph s.it).2 := by rw [advance_eq]

/-- Past the last item the run is DONE and its streams are whole; before, neither `st` nor the streams change (R169). -/
theorem advance_end_cases (s : State) :
    (s.advance.ph = 12#4 ∧ s.advance.st = .done ∧ s.advance.lumaOut = flattenLuma s.lbuf ∧
      s.advance.chromaOut = flattenChroma s.cbuf) ∨
    (s.advance.ph ≠ 12#4 ∧ s.advance.st = s.st ∧ s.advance.lumaOut = s.lumaOut ∧
      s.advance.chromaOut = s.chromaOut) := by
  rw [advance_eq]
  split
  next h => exact .inl ⟨h, rfl, rfl, rfl⟩
  next h => exact .inr ⟨h, rfl, rfl, rfl⟩

theorem execWord_of_decode {w : Lcw} {i : Instr} (h : decode w = .instr i) (s : State) : execWord w s = exec i s := by
  simp only [execWord, h]

/-- How the core's own step from `s` can end (R164, R131): it is inactive; the driver flattens after its last word; a
word faults; a test driver moves to its next word; or the FrameSequencer moves to its next item. -/
inductive CoreMove (s : State) : State → Prop where
  | inactive (hst : s.st ≠ .run) : CoreMove s s
  | flatten {pos : Nat} (hst : s.st = .run) (hd : s.driver = .harness pos []) : CoreMove s s.finish
  | fault {w : Lcw} {u : State} (hst : s.st = .run) (hw : s.fetch = .word w) (hx : execWord w s = .next u)
      (hu : u.st = .fault) : CoreMove s u
  | nextWord {pos : Nat} {w : Lcw} {words : List Lcw} {u : State} (hst : s.st = .run)
      (hd : s.driver = .harness pos (w :: words)) (hx : execWord w s = .next u) (hu : u.st = .run) :
      CoreMove s { u with driver := .harness (pos + 1) words }
  | nextItem {p : Phase} {w : Lcw} {u : State} (hst : s.st = .run) (hd : s.driver = .sequencer)
      (hp : phaseTable[s.ph.toNat]? = some p) (hit : s.it.toNat < p.count)
      (hw : decode w = .instr (phaseInstr p s.it.toNat s.even)) (hx : execWord w s = .next u) (hu : u.st = .run) :
      CoreMove s u.advance

theorem coreMove_of_coreStep {s t : State} (h : coreStep s = .next t) : CoreMove s t := by
  obtain ⟨hst, rfl⟩ | ⟨hst, hf, rfl⟩ | ⟨hst, w, u, hf, hx, rfl⟩ := coreStep_next_cases h
  · exact .inactive hst
  · cases hd : s.driver with
    | sequencer =>
      simp only [State.fetch, hd] at hf
      split at hf <;> cases hf
    | harness pos words =>
      cases words with
      | nil => exact .flatten hst hd
      | cons w words => simp [State.fetch, hd] at hf
  · obtain ⟨-, -, -, hdriver, -, -, -, -, -, ⟨hrun, -⟩ | ⟨hfault, -⟩⟩ := execWord_frame hx
    · have hu : u.st = .run := hrun.trans hst
      have hne : u.st ≠ .fault := by simp [hu]
      rw [State.afterItem, if_neg hne, State.completeItem, hdriver]
      cases hd : s.driver with
      | sequencer =>
        obtain ⟨p, hp, hit, hw⟩ := issueWord_isSome (fetch_sequencer hd hf)
        exact .nextItem hst hd hp hit hw hx hu
      | harness pos words =>
        cases words with
        | nil => simp [State.fetch, hd] at hf
        | cons v words =>
          obtain rfl : v = w := by simpa [State.fetch, hd] using hf
          exact .nextWord hst hd hx hu
    · rw [State.afterItem, if_pos hfault]
      exact .fault hst hf hx hfault

/-- What every event of the host and every end of an item keeps, every step keeps. -/
theorem step_keeps_of_moves (P : State → Prop) (hin : ∀ s rest, P s → P { s with inputs := rest })
    (hreset : ∀ s, P s → P s.resetEvent) (hstart : ∀ s d, s.st = .idle → P s → P (s.startRun d))
    (hattach : ∀ s src, P s → P { s with source := some src })
    (hmove : ∀ s t, s.cfg.Legal → P s → CoreMove s t → P t) {s t : State} (hp : P s) (h : step s = .next t) : P t :=
  step_keeps P hin hreset (fun s d hst hp _ _ => hstart s d hst hp) (fun s src _ hp => hattach s src hp)
    (fun s t hp hc h => hmove s t hc hp (coreMove_of_coreStep h)) hp h

/-! ### CFG -/

theorem execWord_cfg {w : Lcw} {s t : State} (h : execWord w s = .next t) : t.cfg = s.cfg := by
  obtain ⟨-, -, -, -, -, -, -, -, hcfg, -⟩ := execWord_frame h
  exact hcfg

theorem coreMove_cfg {s t : State} (h : CoreMove s t) : t.cfg = s.cfg := by
  cases h with
  | inactive => rfl
  | flatten => rfl
  | fault _ _ hx => exact execWord_cfg hx
  | nextWord _ _ hx => exact (execWord_cfg hx :)
  | nextItem _ _ _ _ _ hx => exact (advance_cfg _).trans (execWord_cfg hx)

/-- No step changes CFG (R24, R237). -/
theorem step_cfg {s t : State} (h : step s = .next t) : t.cfg = s.cfg :=
  step_keeps_of_moves (fun u => u.cfg = s.cfg) (fun _ _ hc => hc) (fun _ hc => hc) (fun _ _ _ hc => hc)
    (fun _ _ hc => hc) (fun _ _ _ hc hm => (coreMove_cfg hm).trans hc) rfl h

theorem elaborate_legal {c : Cfg} (hc : c.Legal) : elaborate c = .next (State.initial c) := if_pos hc

theorem elaborate_illegal {c : Cfg} (hc : ¬ c.Legal) : elaborate c = .refused .illegalConfiguration := if_neg hc

theorem reconfigureEvent_changed {s : State} {c : Cfg} (h : c ≠ s.cfg) :
    reconfigureEvent c s = .refused .configurationChanged := if_neg h

/-- Settles O45: a step of the core and an event of the host leave CFG, and the refusals are those of R28 and R237. -/
theorem configurationIsLegalAndNeverChanges : Obligations.ConfigurationIsLegalAndNeverChanges := by
  refine ⟨fun _ => elaborate_illegal, fun _ => elaborate_legal, step_illegal, fun _ _ => step_cfg, ?_⟩
  intro s c rest hc hi hne
  rw [step_event s _ rest hc hi]
  exact reconfigureEvent_changed hne

/-! ### The item index -/

theorem scheduleIndex_mono {ph ph' : Nat} (h : ph ≤ ph') : scheduleIndex ph 0 ≤ scheduleIndex ph' 0 :=
  ((List.take_sublist_take_left h).map Phase.count).sum_le_sum fun _ _ => Nat.zero_le _

/-- Every item of a phase comes before every item of a later one. -/
theorem scheduleIndex_lt_of_phase_lt {ph it ph' : Nat} (hph : ph < 12) (hit : it < phaseCount ph) (h : ph < ph')
    (it' : Nat) : scheduleIndex ph it < scheduleIndex ph' it' := by
  have hsucc := scheduleIndex_succ hph
  have hmono := scheduleIndex_mono (show ph + 1 ≤ ph' from h)
  rw [scheduleIndex_add ph it, scheduleIndex_add ph' it']
  omega

theorem scheduleIndex_injective {ph it ph' it' : Nat} (hph : ph < 12) (hit : it < phaseCount ph) (hph' : ph' < 12)
    (hit' : it' < phaseCount ph') (h : scheduleIndex ph it = scheduleIndex ph' it') : ph = ph' ∧ it = it' := by
  obtain hlt | rfl | hgt := lt_trichotomy ph ph'
  · exact absurd h (scheduleIndex_lt_of_phase_lt hph hit hlt it').ne
  · rw [scheduleIndex_add ph it, scheduleIndex_add ph it'] at h
    exact ⟨rfl, by omega⟩
  · exact absurd h (scheduleIndex_lt_of_phase_lt hph' hit' hgt it).ne'

/-- The advance adds one to the item index (R163). -/
theorem scheduleIndex_advance (ph : BitVec 4) (it : BitVec 9) (hph : ph.toNat < 12)
    (hit : it.toNat < phaseCount ph.toNat) :
    scheduleIndex (advancePointer ph it).1.toNat (advancePointer ph it).2.toNat =
      scheduleIndex ph.toNat it.toNat + 1 := by
  obtain ⟨-, hph', hit'⟩ | ⟨hlast, hph', hit'⟩ := advancePointer_toNat ph it hph hit
  · rw [hph', hit']
    rfl
  · rw [hph', hit', BitVec.toNat_ofNat, Nat.zero_mod, scheduleIndex_succ hph, scheduleIndex_add ph.toNat it.toNat]
    omega

/-- Settles O31: phases do not overlap in the index, and each begins where the one before it ends. -/
theorem itemIndexCountsTheItems : Obligations.ItemIndexCountsTheItems :=
  ⟨fun _ _ _ _ hph hit hph' hit' => ⟨scheduleIndex_lt hph hit, scheduleIndex_injective hph hit hph' hit'⟩,
    scheduleIndex_advance, rfl⟩

end Sys2Proof.Machine
end

section
/-! PROOF. The counts at REF, the reset values and FLATTEN of merged runs (spec/10_state.md R29, R30, R39, R41). -/

namespace Sys2Proof.Machine

/-- R29: REF satisfies R25 to R27. -/
theorem cfg_ref_legal : Cfg.ref.Legal := by decide +kernel

theorem ref_counts :
    nHsync Cfg.ref = 63 ∧ nBdelay Cfg.ref = 12 ∧ nBurst Cfg.ref = 30 ∧ nBprem Cfg.ref = 34 ∧
    nActive Cfg.ref = 702 ∧ nPix Cfg.ref = 1 ∧ nFront Cfg.ref = 22 ∧ nLongP Cfg.ref = 369 ∧ nLongR Cfg.ref = 63 ∧
    nShortP Cfg.ref = 32 ∧ nShortR Cfg.ref = 400 ∧ nHalf Cfg.ref = 432 ∧ nTailfill Cfg.ref = 292 := by
  decide +kernel

/-- Settles O9: each count is `samples` of its duration by definition, and REF is computed. -/
theorem referenceCounts : Obligations.ReferenceCounts :=
  ⟨cfg_ref_legal, fun _ => ⟨rfl, rfl, rfl, rfl, rfl, rfl, rfl, rfl, rfl, rfl, rfl, rfl, rfl⟩, ref_counts⟩

/-- Two runs of one value are one run of the summed count, whatever their kinds (R39). -/
theorem flattenLuma_merge (k k' k'' : SegKind) (v : Rat) (a b : Nat) :
    flattenLuma [⟨k, v, a⟩, ⟨k', v, b⟩] = flattenLuma [⟨k'', v, a + b⟩] := by
  simp

theorem flattenChroma_merge (k k' k'' : SegKind) (u w : ChromaVal) (a b : Nat) :
    flattenChroma [⟨k, u, w, a⟩, ⟨k', u, w, b⟩] = flattenChroma [⟨k'', u, w, a + b⟩] := by
  simp

/-- Settles O35: FLATTEN works run by run, so the runs around the two do not matter. -/
theorem mergedRunsFlattenAlike : Obligations.MergedRunsFlattenAlike := by
  constructor
  · intro l m k k' k'' v a b
    simp only [flattenLuma_append, flattenLuma_merge k k' k'']
  · intro l m k k' k'' u w a b
    simp only [flattenChroma_append, flattenChroma_merge k k' k'']

/-- Settles O39: the reset state is the initial state of REF. -/
theorem resetValues : Obligations.ResetValues :=
  ⟨fun _ => ⟨rfl, rfl, rfl, rfl, rfl, rfl, rfl, rfl, rfl, rfl, rfl, rfl, rfl, rfl, rfl⟩, Cfg.ref, cfg_ref_legal, rfl⟩

end Sys2Proof.Machine
end

section
/-! PROOF. What the core appends (spec/10_state.md R31, R36, R37): every word appends runs to both buffers, and every
value in them is in its range. -/

namespace Sys2Proof.Machine

/-! ### What a word appends -/

/-- `t` has the buffers of `s` with the runs `rs` appended, and their samples counted (R36). -/
structure Appends (s t : State) (rs : List Run) : Prop where
  lbuf : t.lbuf = s.lbuf ++ rs.map Run.toLuma
  cbuf : t.cbuf = s.cbuf ++ rs.map Run.toChroma
  nOut : t.nOut = s.nOut + runSamples rs

/-- The values of a run are in the ranges of R31. -/
def Run.InRange (c : Cfg) (r : Run) : Prop :=
  (c.levelSync ≤ r.luma ∧ r.luma ≤ c.levelWhite) ∧ r.u.InRange ∧ r.w.InRange

theorem levels_in_range {c : Cfg} (hc : c.Legal) :
    (c.levelSync ≤ c.levelBlank ∧ c.levelBlank ≤ c.levelWhite) ∧
      c.levelSync ≤ c.levelBlack ∧ c.levelBlack ≤ c.levelWhite := by
  obtain ⟨-, ⟨-, -, -, -, -, hsb, hbw, hsk, hkw⟩, -⟩ := hc
  exact ⟨⟨hsb, hbw⟩, hsk, hkw⟩

theorem sqrt_two_div_seven_bounds : 0 ≤ Real.sqrt 2 / 7 ∧ Real.sqrt 2 / 7 ≤ 615 / 1000 := by
  have h2 : Real.sqrt 2 ≤ 2 := Real.sqrt_le_iff.mpr (by norm_num)
  exact ⟨by positivity, by linarith⟩

theorem burstComponent_inRange {v : ChromaVal} (h : v = .plusK ∨ v = .minusK) : v.InRange := by
  obtain ⟨hlo, hhi⟩ := sqrt_two_div_seven_bounds
  obtain rfl | rfl := h <;> exact ⟨by linarith, by linarith⟩

theorem plainRun_inRange {c : Cfg} {v : Rat} (h : c.levelSync ≤ v ∧ v ≤ c.levelWhite) (k : SegKind) (n : Nat) :
    (plainRun k v n).InRange c := by
  have h0 : (ChromaVal.rat 0).InRange := by norm_num [ChromaVal.InRange]
  exact ⟨h, h0, h0⟩

theorem burst_inRange {c : Cfg} (hc : c.Legal) (par : Bool) (n : Nat) :
    (⟨.burst, c.levelBlank, burstU, burstV par, n⟩ : Run).InRange c :=
  ⟨(levels_in_range hc).1, burstComponent_inRange (.inr rfl),
    burstComponent_inRange (by cases par <;> simp [burstV])⟩

theorem horizontalSync_inRange {c : Cfg} (hc : c.Legal) : ∀ r ∈ horizontalSync c, r.InRange c := by
  obtain ⟨⟨hsb, hbw⟩, -⟩ := levels_in_range hc
  simpa [horizontalSync] using plainRun_inRange ⟨le_rfl, hsb.trans hbw⟩ _ _

theorem frontPorch_inRange {c : Cfg} (hc : c.Legal) : ∀ r ∈ frontPorch c, r.InRange c := by
  simpa [frontPorch] using plainRun_inRange (levels_in_range hc).1 _ _

theorem backPorch_inRange {c : Cfg} (hc : c.Legal) (par : Bool) : ∀ r ∈ backPorch c par, r.InRange c := by
  have hblank := plainRun_inRange (levels_in_range hc).1
  simpa [backPorch] using ⟨hblank _ _, burst_inRange hc par _, hblank _ _⟩

theorem blackFill_inRange {c : Cfg} (hc : c.Legal) (n : Nat) : ∀ r ∈ blackFill c n, r.InRange c := by
  simpa [blackFill] using plainRun_inRange (levels_in_range hc).2 _ _

/-- Both pulse items put a sync level before a blanking level. -/
theorem pulse_inRange {c : Cfg} (hc : c.Legal) (k : SegKind) (m n : Nat) :
    ∀ r ∈ [plainRun k c.levelSync m, plainRun k c.levelBlank n], r.InRange c := by
  obtain ⟨⟨hsb, hbw⟩, -⟩ := levels_in_range hc
  simpa using ⟨plainRun_inRange ⟨le_rfl, hsb.trans hbw⟩ k m, plainRun_inRange ⟨hsb, hbw⟩ k n⟩

/-- A component of a well-formed pixel, normalized (R110). -/
theorem normalized_bounds {z : Int} (h0 : 0 ≤ z) (h1 : z ≤ 255) : 0 ≤ (z : Rat) / 255 ∧ (z : Rat) / 255 ≤ 1 := by
  have h0' : (0 : Rat) ≤ z := by exact_mod_cast h0
  have h1' : (z : Rat) ≤ 255 := by exact_mod_cast h1
  exact ⟨by positivity, by linarith⟩

theorem paritySign_bounds {a v : Rat} (h : -a ≤ v ∧ v ≤ a) (par : Bool) :
    -a ≤ paritySign par v ∧ paritySign par v ≤ a := by
  obtain ⟨hlo, hhi⟩ := h
  cases par
  · exact ⟨neg_le_neg hhi, neg_le.1 hlo⟩
  · exact ⟨hlo, hhi⟩

/-- The ranges of Y, U and V of normalized components (R117). -/
theorem yuv_bounds {r g b : Rat} (hr : 0 ≤ r ∧ r ≤ 1) (hg : 0 ≤ g ∧ g ≤ 1) (hb : 0 ≤ b ∧ b ≤ 1) :
    (0 ≤ lumaY r g b ∧ lumaY r g b ≤ 1) ∧ (-(436 / 1000) ≤ chromaU r g b ∧ chromaU r g b ≤ 436 / 1000) ∧
      -(615 / 1000) ≤ chromaV r g b ∧ chromaV r g b ≤ 615 / 1000 := by
  obtain ⟨hr0, hr1⟩ := hr
  obtain ⟨hg0, hg1⟩ := hg
  obtain ⟨hb0, hb1⟩ := hb
  simp only [lumaY, chromaU, chromaV]
  refine ⟨⟨?_, ?_⟩, ⟨?_, ?_⟩, ?_, ?_⟩ <;> linarith

/-- The luma mapping goes from black to white (R113). -/
theorem lumaLevel_bounds {c : Cfg} (hc : c.Legal) {y : Rat} (hy : 0 ≤ y ∧ y ≤ 1) :
    c.levelBlack ≤ lumaLevel c y ∧ lumaLevel c y ≤ c.levelWhite := by
  obtain ⟨-, -, hkw⟩ := levels_in_range hc
  obtain ⟨hy0, hy1⟩ := hy
  have hspan : 0 ≤ c.levelWhite - c.levelBlack := sub_nonneg.2 hkw
  have hlo := mul_nonneg hy0 hspan
  have hhi := mul_le_of_le_one_left hspan hy1
  simp only [lumaLevel]
  exact ⟨by linarith, by linarith⟩

/-- The ranges of what ENCODE answers (R117). -/
theorem chromaEncode_sample_bounds {c : Cfg} (hc : c.Legal) {p : Rgb} {par : Bool} {luma u v : Rat}
    (h : chromaEncode c p par = .sample luma u v) :
    (c.levelBlack ≤ luma ∧ luma ≤ c.levelWhite) ∧ (-(436 / 1000) ≤ u ∧ u ≤ 436 / 1000) ∧
      -(615 / 1000) ≤ v ∧ v ≤ 615 / 1000 := by
  obtain ⟨hp, -⟩ | ⟨-, comp, val, hm⟩ := chromaEncode_cases c p par
  · rw [chromaEncode_of_inRange c p par hp] at h
    cases h
    obtain ⟨hr0, hr1, hg0, hg1, hb0, hb1⟩ := hp
    obtain ⟨hy, hu, hv⟩ :=
      yuv_bounds (normalized_bounds hr0 hr1) (normalized_bounds hg0 hg1) (normalized_bounds hb0 hb1)
    exact ⟨lumaLevel_bounds hc hy, hu, paritySign_bounds hv par⟩
  · rw [h] at hm
    cases hm

theorem activeColumn_inRange {c : Cfg} (hc : c.Legal) {src : PixelSource} {ys : Nat} {par : Bool} {x : Nat} {r : Run}
    (h : activeColumn c src ys par x = .run r) : r.InRange c := by
  obtain ⟨p, luma, u, v, -, he, rfl⟩ := activeColumn_run h
  obtain ⟨⟨hl0, hl1⟩, ⟨hu0, hu1⟩, hv⟩ := chromaEncode_sample_bounds hc he
  obtain ⟨-, hsk, -⟩ := levels_in_range hc
  exact ⟨⟨hsk.trans hl0, hl1⟩, ⟨by linarith, by linarith⟩, hv⟩

theorem activeColumns_inRange {c : Cfg} (hc : c.Legal) (src : PixelSource) (ys : Nat) (par : Bool) (xs : List Nat) :
    ∀ r ∈ (activeColumns c src ys par xs).1, r.InRange c := by
  induction xs with
  | nil => simp [activeColumns]
  | cons x xs ih =>
    simp only [activeColumns]
    split
    next => simp
    next r hr => exact List.forall_mem_cons.2 ⟨activeColumn_inRange hc hr, ih⟩

/-- `t` has the buffers of `s` with some runs appended, all of them in range at a legal CFG (R31, R36). -/
def AppendsRuns (s t : State) : Prop := ∃ rs, Appends s t rs ∧ (s.cfg.Legal → ∀ r ∈ rs, r.InRange s.cfg)

theorem appendsRuns_of_same_buffers {s t : State} (hl : t.lbuf = s.lbuf) (hc : t.cbuf = s.cbuf) (hn : t.nOut = s.nOut) :
    AppendsRuns s t := ⟨[], ⟨by simp [hl], by simp [hc], hn⟩, by simp⟩

theorem lead_inRange {c : Cfg} (hc : c.Legal) (par : Bool) : ∀ r ∈ horizontalSync c ++ backPorch c par, r.InRange c :=
  List.forall_mem_append.2 ⟨horizontalSync_inRange hc, backPorch_inRange hc par⟩

/-- The runs before an offending column stay appended (R206). -/
theorem execActive_appendsRuns {row : Nat} {par : Bool} {s t : State} (h : execActive row par s = .next t) :
    AppendsRuns s t := by
  cases hs : s.source with
  | none => simp [execActive, hs] at h
  | some src =>
    have hline (hc : s.cfg.Legal) := List.forall_mem_append.2
      ⟨lead_inRange hc par, activeColumns_inRange hc src row par (List.range s.cfg.nVis)⟩
    obtain ⟨-, he⟩ | ⟨e, -, he⟩ := execActive_cases row par s src hs
    · obtain rfl := Host.Outcome.next.inj (he.symm.trans h)
      exact ⟨_, ⟨rfl, rfl, rfl⟩, fun hc => List.forall_mem_append.2 ⟨hline hc, frontPorch_inRange hc⟩⟩
    · obtain rfl := Host.Outcome.next.inj (he.symm.trans h)
      exact ⟨_, ⟨rfl, rfl, rfl⟩, hline⟩

/-- Every instruction that answers a next state appends runs. -/
theorem exec_appendsRuns {i : Instr} {s t : State} (h : exec i s = .next t) : AppendsRuns s t := by
  have plain (rs : List Run) (ht : exec i s = .next (s.appendAll rs)) : Appends s t rs := by
    obtain rfl := Host.Outcome.next.inj (ht.symm.trans h)
    exact ⟨rfl, rfl, rfl⟩
  cases i with
  | long par => exact ⟨_, plain (longRuns s.cfg) rfl, fun hc => pulse_inRange hc _ _ _⟩
  | short par => exact ⟨_, plain (shortRuns s.cfg) rfl, fun hc => pulse_inRange hc _ _ _⟩
  | blank par =>
    exact ⟨_, plain (blankRuns s.cfg par) rfl, fun hc => List.forall_mem_append.2
      ⟨List.forall_mem_append.2 ⟨lead_inRange hc par, blackFill_inRange hc _⟩, frontPorch_inRange hc⟩⟩
  | active row par => exact execActive_appendsRuns h
  | half par => exact ⟨_, plain (halfRuns s.cfg) rfl, fun hc => blackFill_inRange hc _⟩
  | tail par =>
    exact ⟨_, plain (tailRuns s.cfg par) rfl,
      fun hc => List.forall_mem_append.2 ⟨lead_inRange hc par, blackFill_inRange hc _⟩⟩
  | reservedOp6 w =>
    obtain rfl := Host.Outcome.next.inj h
    exact appendsRuns_of_same_buffers rfl rfl rfl
  | reservedOp7 w =>
    obtain rfl := Host.Outcome.next.inj h
    exact appendsRuns_of_same_buffers rfl rfl rfl

theorem execWord_appendsRuns {w : Lcw} {s t : State} (h : execWord w s = .next t) : AppendsRuns s t := by
  cases hd : decode w with
  | instr i => exact exec_appendsRuns (execWord_of_decode hd s ▸ h)
  | illegal why v =>
    simp only [execWord, hd, illegalWord, Host.Outcome.next.injEq] at h
    subst h
    exact appendsRuns_of_same_buffers rfl rfl rfl

theorem coreMove_appendsRuns {s t : State} (h : CoreMove s t) : AppendsRuns s t := by
  cases h with
  | inactive => exact appendsRuns_of_same_buffers rfl rfl rfl
  | flatten => exact appendsRuns_of_same_buffers rfl rfl rfl
  | fault _ _ hx => exact execWord_appendsRuns hx
  | nextWord _ _ hx =>
    obtain ⟨rs, ⟨hl, hc, hn⟩, hr⟩ := execWord_appendsRuns hx
    exact ⟨rs, ⟨hl, hc, hn⟩, hr⟩
  | nextItem _ _ _ _ _ hx =>
    obtain ⟨rs, ⟨hl, hc, hn⟩, hr⟩ := execWord_appendsRuns hx
    exact ⟨rs, ⟨by simpa using hl, by simpa using hc, by simpa using hn⟩, hr⟩

/-! ### The buffers -/

theorem buffersPaired_of_appends {s t : State} {rs : List Run} (h : Appends s t rs) (hp : BuffersPaired s) :
    BuffersPaired t := by
  obtain ⟨hl, hc, hn⟩ := h
  obtain ⟨hpair, hsum⟩ := hp
  refine ⟨?_, ?_⟩
  · rw [hl, hc, List.map_append, List.map_append, hpair]
    simp [Function.comp_def]
  · rw [hl, hn, hsum]
    simp [runSamples, Function.comp_def]

theorem buffersPaired_of_empty {s : State} (hl : s.lbuf = []) (hc : s.cbuf = []) (hn : s.nOut = 0) :
    BuffersPaired s := by
  simp [BuffersPaired, hl, hc, hn]

theorem step_keeps_buffersPaired {s t : State} (hp : BuffersPaired s) (h : step s = .next t) : BuffersPaired t := by
  refine step_keeps_of_moves BuffersPaired (fun _ _ hp => hp) (fun _ _ => buffersPaired_of_empty rfl rfl rfl)
    (fun _ _ _ _ => buffersPaired_of_empty rfl rfl rfl) (fun _ _ hp => hp) (fun s t _ hp hm => ?_) hp h
  obtain ⟨rs, hrs, -⟩ := coreMove_appendsRuns hm
  exact buffersPaired_of_appends hrs hp

theorem BuffersPaired.length_eq {s : State} (h : BuffersPaired s) : s.lbuf.length = s.cbuf.length := by
  simpa using congrArg List.length h.1

theorem BuffersPaired.counts_eq {s : State} (h : BuffersPaired s) :
    s.lbuf.map LumaRun.count = s.cbuf.map ChromaRun.count := by
  simpa [Function.comp_def] using congrArg (List.map Prod.snd) h.1

/-- Settles O50: a step appends runs to both buffers or empties both. -/
theorem everyStepKeepsTheBuffersPaired : Obligations.EveryStepKeepsTheBuffersPaired :=
  ⟨fun _ => buffersPaired_of_empty rfl rfl rfl, fun _ _ => step_keeps_buffersPaired,
    fun _ h => ⟨h.length_eq, h.2, h.counts_eq ▸ h.2⟩⟩

theorem valuesInRange_of_appends {s t : State} {rs : List Run} (h : Appends s t rs) (hcfg : t.cfg = s.cfg)
    (hr : ∀ r ∈ rs, r.InRange s.cfg) (hv : ValuesInRange s) : ValuesInRange t := by
  obtain ⟨hl, hc, -⟩ := h
  obtain ⟨hluma, hchroma⟩ := hv
  simp only [ValuesInRange, hcfg, hl, hc, List.forall_mem_append, List.forall_mem_map]
  exact ⟨⟨hluma, fun r hmem => (hr r hmem).1⟩, hchroma, fun r hmem => (hr r hmem).2⟩

theorem valuesInRange_of_empty {s : State} (hl : s.lbuf = []) (hc : s.cbuf = []) : ValuesInRange s := by
  simp [ValuesInRange, hl, hc]

theorem step_keeps_valuesInRange {s t : State} (hv : ValuesInRange s) (h : step s = .next t) : ValuesInRange t := by
  refine step_keeps_of_moves ValuesInRange (fun _ _ hv => hv) (fun _ _ => valuesInRange_of_empty rfl rfl)
    (fun _ _ _ _ => valuesInRange_of_empty rfl rfl) (fun _ _ hv => hv) (fun s t hc hv hm => ?_) hv h
  obtain ⟨rs, hrs, hr⟩ := coreMove_appendsRuns hm
  exact valuesInRange_of_appends hrs (coreMove_cfg hm) (hr hc) hv

theorem f32Rat_isFinite {v : Rat} (h : |v| < 2 ^ 127) : (f32Value (f32Rat v)).isSome = true := by
  obtain ⟨-, -, hnear⟩ := f32IsNearestTiesToEven
  obtain ⟨q, hq, -⟩ := hnear v h
  simp [hq]

theorem f32Chroma_isFinite {v : ChromaVal} (h : v.InRange) : (f32Value (f32Chroma v)).isSome = true := by
  cases v with
  | rat q =>
    obtain ⟨hlo, hhi⟩ := h
    exact f32Rat_isFinite (abs_lt.2 ⟨by linarith, by linarith⟩)
  | plusK => decide +kernel
  | minusK => decide +kernel

theorem extreme_levels_bounded {c : Cfg} (hc : c.Legal) :
    Cfg.LevelInRange c.levelSync ∧ Cfg.LevelInRange c.levelWhite := by
  obtain ⟨⟨-, -, -, -, -, -, -, -, -, -, -, -, hsync, -, -, hwhite⟩, -⟩ := hc
  exact ⟨hsync, hwhite⟩

theorem f32Rat_isFinite_of_level {c : Cfg} (hc : c.Legal) {v : Rat} (h : c.levelSync ≤ v ∧ v ≤ c.levelWhite) :
    (f32Value (f32Rat v)).isSome = true := by
  obtain ⟨⟨hsync, -⟩, -, hwhite⟩ := extreme_levels_bounded hc
  obtain ⟨hlo, hhi⟩ := h
  exact f32Rat_isFinite (abs_lt.2 ⟨by linarith, by linarith⟩)

/-- Settles O52: every run that an instruction appends is in range, and within the bound of R25 `f32` is finite. -/
theorem everyStepKeepsTheValuesInRange : Obligations.EveryStepKeepsTheValuesInRange :=
  ⟨fun _ => valuesInRange_of_empty rfl rfl, fun _ _ => step_keeps_valuesInRange, fun _ hc hv =>
    ⟨fun r hr => f32Rat_isFinite_of_level hc (hv.1 r hr),
      fun r hr => ⟨f32Chroma_isFinite (hv.2 r hr).1, f32Chroma_isFinite (hv.2 r hr).2⟩⟩⟩

end Sys2Proof.Machine
end

section
/-! PROOF. The invariant of the reachable states (spec/10_state.md R21, R22, R33, R38; spec/43_frame_sequencer.md R167,
R172). Each part holds after every end of an item and every event of the host, with no other part as a premise. -/

namespace Sys2Proof.Machine

/-! ### Streams, pointer and parity -/

theorem outputsGated_of_no_streams {s : State} (hst : s.st ≠ .done) (hl : s.lumaOut = []) (hc : s.chromaOut = []) :
    OutputsGated s := ⟨fun h => absurd h hst, fun _ => ⟨hl, hc⟩⟩

theorem execWord_keeps_no_streams {w : Lcw} {s u : State} (hg : OutputsGated s) (hst : s.st = .run)
    (hx : execWord w s = .next u) : u.lumaOut = [] ∧ u.chromaOut = [] := by
  obtain ⟨-, -, -, -, hl, hc, -⟩ := execWord_frame hx
  rw [hl, hc]
  exact hg.2 (by simp [hst])

theorem coreMove_keeps_outputsGated {s t : State} (hg : OutputsGated s) (h : CoreMove s t) : OutputsGated t := by
  cases h with
  | inactive => exact hg
  | flatten => exact ⟨fun _ => ⟨rfl, rfl⟩, fun h => absurd rfl h⟩
  | fault hst _ hx hu =>
    obtain ⟨hl, hc⟩ := execWord_keeps_no_streams hg hst hx
    exact outputsGated_of_no_streams (by simp [hu]) hl hc
  | nextWord hst _ hx hu =>
    obtain ⟨hl, hc⟩ := execWord_keeps_no_streams hg hst hx
    exact outputsGated_of_no_streams (by simp [hu]) hl hc
  | @nextItem _ _ u hst _ _ _ _ hx hu =>
    obtain ⟨hl, hc⟩ := execWord_keeps_no_streams hg hst hx
    obtain ⟨-, hdone, hlo, hco⟩ | ⟨-, hrun, hlo, hco⟩ := advance_end_cases u
    · exact ⟨fun _ => ⟨by rw [hlo, advance_lbuf], by rw [hco, advance_cbuf]⟩, fun h => absurd hdone h⟩
    · exact outputsGated_of_no_streams (by simp [hrun, hu]) (hlo.trans hl) (hco.trans hc)

theorem step_keeps_outputsGated {s t : State} (hg : OutputsGated s) (h : step s = .next t) : OutputsGated t := by
  refine step_keeps_of_moves OutputsGated (fun _ _ hg => hg)
    (fun _ _ => outputsGated_of_no_streams (by simp) rfl rfl) (fun s d hst hg => ?_) (fun _ _ hg => hg)
    (fun _ _ _ => coreMove_keeps_outputsGated) hg h
  obtain ⟨hl, hc⟩ := hg.2 (by simp [hst])
  exact outputsGated_of_no_streams (by simp) hl hc

theorem pointerLegal_of_zero {s : State} (hph : s.ph = 0#4) (hit : s.it = 0#9) : PointerLegal s := by
  rw [PointerLegal, hph, hit]
  exact .inl (by decide)

/-- Outside DONE a legal pointer names an item. -/
theorem PointerLegal.item {s : State} (h : PointerLegal s) (hst : s.st ≠ .done) :
    s.ph.toNat < 12 ∧ s.it.toNat < phaseCount s.ph.toNat := by
  obtain h | ⟨-, -, hdone⟩ := h
  · exact h
  · exact absurd hdone hst

theorem coreMove_keeps_pointerLegal {s t : State} (hp : PointerLegal s) (h : CoreMove s t) : PointerLegal t := by
  cases h with
  | inactive => exact hp
  | flatten hst => exact .inl (hp.item (by simp [hst]))
  | fault hst _ hx =>
    obtain ⟨-, hph, hit, -⟩ := execWord_frame hx
    rw [PointerLegal, hph, hit]
    exact .inl (hp.item (by simp [hst]))
  | nextWord hst _ hx =>
    obtain ⟨-, hph, hit, -⟩ := execWord_frame hx
    simp only [PointerLegal, hph, hit]
    exact .inl (hp.item (by simp [hst]))
  | @nextItem _ _ u _ _ hph hit _ hx hu =>
    obtain ⟨-, hph', hit', -⟩ := execWord_frame hx
    rw [PointerLegal, advance_ph, advance_it, hph', hit']
    obtain ⟨-, hitem⟩ | ⟨hend, hzero⟩ := advancePointer_legal s.ph s.it hph hit
    · exact .inl hitem
    · obtain ⟨-, hdone, -⟩ | ⟨hne, -⟩ := advance_end_cases u
      · exact .inr ⟨hend, hzero, hdone⟩
      · exact absurd (by rw [advance_ph, hph', hit', hend]) hne

theorem step_keeps_pointerLegal {s t : State} (hp : PointerLegal s) (h : step s = .next t) : PointerLegal t :=
  step_keeps_of_moves PointerLegal (fun _ _ hp => hp) (fun _ _ => pointerLegal_of_zero rfl rfl)
    (fun _ _ _ _ => pointerLegal_of_zero rfl rfl) (fun _ _ hp => hp) (fun _ _ _ => coreMove_keeps_pointerLegal) hp h

theorem parityLegal_sequencer {s : State} (hd : s.driver = .sequencer) :
    ParityLegal s ↔ s.even = decide (scheduleIndex s.ph.toNat s.it.toNat % 2 = 0) := by
  simp only [ParityLegal, hd]

theorem parityLegal_harness {s : State} {pos : Nat} {words : List Lcw} (hd : s.driver = .harness pos words) :
    ParityLegal s ↔ s.even = true ∧ s.ph = 0#4 ∧ s.it = 0#9 := by
  simp only [ParityLegal, hd]

theorem parityLegal_of_start {s : State} (heven : s.even = true) (hph : s.ph = 0#4) (hit : s.it = 0#9) :
    ParityLegal s := by
  cases hd : s.driver with
  | sequencer =>
    rw [parityLegal_sequencer hd, heven, hph, hit]
    rfl
  | harness pos words => exact (parityLegal_harness hd).2 ⟨heven, hph, hit⟩

theorem decide_succ_even (n : Nat) : decide ((n + 1) % 2 = 0) = !decide (n % 2 = 0) := by
  rw [← decide_not, decide_eq_decide]
  omega

theorem coreMove_keeps_parityLegal {s t : State} (hp : ParityLegal s) (h : CoreMove s t) : ParityLegal t := by
  cases h with
  | inactive => exact hp
  | flatten => exact hp
  | fault _ _ hx =>
    obtain ⟨heven, hph, hit, hdriver, -⟩ := execWord_frame hx
    simpa only [ParityLegal, heven, hph, hit, hdriver] using hp
  | nextWord _ hd hx =>
    obtain ⟨heven, hph, hit, -⟩ := execWord_frame hx
    obtain ⟨heven0, hph0, hit0⟩ := (parityLegal_harness hd).1 hp
    exact parityLegal_of_start (heven.trans heven0) (hph.trans hph0) (hit.trans hit0)
  | nextItem _ hd hph hit _ hx =>
    obtain ⟨heven, hph', hit', hdriver, -⟩ := execWord_frame hx
    rw [parityLegal_sequencer hd] at hp
    have hcount := phaseCount_of_table hph ▸ hit
    rw [parityLegal_sequencer (by rw [advance_driver, hdriver, hd]), advance_even, advance_ph, advance_it, heven, hph',
      hit', scheduleIndex_advance _ _ (phase_lt hph) hcount, decide_succ_even, hp]

theorem step_keeps_parityLegal {s t : State} (hp : ParityLegal s) (h : step s = .next t) : ParityLegal t :=
  step_keeps_of_moves ParityLegal (fun _ _ hp => hp) (fun _ _ => parityLegal_of_start rfl rfl rfl)
    (fun _ _ _ _ => parityLegal_of_start rfl rfl rfl) (fun _ _ hp => hp) (fun _ _ _ => coreMove_keeps_parityLegal) hp h

/-! ### The error registers and the column counter -/

theorem errorsLegal_of_none {s : State} (hst : s.st ≠ .fault) (herr : s.err = ErrRegs.none) : ErrorsLegal s :=
  ⟨fun _ => herr, fun h => absurd h hst⟩

/-- The command of an item is none of the reserved rows, so an item that faults raises no IllegalCommand (R203). -/
theorem exec_phaseInstr_code {p : Phase} {it : Nat} {even : Bool} {s u : State}
    (hx : exec (phaseInstr p it even) s = .next u) (hst : s.st = .run) (hu : u.st = .fault) : u.err.code ≠ 3#2 := by
  obtain ⟨rs, x, rfl, -⟩ | ⟨rs, e, rfl, ⟨-, w, -, hw⟩ | ⟨row, par, src, x, -, -, -, he⟩⟩ := exec_next_cases hx
  · cases hst.symm.trans hu
  · obtain ⟨kind, count, firstRow⟩ := p
    cases kind <;> simp [phaseInstr] at hw
  · obtain ⟨-, rfl⟩ | ⟨px, comp, val, -, -, rfl⟩ := activeColumn_error he <;> simp [ItemError.record]

theorem fault_code_ne_three {w : Lcw} {s u : State} (hst : s.st = .run) (hf : s.fetch = .word w)
    (hx : execWord w s = .next u) (hu : u.st = .fault) (hd : s.driver = .sequencer) : u.err.code ≠ 3#2 := by
  obtain ⟨p, -, -, hw⟩ := issueWord_isSome (fetch_sequencer hd hf)
  exact exec_phaseInstr_code (execWord_of_decode hw s ▸ hx) hst hu

/-- An item that does not fault leaves the error registers. -/
theorem execWord_err {w : Lcw} {s u : State} (hx : execWord w s = .next u) (hu : u.st ≠ .fault) : u.err = s.err := by
  obtain ⟨-, -, -, -, -, -, -, -, -, ⟨-, herr⟩ | ⟨hfault, -⟩⟩ := execWord_frame hx
  · exact herr
  · exact absurd hfault hu

theorem coreMove_keeps_errorsLegal {s t : State} (hp : ErrorsLegal s) (h : CoreMove s t) : ErrorsLegal t := by
  cases h with
  | inactive => exact hp
  | flatten hst => exact errorsLegal_of_none (by simp) (hp.1 (by simp [hst]))
  | fault hst hf hx hu =>
    obtain ⟨-, -, -, hdriver, -, -, -, -, -, ⟨hrun, -⟩ | ⟨-, hcode⟩⟩ := execWord_frame hx
    · cases (hrun.trans hst).symm.trans hu
    · exact ⟨fun h => absurd hu h, fun _ => ⟨hcode, fun hd => fault_code_ne_three hst hf hx hu (hdriver ▸ hd)⟩⟩
  | nextWord hst _ hx hu =>
    exact errorsLegal_of_none (by simp [hu]) ((execWord_err hx (by simp [hu])).trans (hp.1 (by simp [hst])))
  | @nextItem _ _ u hst _ _ _ _ hx hu =>
    have herr : u.err = ErrRegs.none := (execWord_err hx (by simp [hu])).trans (hp.1 (by simp [hst]))
    refine errorsLegal_of_none ?_ ((advance_err u).trans herr)
    obtain ⟨-, hdone, -⟩ | ⟨-, hrun, -⟩ := advance_end_cases u
    · simp [hdone]
    · simp [hrun, hu]

theorem step_keeps_errorsLegal {s t : State} (hp : ErrorsLegal s) (h : step s = .next t) : ErrorsLegal t :=
  step_keeps_of_moves ErrorsLegal (fun _ _ hp => hp) (fun _ _ => errorsLegal_of_none (by simp) rfl)
    (fun _ _ hst hp => errorsLegal_of_none (by simp) (hp.1 (by simp [hst]))) (fun _ _ hp => hp)
    (fun _ _ _ => coreMove_keeps_errorsLegal) hp h

theorem execWord_column {w : Lcw} {s u : State} (hx : execWord w s = .next u) (hc : s.x ≤ s.cfg.nVis) :
    u.x ≤ s.cfg.nVis := by
  obtain ⟨rs, x, rfl, hcol⟩ | ⟨rs, e, rfl, ⟨-, v, rfl⟩ | ⟨row, par, src, x, -, hlt, he⟩⟩ := execWord_next_cases hx
  · obtain rfl | rfl := hcol
    · exact hc
    · exact le_rfl
  · exact hc
  · obtain ⟨-, rfl⟩ | ⟨px, comp, val, -, -, rfl⟩ := activeColumn_error he <;> exact hlt.le

theorem coreMove_keeps_column {s t : State} (hc : s.x ≤ s.cfg.nVis) (h : CoreMove s t) : t.x ≤ t.cfg.nVis := by
  rw [coreMove_cfg h]
  cases h with
  | inactive => exact hc
  | flatten => exact hc
  | fault _ _ hx => exact execWord_column hx hc
  | nextWord _ _ hx => exact (execWord_column hx hc :)
  | nextItem _ _ _ _ _ hx => exact (advance_x _).trans_le (execWord_column hx hc)

theorem step_keeps_column {s t : State} (hc : s.x ≤ s.cfg.nVis) (h : step s = .next t) : t.x ≤ t.cfg.nVis :=
  step_keeps_of_moves (fun u => u.x ≤ u.cfg.nVis) (fun _ _ hc => hc) (fun _ _ => Nat.zero_le _) (fun _ _ _ hc => hc)
    (fun _ _ hc => hc) (fun _ _ _ => coreMove_keeps_column) hc h

/-! ### The sample position -/

theorem runSamples_activeVideo {c : Cfg} {src : PixelSource} {ys : Nat} {par : Bool}
    (h : (activeVideo c src ys par).2 = none) : runSamples (activeVideo c src ys par).1 = c.nVis * nPix c := by
  have hlength := activeColumns_length c src ys par (List.range c.nVis) h
  rw [List.length_range] at hlength
  have hcount := runSamples_of_count _ (nPix c) fun r hr => (activeColumns_runs c src ys par (List.range c.nVis) r hr).2
  rwa [hlength] at hcount

theorem execActive_nOut {row : Nat} {par : Bool} {s u : State} (hx : execActive row par s = .next u)
    (hu : u.st ≠ .fault) : u.nOut = s.nOut + itemSamples s.cfg .active := by
  cases hs : s.source with
  | none => simp [execActive, hs] at hx
  | some src =>
    obtain ⟨hgood, he⟩ | ⟨e, -, he⟩ := execActive_cases row par s src hs
    · obtain rfl := Host.Outcome.next.inj (he.symm.trans hx)
      change s.nOut + runSamples _ = _
      rw [runSamples_append, runSamples_append, lead_samples, runSamples_activeVideo hgood]
      rfl
    · obtain rfl := Host.Outcome.next.inj (he.symm.trans hx)
      exact absurd rfl hu

/-- An item that does not fault appends its samples (R146). -/
theorem exec_phaseInstr_nOut {p : Phase} {it : Nat} {even : Bool} {s u : State}
    (hx : exec (phaseInstr p it even) s = .next u) (hu : u.st ≠ .fault) :
    u.nOut = s.nOut + itemSamples s.cfg p.kind := by
  have plain (rs : List Run) (n : Nat) (hn : runSamples rs = n)
      (ht : exec (phaseInstr p it even) s = .next (s.appendAll rs)) : u.nOut = s.nOut + n := by
    obtain rfl := Host.Outcome.next.inj (ht.symm.trans hx)
    exact congrArg (s.nOut + ·) hn
  obtain ⟨kind, count, firstRow⟩ := p
  cases kind with
  | long => exact plain (longRuns s.cfg) _ (by simp [longRuns, itemSamples]) rfl
  | short => exact plain (shortRuns s.cfg) _ (by simp [shortRuns, itemSamples]) rfl
  | blank =>
    refine plain (blankRuns s.cfg even) _ ?_ rfl
    rw [blankRuns, runSamples_append, runSamples_append, lead_samples]
    rfl
  | active => exact execActive_nOut hx hu
  | half => exact plain (halfRuns s.cfg) _ rfl rfl
  | tail =>
    refine plain (tailRuns s.cfg even) _ ?_ rfl
    rw [tailRuns, runSamples_append, lead_samples]
    rfl

theorem positionLegal_of_start {s : State} (hph : s.ph = 0#4) (hit : s.it = 0#9) (hn : s.nOut = 0) :
    PositionLegal s := by
  intro _ _
  rw [hph, hit, hn]
  simp [itemStart, phaseStart, phaseTable]

theorem coreMove_keeps_positionLegal {s t : State} (hp : PositionLegal s) (h : CoreMove s t) : PositionLegal t := by
  cases h with
  | inactive => exact hp
  | flatten _ hd => exact fun hseq => absurd (hd.symm.trans hseq) (by simp)
  | fault _ _ _ hu => exact fun _ h => absurd hu h
  | nextWord => exact fun hseq => absurd hseq (by simp)
  | nextItem hst hd hph hit hw hx hu =>
    intro _ _
    obtain ⟨-, hph', hit', -, -, -, -, -, hcfg, -⟩ := execWord_frame hx
    have hn := exec_phaseInstr_nOut (execWord_of_decode hw s ▸ hx) (by simp [hu])
    rw [advance_nOut, advance_cfg, advance_ph, advance_it, hph', hit', hcfg, itemStart_advance _ _ _ hph hit, hn,
      hp hd (by simp [hst])]

theorem step_keeps_positionLegal {s t : State} (hp : PositionLegal s) (h : step s = .next t) : PositionLegal t :=
  step_keeps_of_moves PositionLegal (fun _ _ hp => hp) (fun _ _ => positionLegal_of_start rfl rfl rfl)
    (fun _ _ _ _ => positionLegal_of_start rfl rfl rfl) (fun _ _ hp => hp) (fun _ _ _ => coreMove_keeps_positionLegal)
    hp h

/-! ### The operating state and the pixel source -/

theorem stateLegal_of_run_or_fault {s : State} (h : s.st = .run ∨ s.st = .fault) : StateLegal s := by
  constructor <;> intro hst <;> simp [hst] at h

theorem coreMove_keeps_stateLegal {s t : State} (hp : StateLegal s) (h : CoreMove s t) : StateLegal t := by
  cases h with
  | inactive => exact hp
  | flatten _ hd => exact ⟨fun _ hseq => absurd (hd.symm.trans hseq) (by simp), fun h => absurd h (by simp)⟩
  | fault _ _ _ hu => exact stateLegal_of_run_or_fault (.inr hu)
  | nextWord _ _ _ hu => exact stateLegal_of_run_or_fault (.inl hu)
  | @nextItem _ _ u _ _ _ _ _ _ hu =>
    obtain ⟨hend, hdone, -⟩ | ⟨-, hrun, -⟩ := advance_end_cases u
    · exact ⟨fun _ _ => hend, fun h => absurd (hdone.symm.trans h) (by simp)⟩
    · exact stateLegal_of_run_or_fault (.inl (hrun.trans hu))

theorem step_keeps_stateLegal {s t : State} (hp : StateLegal s) (h : step s = .next t) : StateLegal t :=
  step_keeps_of_moves StateLegal (fun _ _ hp => hp) (fun _ _ => ⟨fun h => absurd h (by simp), fun _ => ⟨rfl, rfl, rfl⟩⟩)
    (fun _ _ _ _ => stateLegal_of_run_or_fault (.inl rfl)) (fun _ _ hp => hp) (fun _ _ _ => coreMove_keeps_stateLegal)
    hp h

/-- The core's own step changes neither the source nor the events to come, and it enters RUN from no other state. -/
theorem coreMove_source_frame {s t : State} (h : CoreMove s t) :
    t.source = s.source ∧ t.inputs = s.inputs ∧
      (t.st = .run → t.driver = .sequencer → s.st = .run ∧ s.driver = .sequencer) := by
  cases h with
  | inactive => exact ⟨rfl, rfl, fun hst hd => ⟨hst, hd⟩⟩
  | flatten => exact ⟨rfl, rfl, fun h => absurd h (by simp)⟩
  | fault _ _ hx hu =>
    obtain ⟨-, -, -, -, -, -, hsource, hinputs, -⟩ := execWord_frame hx
    exact ⟨hsource, hinputs, fun h => absurd (hu.symm.trans h) (by simp)⟩
  | nextWord _ _ hx =>
    obtain ⟨-, -, -, -, -, -, hsource, hinputs, -⟩ := execWord_frame hx
    exact ⟨hsource, hinputs, fun _ hd => absurd hd (by simp)⟩
  | @nextItem _ _ u hst hd _ _ _ hx =>
    obtain ⟨-, -, -, -, -, -, hsource, hinputs, -⟩ := execWord_frame hx
    exact ⟨(advance_source u).trans hsource, (advance_inputs u).trans hinputs, fun _ _ => ⟨hst, hd⟩⟩

theorem coreMove_keeps_sourceLegal {s t : State} (hp : SourceLegal s) (h : CoreMove s t) : SourceLegal t := by
  obtain ⟨hsource, hinputs, hrun⟩ := coreMove_source_frame h
  obtain ⟨hwf, hcoming, hattached⟩ := hp
  simp only [SourceLegal, hsource, hinputs]
  exact ⟨hwf, hcoming, fun hst hd => hattached (hrun hst hd).1 (hrun hst hd).2⟩

/-- An event keeps it, where an image to attach is canonical. -/
theorem hostStep_keeps_sourceLegal {e : HostInput} {s t : State} (he : ∀ src, e = .attach src → src.wf = true)
    (hp : SourceLegal s) (h : hostStep e s = .next t) : SourceLegal t := by
  obtain ⟨-, hcs⟩ | ⟨-, rfl⟩ | ⟨-, -, hs, rfl⟩ | ⟨words, -, -, rfl⟩ | ⟨src, rfl, hst, rfl⟩ | ⟨-, rfl⟩ :=
    hostStep_next_cases h
  · exact coreMove_keeps_sourceLegal hp (coreMove_of_coreStep hcs)
  · obtain ⟨hwf, hcoming, -⟩ := hp
    exact ⟨hwf, hcoming, fun h => absurd h (by simp)⟩
  · obtain ⟨hwf, hcoming, -⟩ := hp
    exact ⟨hwf, hcoming, fun _ _ => hs⟩
  · obtain ⟨hwf, hcoming, -⟩ := hp
    exact ⟨hwf, hcoming, fun _ h => absurd h (by simp)⟩
  · obtain ⟨-, hcoming, -⟩ := hp
    exact ⟨fun img himg => Option.some.inj himg ▸ he src rfl, hcoming, fun h => absurd h hst⟩
  · exact hp

theorem step_keeps_sourceLegal {s t : State} (hp : SourceLegal s) (h : step s = .next t) : SourceLegal t := by
  obtain ⟨-, ⟨-, hcs⟩ | ⟨e, rest, hi, hh⟩⟩ := step_next_cases h
  · exact coreMove_keeps_sourceLegal hp (coreMove_of_coreStep hcs)
  · obtain ⟨hwf, hcoming, hattached⟩ := hp
    rw [hi] at hcoming
    refine hostStep_keeps_sourceLegal (fun src he => hcoming src (by simp [he])) ?_ hh
    exact ⟨hwf, fun src hsrc => hcoming src (by simp [hsrc]), hattached⟩

/-! ### The invariant -/

theorem initial_coreInv {c : Cfg} (hc : c.Legal) : CoreInv (State.initial c) where
  cfgLegal := hc
  buffersPaired := buffersPaired_of_empty rfl rfl rfl
  outputsGated := outputsGated_of_no_streams (by simp) rfl rfl
  pointerLegal := pointerLegal_of_zero rfl rfl
  parityLegal := parityLegal_of_start rfl rfl rfl
  errorsLegal := errorsLegal_of_none (by simp) rfl
  positionLegal := positionLegal_of_start rfl rfl rfl
  sourceLegal := ⟨by simp, by simp, by simp⟩
  stateLegal := ⟨by simp, by simp⟩
  columnLegal := Nat.zero_le _

/-- Settles O49: each part is kept by itself. -/
theorem everyStepKeepsTheInvariant : Obligations.EveryStepKeepsTheInvariant := fun _ _ hs h =>
  { cfgLegal := step_cfg h ▸ hs.cfgLegal
    buffersPaired := step_keeps_buffersPaired hs.buffersPaired h
    outputsGated := step_keeps_outputsGated hs.outputsGated h
    pointerLegal := step_keeps_pointerLegal hs.pointerLegal h
    parityLegal := step_keeps_parityLegal hs.parityLegal h
    errorsLegal := step_keeps_errorsLegal hs.errorsLegal h
    positionLegal := step_keeps_positionLegal hs.positionLegal h
    sourceLegal := step_keeps_sourceLegal hs.sourceLegal h
    stateLegal := step_keeps_stateLegal hs.stateLegal h
    columnLegal := step_keeps_column hs.columnLegal h }


/-- Settles O48: at reset every part holds of the reset values. -/
theorem invariantHoldsAtReset : Obligations.InvariantHoldsAtReset :=
  ⟨initial_coreInv cfg_ref_legal, fun _ hc => initial_coreInv hc⟩

end Sys2Proof.Machine
end

section
/-! PROOF. The column map, the pixel space and the serialized layout (spec/20_memory.md R52, R55, R57, R64, R65). -/

namespace Sys2Proof.Machine

/-! ### The column map -/

@[simp] theorem columnMap_zero (c : Cfg) : columnMap c 0 = 0 := by
  have h : rhe 0 = 0 := rhe_intCast 0
  simp [columnMap, h]

theorem columnMap_mono (c : Cfg) {x y : Nat} (h : x ≤ y) : columnMap c x ≤ columnMap c y := by
  have hq : (x : Rat) * c.wRef / c.nVis ≤ (y : Rat) * c.wRef / c.nVis := by gcongr
  have := rhe_mono hq
  rw [← columnMap_eq_rhe, ← columnMap_eq_rhe] at this
  exact_mod_cast this

theorem columnMap_le_xsMax {c : Cfg} {x : Nat} (hx : x < c.nVis) : columnMap c x ≤ xsMax c :=
  columnMap_mono c (by omega)

/-- What R25 and R26 say of the columns: there is one, and the source is wider than the line. -/
theorem visible_lt_wide {c : Cfg} (hc : c.Legal) : 1 ≤ c.nVis ∧ c.nVis < c.wRef := by
  obtain ⟨⟨-, -, -, -, -, -, -, -, -, -, -, hvis, -⟩, ⟨-, -, -, -, hwide, -⟩, -⟩ := hc
  exact ⟨hvis, hwide⟩

/-- The step of the map, `W_REF / N_VIS`, is more than one source column. -/
theorem one_lt_columnStep {c : Cfg} (hc : c.Legal) : (1 : Rat) < (c.wRef : Rat) / c.nVis := by
  obtain ⟨hvis, hwide⟩ := visible_lt_wide hc
  have hpos : (0 : Rat) < c.nVis := by exact_mod_cast hvis
  rw [one_lt_div hpos]
  exact_mod_cast hwide

/-- The last value of the map (R57). -/
theorem xsMax_eq_rhe {c : Cfg} (hc : c.Legal) :
    (xsMax c : Int) = rhe ((c.wRef : Rat) - (c.wRef : Rat) / c.nVis) := by
  obtain ⟨hvis, -⟩ := visible_lt_wide hc
  have hpos : (0 : Rat) < c.nVis := by exact_mod_cast hvis
  rw [xsMax, columnMap_eq_rhe, Nat.cast_sub hvis]
  congr 1
  field_simp
  push_cast
  ring

theorem xsMax_le {c : Cfg} (hc : c.Legal) : xsMax c ≤ c.wRef - 1 := by
  have hstep := one_lt_columnStep hc
  have hle : (c.wRef : Rat) - (c.wRef : Rat) / c.nVis ≤ ((c.wRef - 1 : Int) : Rat) := by
    push_cast
    linarith
  have := rhe_mono hle
  rw [rhe_intCast, ← xsMax_eq_rhe hc] at this
  omega

/-- Whether `w - r` rounds to `w - 1`, for `r` more than 1: below 3/2 it does, at 3/2 it is a tie, and above it does
not. -/
theorem rhe_sub_eq_pred_iff (w : Int) {r : Rat} (hr : 1 < r) :
    rhe ((w : Rat) - r) = w - 1 ↔ r < 3 / 2 ∨ (r = 3 / 2 ∧ (w - 1) % 2 = 0) := by
  obtain ⟨hlo, hhi, htie, htie'⟩ := rhe_spec ((w : Rat) - r)
  constructor
  · intro h
    rw [h] at hlo htie'
    push_cast at hlo htie'
    obtain hlt | rfl | hgt := lt_trichotomy r (3 / 2)
    · exact .inl hlt
    · exact .inr ⟨rfl, htie' (by ring)⟩
    · linarith
  · rintro (hlt | ⟨rfl, heven⟩)
    · apply rhe_unique <;> push_cast <;> linarith
    · have hge : w - 2 ≤ rhe ((w : Rat) - 3 / 2) := by
        rw [← Int.cast_le (R := Rat)]
        push_cast
        linarith
      have hle : rhe ((w : Rat) - 3 / 2) ≤ w - 1 := by
        rw [← Int.cast_le (R := Rat)]
        push_cast
        linarith
      obtain h | h : rhe ((w : Rat) - 3 / 2) = w - 2 ∨ rhe ((w : Rat) - 3 / 2) = w - 1 := by omega
      · rw [h] at htie
        have := htie (by push_cast; ring)
        omega
      · exact h

/-- R57: when the last source column is read. -/
theorem xsMax_eq_last_iff {c : Cfg} (hc : c.Legal) :
    xsMax c = c.wRef - 1 ↔
      (c.wRef : Rat) / (c.nVis : Rat) < 3 / 2 ∨ ((c.wRef : Rat) / (c.nVis : Rat) = 3 / 2 ∧ (c.wRef - 1) % 2 = 0) := by
  obtain ⟨hvis, hwide⟩ := visible_lt_wide hc
  have hround := rhe_sub_eq_pred_iff (c.wRef : Int) (one_lt_columnStep hc)
  rw [Int.cast_natCast, ← xsMax_eq_rhe hc] at hround
  have hxs : xsMax c = c.wRef - 1 ↔ (xsMax c : Int) = c.wRef - 1 := by omega
  have hpar : (c.wRef - 1) % 2 = 0 ↔ ((c.wRef : Int) - 1) % 2 = 0 := by omega
  rw [hxs, hround, hpar]

/-- `N_VIS` reads cannot cover `W_REF` columns. -/
theorem exists_unread_column {c : Cfg} (hc : c.Legal) : ∃ xs < c.wRef, ∀ x < c.nVis, columnMap c x ≠ xs := by
  obtain ⟨-, hwide⟩ := visible_lt_wide hc
  have hcard : ((Finset.range c.nVis).image (columnMap c)).card < (Finset.range c.wRef).card := by
    calc ((Finset.range c.nVis).image (columnMap c)).card ≤ (Finset.range c.nVis).card := Finset.card_image_le
      _ < (Finset.range c.wRef).card := by simpa using hwide
  obtain ⟨xs, hxs, hunread⟩ := Finset.exists_mem_notMem_of_card_lt_card hcard
  refine ⟨xs, Finset.mem_range.mp hxs, fun x hx heq => hunread ?_⟩
  exact Finset.mem_image.mpr ⟨x, Finset.mem_range.mpr hx, heq⟩

/-- The map at REF, in closed form: 720 / 702 = 40 / 39, so one column is left out in every 39. -/
theorem columnMap_ref (x : Nat) : columnMap Cfg.ref x = x + (x + 19) / 39 := by
  have hquot : (x : Rat) * Cfg.ref.wRef / Cfg.ref.nVis = x + x / 39 := by
    simp only [Cfg.ref]
    ring
  obtain ⟨k, hk, hlo, hhi⟩ : ∃ k, (x + 19) / 39 = k ∧ 39 * k ≤ x + 19 ∧ x + 19 ≤ 39 * k + 38 :=
    ⟨_, rfl, by omega, by omega⟩
  have hlo' : (39 : Rat) * k ≤ x + 19 := by exact_mod_cast hlo
  have hhi' : (x : Rat) + 19 ≤ 39 * k + 38 := by exact_mod_cast hhi
  have hround : rhe ((x : Rat) + x / 39) = ((x + k : Nat) : Int) := by
    apply rhe_unique <;> push_cast <;> linarith
  have hmap := columnMap_eq_rhe Cfg.ref x
  rw [hquot, hround] at hmap
  rw [hk]
  exact_mod_cast hmap

theorem columnMap_ref_injective {x y : Nat} (h : columnMap Cfg.ref x = columnMap Cfg.ref y) : x = y := by
  rw [columnMap_ref, columnMap_ref] at h
  omega

/-- The columns REF never reads are the 18 columns `40 j + 20` (R57). -/
theorem unread_ref_iff {xs : Nat} (hxs : xs < 720) : (∀ x < 702, columnMap Cfg.ref x ≠ xs) ↔ xs % 40 = 20 := by
  simp only [columnMap_ref]
  constructor
  · intro hunread
    by_contra hne
    exact hunread (xs - (xs + 19) / 40) (by omega) (by omega)
  · intro hmod x _
    omega

/-- Settles O10: the map is `rhe` of a quotient that grows by `W_REF / N_VIS > 1` a column. -/
theorem columnMapProperties : Obligations.ColumnMapProperties :=
  ⟨fun c hc => ⟨columnMap_zero c, fun _ _ => columnMap_mono c, fun _ hx => (columnMap_le_xsMax hx).trans (xsMax_le hc),
      xsMax_eq_rhe hc, xsMax_eq_last_iff hc, exists_unread_column hc⟩,
    columnMap_ref 701, fun _ _ _ _ => columnMap_ref_injective, fun _ => unread_ref_iff⟩

/-! ### The pixel space -/

theorem setPixel_of_inside {src : PixelSource} {xs ys : Nat} (hx : xs < src.width) (hy : ys < src.height) (v : Rgb) :
    src.setPixel xs ys v = { src with cells := memoryWrite src.fill src.cells (ys * src.width + xs) v } := by
  simp [PixelSource.setPixel, PixelSource.contains, hx, hy]

/-- The pixels of an image changed at one coordinate: different coordinates have different addresses. -/
theorem pixel_setPixel {src : PixelSource} (hwf : src.wf = true) {xs ys xs' ys' : Nat} (hx : xs < src.width)
    (hy : ys < src.height) (hx' : xs' < src.width) (v : Rgb) :
    (src.setPixel xs ys v).pixel xs' ys' = if xs' = xs ∧ ys' = ys then v else src.pixel xs' ys' := by
  have hcells : Memory.wf src.fill src.cells = true := by
    simp only [PixelSource.wf, Bool.and_eq_true] at hwf
    exact hwf.1
  have haddr : ys' * src.width + xs' = ys * src.width + xs ↔ xs' = xs ∧ ys' = ys :=
    ⟨address_injective src.width xs' ys' xs ys hx' hx, by rintro ⟨rfl, rfl⟩; rfl⟩
  rw [setPixel_of_inside hx hy]
  simp only [PixelSource.pixel, memoryRead_memoryWrite _ _ _ _ _ hcells, haddr]

theorem pixRead_of_inside {src : PixelSource} {xs ys : Nat} (hx : xs < src.width) (hy : ys < src.height) :
    pixRead src xs ys = some (src.pixel xs ys) := (pixRead_eq_some_iff src xs ys _).mpr ⟨hx, hy, rfl⟩

/-- Settles O11: the one read is checked against the image's own size, and addresses do not collide inside it. -/
theorem pixReadIsBoundsChecked : Obligations.PixReadIsBoundsChecked := by
  refine ⟨fun src xs ys => (pixRead_eq_none_iff src xs ys).mpr, fun _ _ _ => pixRead_of_inside, ?_⟩
  intro src v xs ys xs' ys' hwf hx hy hx' hy'
  have hread : pixRead (src.setPixel xs ys v) xs' ys' = some ((src.setPixel xs ys v).pixel xs' ys') := by
    apply pixRead_of_inside <;> rwa [setPixel_of_inside hx hy]
  rw [hread, pixel_setPixel hwf hx hy hx', pixRead_of_inside hx' hy', apply_ite some]

/-! ### The serialized layout -/

/-- Which byte of a word stands at offset `b`, counted from the least significant (R64). -/
def byteLane (order : ByteOrder) (b : Nat) : Nat :=
  match order with
  | .little => b
  | .big => 3 - b

theorem getElem?_wordBytes (order : ByteOrder) (w : F32) {b : Nat} (hb : b < 4) :
    (wordBytes order w)[b]? = some (w.extractLsb' (8 * byteLane order b) 8) := by
  cases order <;> interval_cases b <;> rfl

/-- Blocks of one length `n` stand at the multiples of `n`. -/
theorem getElem?_flatMap_of_length {α β : Type} {f : α → List β} {n : Nat} (hf : ∀ a, (f a).length = n) {l : List α}
    {k b : Nat} {a : α} (hk : l[k]? = some a) (hb : b < n) : (l.flatMap f)[n * k + b]? = (f a)[b]? := by
  induction l generalizing k with
  | nil => simp at hk
  | cons e l ih =>
    rw [List.flatMap_cons]
    cases k with
    | zero =>
      obtain rfl : e = a := by simpa using hk
      rw [Nat.mul_zero, Nat.zero_add, List.getElem?_append_left (by rw [hf]; exact hb)]
    | succ k =>
      rw [List.getElem?_append_right (by rw [hf, Nat.mul_succ]; omega), hf,
        show n * (k + 1) + b - n = n * k + b by rw [Nat.mul_succ]; omega]
      exact ih (by simpa using hk)

theorem length_flatMap_of_length {α β : Type} {f : α → List β} {n : Nat} (hf : ∀ a, (f a).length = n) (l : List α) :
    (l.flatMap f).length = n * l.length := by
  simp [List.length_flatMap, hf, Nat.mul_comm]

theorem length_serializeLuma (order : ByteOrder) (l : List F32) : (serializeLuma order l).length = 4 * l.length :=
  length_flatMap_of_length (wordBytes_length order) l

theorem length_pairBytes (order : ByteOrder) (p : F32 × F32) :
    (wordBytes order p.1 ++ wordBytes order p.2).length = 8 := by
  simp

theorem length_serializeChroma (order : ByteOrder) (l : List (F32 × F32)) :
    (serializeChroma order l).length = 8 * l.length :=
  length_flatMap_of_length (length_pairBytes order) l

/-- Word `k` of the luma stream stands at byte offset `4 k` (R65). -/
theorem getElem?_serializeLuma (order : ByteOrder) {l : List F32} {k b : Nat} {w : F32} (hk : l[k]? = some w)
    (hb : b < 4) : (serializeLuma order l)[4 * k + b]? = some (w.extractLsb' (8 * byteLane order b) 8) :=
  (getElem?_flatMap_of_length (wordBytes_length order) hk hb).trans (getElem?_wordBytes order w hb)

/-- I of chroma sample `k` stands at byte offset `8 k` and Q at `8 k + 4` (R65). -/
theorem getElem?_serializeChroma (order : ByteOrder) {l : List (F32 × F32)} {k b : Nat} {i q : F32}
    (hk : l[k]? = some (i, q)) (hb : b < 4) :
    (serializeChroma order l)[8 * k + b]? = some (i.extractLsb' (8 * byteLane order b) 8) ∧
    (serializeChroma order l)[8 * k + 4 + b]? = some (q.extractLsb' (8 * byteLane order b) 8) := by
  constructor
  · rw [serializeChroma, getElem?_flatMap_of_length (length_pairBytes order) hk (by omega),
      List.getElem?_append_left (by simpa using hb), getElem?_wordBytes order i hb]
  · rw [Nat.add_assoc, serializeChroma, getElem?_flatMap_of_length (length_pairBytes order) hk (by omega),
      List.getElem?_append_right (by simp), wordBytes_length, Nat.add_sub_cancel_left, getElem?_wordBytes order q hb]

/-- Settles O38: a word is four bytes, so the blocks of the two files stand at the multiples of 4 and 8. -/
theorem serializedLayout : Obligations.SerializedLayout := by
  constructor
  · intro s hdone
    simp [State.collect, State.collectBytes, hdone]
  · intro s hdone
    refine ⟨by simp [State.collect, hdone], serializeLuma s.cfg.byteOrder s.lumaOut,
      serializeChroma s.cfg.byteOrder s.chromaOut, by simp [State.collectBytes, hdone], length_serializeLuma _ _,
      length_serializeChroma _ _, ?_, ?_⟩
    · exact fun k b w hk hb => getElem?_serializeLuma s.cfg.byteOrder hk hb
    · exact fun k b i q hk hb => getElem?_serializeChroma s.cfg.byteOrder hk hb

end Sys2Proof.Machine
end

section
/-! PROOF. The hardware's own run, item by item: which items it passes, where it faults, and that nothing of the source
but the reads of a frame matters (spec/20_memory.md R58, R62; spec/43_frame_sequencer.md R163, R169). -/

namespace Sys2Proof.Machine

/-! ### Runs of several steps -/

@[simp] theorem runSteps_zero (s : State) : runSteps 0 s = .next s := rfl

theorem runSteps_succ (k : Nat) (s : State) :
    runSteps (k + 1) s = match step s with
      | .next t => runSteps k t
      | .fault f => .fault f
      | .refused r => .refused r := by
  have hstep : Sys2Proof.core.step s = step s := rfl
  simp only [runSteps, Host.Core.run, hstep]
  cases step s <;> rfl

/-- One more step is taken at the end of a run. -/
theorem runSteps_succ_of_run {k : Nat} {s t : State} (h : runSteps k s = .next t) : runSteps (k + 1) s = step t := by
  induction k generalizing s with
  | zero =>
    obtain rfl : s = t := by simpa using h
    cases hs : step s <;> simp [runSteps_succ, hs]
  | succ k ih =>
    rw [runSteps_succ] at h ⊢
    cases hs : step s with
    | next u =>
      rw [hs] at h
      exact ih h
    | fault f => simp [hs] at h
    | refused r => simp [hs] at h

/-! ### The states of the hardware's own run -/

/-- A state of the hardware's own run with the configuration `c` and the source `src`, no event to come. -/
structure OwnRun (c : Cfg) (src : PixelSource) (s : State) : Prop where
  cfg : s.cfg = c
  source : s.source = some src
  driver : s.driver = .sequencer
  inputs : s.inputs = []
  pointerLegal : PointerLegal s

theorem startedRun_ownRun (c : Cfg) (src : PixelSource) : OwnRun c src (startedRun c src) :=
  ⟨rfl, rfl, rfl, rfl, pointerLegal_of_zero rfl rfl⟩

theorem coreMove_keeps_sequencer {s t : State} (hd : s.driver = .sequencer) (h : CoreMove s t) :
    t.driver = .sequencer := by
  cases h with
  | inactive => exact hd
  | flatten => exact hd
  | fault _ _ hx =>
    obtain ⟨-, -, -, hdriver, -⟩ := execWord_frame hx
    exact hdriver.trans hd
  | nextWord _ hd' => exact absurd (hd.symm.trans hd') (by simp)
  | @nextItem _ _ u _ _ _ _ _ hx =>
    obtain ⟨-, -, -, hdriver, -⟩ := execWord_frame hx
    exact (advance_driver u).trans (hdriver.trans hd)

section
variable {c : Cfg} {src : PixelSource} {s t : State} (hc : c.Legal) (h : OwnRun c src s)
include hc h

theorem OwnRun.step_eq : step s = coreStep s := step_quiet s (h.cfg ▸ hc) h.inputs

theorem OwnRun.next (hs : step s = .next t) : OwnRun c src t := by
  have hm : CoreMove s t := coreMove_of_coreStep ((h.step_eq hc).symm.trans hs)
  obtain ⟨hsource, hinputs, -⟩ := coreMove_source_frame hm
  exact ⟨(coreMove_cfg hm).trans h.cfg, hsource.trans h.source, coreMove_keeps_sequencer h.driver hm,
    hinputs.trans h.inputs, coreMove_keeps_pointerLegal h.pointerLegal hm⟩

theorem OwnRun.step_of_not_run (hst : s.st ≠ .run) : step s = .next s := by
  rw [h.step_eq hc, coreStep]
  cases hs : s.st with
  | run => exact absurd hs hst
  | idle => rfl
  | done => rfl
  | fault => rfl

/-- In RUN a step executes the instruction of the item at the pointer (R162). -/
theorem OwnRun.step_of_run (hst : s.st = .run) :
    ∃ p, phaseTable[s.ph.toNat]? = some p ∧ s.it.toNat < p.count ∧
      step s = outcomeAfterItem (exec (phaseInstr p s.it.toNat s.even) s) := by
  obtain ⟨hph, hit⟩ := h.pointerLegal.item (by simp [hst])
  obtain ⟨p, w, hp, hcount, hissue, hdecode⟩ := issueWord_of_item s.even hph hit
  refine ⟨p, hp, hcount, ?_⟩
  rw [h.step_eq hc, ← execWord_of_decode hdecode]
  simp only [coreStep, hst, State.fetch, h.driver, hissue]

end

/-! ### What an item does -/

/-- Every pixel the item `it` of the phase `p` reads is there and well formed. -/
def ItemGood (c : Cfg) (src : PixelSource) (p : Phase) (it : Nat) : Prop :=
  p.kind = .active → ∀ x < c.nVis, ColumnGood src c (p.row it) x

/-- The error registers record the error of a visible column. -/
def RaisedByColumn (c : Cfg) (src : PixelSource) (r : ErrRegs) : Prop :=
  ∃ ys par x e n, activeColumn c src ys par x = .error e ∧ r = e.record n

theorem phaseInstr_of_active {p : Phase} (hp : p.kind = .active) (it : Nat) (even : Bool) :
    phaseInstr p it even = .active (p.row it) even := by
  simp only [phaseInstr, Phase.row, hp]

/-- The items that read no pixel append runs that depend on CFG and the parity only. -/
theorem exec_phaseInstr_of_not_active {p : Phase} (hp : p.kind ≠ .active) (it : Nat) (even : Bool) :
    ∃ rs : Cfg → List Run, ∀ s, exec (phaseInstr p it even) s = .next (s.appendAll (rs s.cfg)) := by
  obtain ⟨kind, count, firstRow⟩ := p
  cases kind with
  | long => exact ⟨longRuns, fun _ => rfl⟩
  | short => exact ⟨shortRuns, fun _ => rfl⟩
  | blank => exact ⟨(blankRuns · even), fun _ => rfl⟩
  | active => exact absurd rfl hp
  | half => exact ⟨halfRuns, fun _ => rfl⟩
  | tail => exact ⟨(tailRuns · even), fun _ => rfl⟩

/-- An active phase has as many items as a field has rows, and starts at row 0 or 1 (R160). -/
theorem active_phase_bounds {ph : Nat} {p : Phase} (hp : phaseTable[ph]? = some p) (hact : p.kind = .active) :
    p.count = 288 ∧ p.firstRow ≤ 1 := by
  have hph := phase_lt hp
  interval_cases ph <;> obtain rfl := Option.some.inj hp <;> revert hact <;> decide

/-- A row of an item is a row of the source (R162). -/
theorem row_lt_sourceRows {ph it : Nat} {p : Phase} (hp : phaseTable[ph]? = some p) (hit : it < p.count) :
    p.row it < sourceRows := by
  simp only [Phase.row, sourceRows]
  split
  next hact =>
    obtain ⟨hcount, hfirst⟩ := active_phase_bounds hp hact
    omega
  next => omega

/-- An item whose reads are all good completes, and any other takes fault entry for one of its columns (R145, R205). -/
theorem exec_phaseInstr_outcome {src : PixelSource} {s : State} (hs : s.source = some src) (p : Phase) (it : Nat)
    (even : Bool) :
    ∃ u, exec (phaseInstr p it even) s = .next u ∧
      ((ItemGood s.cfg src p it ∧ u.st = s.st) ∨
        (¬ ItemGood s.cfg src p it ∧ u.st = .fault ∧ RaisedByColumn s.cfg src u.err)) := by
  by_cases hp : p.kind = .active
  · rw [phaseInstr_of_active hp]
    obtain ⟨hv, hx⟩ | ⟨e, hv, hx⟩ := execActive_cases (p.row it) even s src hs
    · exact ⟨_, hx, .inl ⟨fun _ x hlt => activeColumns_none hv x (List.mem_range.mpr hlt), rfl⟩⟩
    · obtain ⟨x, hmem, he⟩ := activeColumns_error hv
      refine ⟨_, hx, .inr ⟨fun hgood => ?_, rfl, _, _, x, e, _, he, rfl⟩⟩
      obtain ⟨r, hr⟩ := (columnGood_iff s.cfg src _ even x).mp (hgood hp x (List.mem_range.mp hmem))
      exact absurd (hr.symm.trans he) (by simp)
  · obtain ⟨rs, hx⟩ := exec_phaseInstr_of_not_active hp it even
    exact ⟨_, hx s, .inl ⟨fun h => absurd h hp, rfl⟩⟩

/-! ### The items a run passes -/

/-- The reads of all items before the index `k` are good. -/
def GoodBefore (c : Cfg) (src : PixelSource) (k : Nat) : Prop :=
  ∀ ph it p, phaseTable[ph]? = some p → it < p.count → scheduleIndex ph it < k → ItemGood c src p it

theorem goodBefore_succ_iff {c : Cfg} {src : PixelSource} {ph it : Nat} {p : Phase} (hp : phaseTable[ph]? = some p)
    (hit : it < p.count) :
    GoodBefore c src (scheduleIndex ph it + 1) ↔ GoodBefore c src (scheduleIndex ph it) ∧ ItemGood c src p it := by
  constructor
  · exact fun h => ⟨fun ph' it' p' hp' hit' hlt => h ph' it' p' hp' hit' (by omega), h ph it p hp hit (by omega)⟩
  · rintro ⟨hbefore, hitem⟩ ph' it' p' hp' hit' hlt
    obtain hlt | heq := Nat.lt_succ_iff_lt_or_eq.mp hlt
    · exact hbefore ph' it' p' hp' hit' hlt
    · obtain ⟨rfl, rfl⟩ := scheduleIndex_injective (phase_lt hp') (by rwa [phaseCount_of_table hp']) (phase_lt hp)
        (by rwa [phaseCount_of_table hp]) heq
      obtain rfl : p' = p := Option.some.inj (hp'.symm.trans hp)
      exact hitem

/-- Where a run stands after `k` of its 642 items: past them, if all their reads are good, else in FAULT. -/
def StandsAt (c : Cfg) (src : PixelSource) (k : Nat) (s : State) : Prop :=
  (GoodBefore c src k ∧ scheduleIndex s.ph.toNat s.it.toNat = k ∧ s.st = if k < 642 then .run else .done) ∨
  (¬ GoodBefore c src k ∧ s.st = .fault ∧ RaisedByColumn c src s.err)

/-- After the last item the run is DONE, after any other it goes on (R163, R169). -/
theorem advance_st {u : State} {p : Phase} (hp : phaseTable[u.ph.toNat]? = some p) (hit : u.it.toNat < p.count)
    (hst : u.st = .run) :
    u.advance.st = if scheduleIndex u.ph.toNat u.it.toNat + 1 < 642 then .run else .done := by
  have hindex := scheduleIndex_advance u.ph u.it (phase_lt hp) (by rwa [phaseCount_of_table hp])
  obtain ⟨hne, hph, hit'⟩ | ⟨hend, hzero⟩ := advancePointer_legal u.ph u.it hp hit
  · have hlt := scheduleIndex_lt hph hit'
    rw [if_pos (by omega), advance_eq, if_neg hne]
    exact hst
  · have hlast : scheduleIndex (advancePointer u.ph u.it).1.toNat (advancePointer u.ph u.it).2.toNat = 642 := by
      rw [hend, hzero]
      rfl
    rw [if_neg (by omega), advance_eq, if_pos hend]
    rfl

/-- A step in RUN: past an item whose reads are all good, or into FAULT at a column of it (R163, R205). -/
theorem OwnRun.step_item {c : Cfg} {src : PixelSource} {s : State} (hc : c.Legal) (h : OwnRun c src s)
    (hst : s.st = .run) :
    ∃ p t, phaseTable[s.ph.toNat]? = some p ∧ s.it.toNat < p.count ∧ step s = .next t ∧
      ((ItemGood c src p s.it.toNat ∧
          scheduleIndex t.ph.toNat t.it.toNat = scheduleIndex s.ph.toNat s.it.toNat + 1 ∧
          t.st = if scheduleIndex s.ph.toNat s.it.toNat + 1 < 642 then .run else .done) ∨
        (¬ ItemGood c src p s.it.toNat ∧ t.st = .fault ∧ RaisedByColumn c src t.err)) := by
  obtain ⟨p, hp, hit, hstep⟩ := h.step_of_run hc hst
  obtain ⟨u, hx, hu⟩ := exec_phaseInstr_outcome h.source p s.it.toNat s.even
  have hw := (decode_issued (even := s.even) hp hit).2
  obtain ⟨-, hph, hpos, hdriver, -⟩ := execWord_frame ((execWord_of_decode hw s).trans hx)
  rw [h.cfg] at hu
  refine ⟨p, u.afterItem, hp, hit, by rw [hstep, hx]; rfl, ?_⟩
  obtain ⟨hitem, hrun⟩ | ⟨hitem, hfault, herr⟩ := hu
  · have hlast : u.afterItem = u.advance := by
      rw [State.afterItem, if_neg (by simp [hrun, hst]), State.completeItem, hdriver, h.driver]
    rw [hlast, advance_ph, advance_it, ← hph, ← hpos]
    rw [← hph] at hp
    rw [← hpos] at hit hitem
    exact .inl ⟨hitem, scheduleIndex_advance _ _ (phase_lt hp) (by rwa [phaseCount_of_table hp]),
      advance_st hp hit (hrun.trans hst)⟩
  · rw [State.afterItem, if_pos hfault]
    exact .inr ⟨hitem, hfault, herr⟩

theorem step_standsAt {c : Cfg} {src : PixelSource} {k : Nat} {s : State} (hc : c.Legal) (hk : k < 642)
    (h : OwnRun c src s) (hs : StandsAt c src k s) : ∃ t, step s = .next t ∧ StandsAt c src (k + 1) t := by
  obtain ⟨hgood, rfl, hst⟩ | ⟨hbad, hst, herr⟩ := hs
  · rw [if_pos hk] at hst
    obtain ⟨p, t, hp, hit, hstep, ⟨hitem, hindex, ht⟩ | ⟨hitem, hfault, herr⟩⟩ := h.step_item hc hst
    · exact ⟨t, hstep, .inl ⟨(goodBefore_succ_iff hp hit).mpr ⟨hgood, hitem⟩, hindex, ht⟩⟩
    · exact ⟨t, hstep, .inr ⟨fun hgood => hitem ((goodBefore_succ_iff hp hit).mp hgood).2, hfault, herr⟩⟩
  · refine ⟨s, h.step_of_not_run hc (by simp [hst]), .inr ⟨fun hgood => hbad ?_, hst, herr⟩⟩
    exact fun ph it p hp hit hlt => hgood ph it p hp hit (by omega)

/-- The run from the start state, after each number of its 642 steps. -/
theorem runSteps_standsAt {c : Cfg} (src : PixelSource) (hc : c.Legal) {k : Nat} (hk : k ≤ 642) :
    ∃ t, runSteps k (startedRun c src) = .next t ∧ OwnRun c src t ∧ StandsAt c src k t := by
  induction k with
  | zero =>
    exact ⟨_, rfl, startedRun_ownRun c src, .inl ⟨fun _ _ _ _ _ h => absurd h (Nat.not_lt_zero _), rfl, rfl⟩⟩
  | succ k ih =>
    obtain ⟨t, hrun, hown, hstands⟩ := ih (by omega)
    obtain ⟨u, hstep, hstands'⟩ := step_standsAt hc (by omega) hown hstands
    exact ⟨u, (runSteps_succ_of_run hrun).trans hstep, hown.next hc hstep, hstands'⟩

/-! ### Small images -/

/-- Of a well-coloured image all reads are good exactly when they are inside it: the largest column and the last row are
both read by the item `(9, 287)` (R58). -/
theorem goodBefore_end_iff {c : Cfg} {src : PixelSource} (hc : c.Legal) (hw : WellColored src) :
    GoodBefore c src 642 ↔ LargeEnough c src := by
  constructor
  · intro hgood
    obtain ⟨hvis, -⟩ := visible_lt_wide hc
    obtain ⟨px, hread, -⟩ := hgood 9 287 ⟨.active, 288, 1⟩ rfl (by decide) (by decide) rfl (c.nVis - 1) (by omega)
    obtain ⟨hx, hy, -⟩ := (pixRead_eq_some_iff _ _ _ _).mp hread
    exact ⟨hx, hy⟩
  · rintro ⟨hwidth, hheight⟩ ph it p hp hit - - x hx
    have hxs : columnMap c x < src.width := (columnMap_le_xsMax hx).trans_lt hwidth
    have hys : p.row it < src.height := (row_lt_sourceRows hp hit).trans_le hheight
    exact ⟨_, pixRead_of_inside hxs hys, hw _ _ hxs hys⟩

/-- A well-coloured image gives no error of the component check (R201, R202). -/
theorem RaisedByColumn.code_of_wellColored {c : Cfg} {src : PixelSource} {r : ErrRegs} (hw : WellColored src)
    (h : RaisedByColumn c src r) : r.code = 1#2 := by
  obtain ⟨ys, par, x, e, n, he, rfl⟩ := h
  obtain ⟨-, rfl⟩ | ⟨px, comp, val, hread, hmal, -⟩ := activeColumn_error he
  · rfl
  · obtain ⟨hx, hy, rfl⟩ := (pixRead_eq_some_iff _ _ _ _).mp hread
    rw [chromaEncode_of_inRange c _ par (hw _ _ hx hy)] at hmal
    cases hmal

/-- Settles O57: the run passes all its items exactly when the reads of a frame are inside the image. -/
theorem smallImageFaults : Obligations.SmallImageFaults := by
  intro c src hc hw
  obtain ⟨t, hrun, -, hstands⟩ := runSteps_standsAt src hc le_rfl
  have hiff : GoodBefore c src 642 ↔ xsMax c + 1 ≤ src.width ∧ 576 ≤ src.height := goodBefore_end_iff hc hw
  rw [StandsAt, hiff] at hstands
  refine ⟨t, hrun, ?_⟩
  obtain ⟨hlarge, -, hst⟩ | ⟨hsmall, hst, herr⟩ := hstands
  · exact ⟨iff_of_true hst hlarge, fun h => absurd hlarge h⟩
  · exact ⟨iff_of_false (by simp [hst]) hsmall, fun _ => ⟨hst, herr.code_of_wellColored hw⟩⟩

/-! ### Pixels a frame never reads -/

theorem activeColumns_congr {c : Cfg} {a b : PixelSource} {ys : Nat} (par : Bool) {xs : List Nat}
    (h : ∀ x ∈ xs, pixRead a (columnMap c x) ys = pixRead b (columnMap c x) ys) :
    activeColumns c a ys par xs = activeColumns c b ys par xs := by
  induction xs with
  | nil => rfl
  | cons x xs ih =>
    have hcol : activeColumn c a ys par x = activeColumn c b ys par x := by simp only [activeColumn, h x (by simp)]
    simp only [activeColumns, hcol, ih fun y hy => h y (by simp [hy])]

theorem AgreeOnReads.activeVideo_eq {c : Cfg} {a b : PixelSource} (h : AgreeOnReads c a b) {ys : Nat}
    (hys : ys < sourceRows) (par : Bool) : activeVideo c a ys par = activeVideo c b ys par :=
  activeColumns_congr par fun x hx => h x ys (List.mem_range.mp hx) hys

theorem execActive_withSource {a b : PixelSource} {s u : State} {row : Nat} {par : Bool} (hs : s.source = some a)
    (hv : activeVideo s.cfg a row par = activeVideo s.cfg b row par) (hx : execActive row par s = .next u) :
    execActive row par { s with source := some b } = .next { u with source := some b } := by
  simp only [execActive, hs, rowOperand, hv] at hx ⊢
  generalize activeVideo s.cfg b row par = video at hx ⊢
  obtain ⟨runs, e⟩ := video
  cases e <;> (cases hx; rfl)

theorem afterItem_withSource (u : State) (o : Option PixelSource) :
    ({ u with source := o } : State).afterItem = { u.afterItem with source := o } := by
  simp only [State.afterItem, State.completeItem, advance_eq]
  split
  · rfl
  · split
    · split <;> rfl
    · rfl

/-- Two sources that agree on the reads of a frame take the same step, the source apart. -/
theorem OwnRun.step_withSource {c : Cfg} {a b : PixelSource} {s : State} (hc : c.Legal) (hab : AgreeOnReads c a b)
    (h : OwnRun c a s) :
    ∃ t, step s = .next t ∧ step { s with source := some b } = .next { t with source := some b } := by
  have hb : OwnRun c b { s with source := some b } := ⟨h.cfg, rfl, h.driver, h.inputs, h.pointerLegal⟩
  by_cases hst : s.st = .run
  · obtain ⟨p, hp, hit, hstep⟩ := h.step_of_run hc hst
    obtain ⟨p', hp', -, hstep'⟩ := hb.step_of_run hc hst
    obtain rfl : p' = p := Option.some.inj (hp'.symm.trans hp)
    obtain ⟨u, hx, -⟩ := exec_phaseInstr_outcome h.source p' s.it.toNat s.even
    have hx' : exec (phaseInstr p' s.it.toNat s.even) { s with source := some b } =
        .next { u with source := some b } := by
      by_cases hact : p'.kind = .active
      · rw [phaseInstr_of_active hact] at hx ⊢
        refine execActive_withSource h.source ?_ hx
        rw [h.cfg]
        exact hab.activeVideo_eq (row_lt_sourceRows hp hit) s.even
      · obtain ⟨rs, hplain⟩ := exec_phaseInstr_of_not_active hact s.it.toNat s.even
        rw [hplain] at hx ⊢
        cases hx
        rfl
    refine ⟨u.afterItem, by rw [hstep, hx]; rfl, ?_⟩
    rw [hstep', hx', ← afterItem_withSource]
    rfl
  · exact ⟨s, h.step_of_not_run hc hst, hb.step_of_not_run hc hst⟩

/-- Settles O60: the two runs go step by step, and each step reads only what a frame can read. -/
theorem unreadPixelsHaveNoEffect : Obligations.UnreadPixelsHaveNoEffect := by
  intro c a b k hc hab
  suffices ∃ t, runSteps k (startedRun c a) = .next t ∧ OwnRun c a t ∧
      runSteps k (startedRun c b) = .next { t with source := some b } by
    obtain ⟨t, ha, -, hb⟩ := this
    exact ⟨t, ha, hb⟩
  induction k with
  | zero => exact ⟨_, rfl, startedRun_ownRun c a, rfl⟩
  | succ k ih =>
    obtain ⟨t, ha, hown, hb⟩ := ih
    obtain ⟨u, hstep, hstep'⟩ := hown.step_withSource hc hab
    exact ⟨u, (runSteps_succ_of_run ha).trans hstep, hown.next hc hstep, (runSteps_succ_of_run hb).trans hstep'⟩

end Sys2Proof.Machine
end

section
/-! PROOF. The decoder and the encoder (spec/30_encoding.md R71 to R79, R83). `decode_cases` says once what the decoder
answers; a word's fields put together are the word, so encoding what was decoded gives the word back. -/

namespace Sys2Proof.Machine

/-! ### The fields of a word -/

theorem lcwOp_toNat (w : Lcw) : (lcwOp w).toNat = w.toNat % 8 := by
  simp [lcwOp, BitVec.extractLsb'_toNat]

theorem lcwRow_toNat (w : Lcw) : (lcwRow w).toNat = w.toNat / 16 % 1024 := by
  simp [lcwRow, BitVec.extractLsb'_toNat, Nat.shiftRight_eq_div_pow]

theorem lcwRsv_toNat (w : Lcw) : (lcwRsv w).toNat = w.toNat / 16384 := by
  have hw := w.isLt
  simp only [lcwRsv, BitVec.extractLsb'_toNat, Nat.shiftRight_eq_div_pow]
  omega

theorem lcwEven_eq (w : Lcw) : lcwEven w = (w.toNat / 8 % 2 == 1) := by
  simp only [lcwEven, BitVec.getLsbD, Nat.testBit_eq_decide_div_mod_eq]
  rfl

theorem toNat_append_eq_add {m n : Nat} (x : BitVec m) (y : BitVec n) :
    (x ++ y).toNat = x.toNat * 2 ^ n + y.toNat := by
  rw [BitVec.toNat_append, ← Nat.shiftLeft_add_eq_or_of_lt y.isLt, Nat.shiftLeft_eq]

theorem lcwWord_toNat (row : BitVec 10) (even : Bool) (op : BitVec 3) :
    (lcwWord row even op).toNat = row.toNat * 16 + even.toNat * 8 + op.toNat := by
  simp only [lcwWord, toNat_append_eq_add, BitVec.toNat_ofBool, BitVec.toNat_ofNat]
  omega

/-- A word whose RSV is 0 is its other fields put together. -/
theorem lcwWord_fields {w : Lcw} (hrsv : lcwRsv w = 0#2) : lcwWord (lcwRow w) (lcwEven w) (lcwOp w) = w := by
  have hrsv' : w.toNat / 16384 = 0 := by rw [← lcwRsv_toNat, hrsv]; rfl
  have heven : (lcwEven w).toNat = w.toNat / 8 % 2 := by
    rw [lcwEven_eq]
    rcases Nat.mod_two_eq_zero_or_one (w.toNat / 8) with h | h <;> simp [h]
  apply BitVec.eq_of_toNat_eq
  rw [lcwWord_toNat, heven, lcwRow_toNat, lcwOp_toNat]
  omega

/-! ### What the decoder answers -/

/-- The words that decode to an instruction: a reserved OP, or a legal command word (R75). -/
def HasInstr (w : Lcw) : Prop :=
  lcwOp w = 6#3 ∨ lcwOp w = 7#3 ∨ lcwRsv w = 0#2 ∧ (lcwOp w = 3#3 ∨ lcwRow w = 0#10)

/-- The decoder answers with the instruction of OP, or rejects the word by name. -/
theorem decode_cases (w : Lcw) :
    (HasInstr w ∧ decode w = .instr (decodeOp w)) ∨ (¬ HasInstr w ∧ ∃ why, decode w = .illegal why w) := by
  unfold decode HasInstr
  split
  next hop => exact .inl ⟨by tauto, rfl⟩
  next hop =>
    split
    next hrsv => exact .inr ⟨by tauto, _, rfl⟩
    next hrsv =>
      split
      next hact => exact .inl ⟨by tauto, rfl⟩
      next hact =>
        split
        next hrow => exact .inr ⟨by tauto, _, rfl⟩
        next hrow => exact .inl ⟨by tauto, rfl⟩

theorem decode_of_hasInstr {w : Lcw} (h : HasInstr w) : decode w = .instr (decodeOp w) := by
  obtain ⟨-, hd⟩ | ⟨hn, -⟩ := decode_cases w
  · exact hd
  · exact absurd h hn

theorem decode_of_not_hasInstr {w : Lcw} (h : ¬ HasInstr w) : ∃ why, decode w = .illegal why w := by
  obtain ⟨hi, -⟩ | ⟨-, hd⟩ := decode_cases w
  · exact absurd hi h
  · exact hd

theorem decode_eq_instr_iff {w : Lcw} {i : Instr} : decode w = .instr i ↔ HasInstr w ∧ decodeOp w = i := by
  obtain ⟨hi, hd⟩ | ⟨hn, why, hd⟩ := decode_cases w
  · simp [hd, hi]
  · simp [hd, hn]

theorem decode_reservedOp6 {w : Lcw} (h : lcwOp w = 6#3) : decode w = .instr (.reservedOp6 w) :=
  decode_eq_instr_iff.2 ⟨.inl h, by simp [decodeOp, h]⟩

theorem decode_reservedOp7 {w : Lcw} (h : lcwOp w = 7#3) : decode w = .instr (.reservedOp7 w) :=
  decode_eq_instr_iff.2 ⟨.inr (.inl h), by simp [decodeOp, h]⟩

/-- Settles O2, constructor by constructor. -/
theorem decodeOfEncodeIsTheInstruction : Obligations.DecodeOfEncodeIsTheInstruction := by
  intro i hi
  cases i with
  | long par => exact (decode_lcwWord_plain par).1
  | short par => exact (decode_lcwWord_plain par).2.1
  | blank par => exact (decode_lcwWord_plain par).2.2.1
  | active row par =>
    have hrow : row < 1024 := of_decide_eq_true hi
    rw [encode, decode_lcwWord, BitVec.toNat_ofNat, Nat.mod_eq_of_lt hrow]
  | half par => exact (decode_lcwWord_plain par).2.2.2.1
  | tail par => exact (decode_lcwWord_plain par).2.2.2.2
  | reservedOp6 w => exact decode_reservedOp6 (eq_of_beq hi)
  | reservedOp7 w => exact decode_reservedOp7 (eq_of_beq hi)

/-! ### The instruction of a word -/

/-- The eight values of OP, each with the instruction the decoder makes of it (R74). -/
theorem decodeOp_cases (w : Lcw) :
    (lcwOp w = 0#3 ∧ decodeOp w = .long (lcwEven w)) ∨ (lcwOp w = 1#3 ∧ decodeOp w = .short (lcwEven w)) ∨
    (lcwOp w = 2#3 ∧ decodeOp w = .blank (lcwEven w)) ∨
    (lcwOp w = 3#3 ∧ decodeOp w = .active (lcwRow w).toNat (lcwEven w)) ∨
    (lcwOp w = 4#3 ∧ decodeOp w = .half (lcwEven w)) ∨ (lcwOp w = 5#3 ∧ decodeOp w = .tail (lcwEven w)) ∨
    (lcwOp w = 6#3 ∧ decodeOp w = .reservedOp6 w) ∨ (lcwOp w = 7#3 ∧ decodeOp w = .reservedOp7 w) := by
  have hall : ∀ op : BitVec 3, op = 0#3 ∨ op = 1#3 ∨ op = 2#3 ∨ op = 3#3 ∨ op = 4#3 ∨ op = 5#3 ∨ op = 6#3 ∨
      op = 7#3 := by decide
  rcases hall (lcwOp w) with h | h | h | h | h | h | h | h <;> simp [decodeOp, h]

theorem decodeOp_wellFormed (w : Lcw) : (decodeOp w).wellFormed = true := by
  obtain ⟨-, h⟩ | ⟨-, h⟩ | ⟨-, h⟩ | ⟨-, h⟩ | ⟨-, h⟩ | ⟨-, h⟩ | ⟨hop, h⟩ | ⟨hop, h⟩ := decodeOp_cases w <;>
    rw [h]
  · rfl
  · rfl
  · rfl
  · exact decide_eq_true (lcwRow w).isLt
  · rfl
  · rfl
  · exact beq_iff_eq.2 hop
  · exact beq_iff_eq.2 hop

/-- A command word that takes no row has ROW = 0 (R75), so it is its parity and OP put together. -/
theorem lcwWord_plain {w : Lcw} {op : BitVec 3} (hi : HasInstr w) (hop : lcwOp w = op) (h3 : op ≠ 3#3)
    (h6 : op ≠ 6#3) (h7 : op ≠ 7#3) : lcwWord 0#10 (lcwEven w) op = w := by
  subst hop
  obtain h | h | ⟨hrsv, h | hrow⟩ := hi
  · exact absurd h h6
  · exact absurd h h7
  · exact absurd h h3
  · rw [← hrow, lcwWord_fields hrsv]

theorem lcwWord_active {w : Lcw} (hi : HasInstr w) (hop : lcwOp w = 3#3) :
    lcwWord (lcwRow w) (lcwEven w) 3#3 = w := by
  rw [← hop]
  obtain h | h | ⟨hrsv, -⟩ := hi
  · simp [hop] at h
  · simp [hop] at h
  · exact lcwWord_fields hrsv

/-- Encoding the instruction of a word puts the word's fields together again. -/
theorem encode_decodeOp {w : Lcw} (hi : HasInstr w) : encode (decodeOp w) = w := by
  obtain ⟨hop, h⟩ | ⟨hop, h⟩ | ⟨hop, h⟩ | ⟨hop, h⟩ | ⟨hop, h⟩ | ⟨hop, h⟩ | ⟨-, h⟩ | ⟨-, h⟩ := decodeOp_cases w <;>
    rw [h]
  · exact lcwWord_plain hi hop (by decide) (by decide) (by decide)
  · exact lcwWord_plain hi hop (by decide) (by decide) (by decide)
  · exact lcwWord_plain hi hop (by decide) (by decide) (by decide)
  · rw [encode, BitVec.ofNat_toNat, BitVec.setWidth_eq, lcwWord_active hi hop]
  · exact lcwWord_plain hi hop (by decide) (by decide) (by decide)
  · exact lcwWord_plain hi hop (by decide) (by decide) (by decide)
  · rfl
  · rfl

/-- Settles O3: what the decoder reads is the instruction of OP. -/
theorem encodeOfDecodeIsTheWord : Obligations.EncodeOfDecodeIsTheWord := by
  intro w i h
  obtain ⟨hi, rfl⟩ := decode_eq_instr_iff.1 h
  exact ⟨decodeOp_wellFormed w, encode_decodeOp hi⟩

/-! ### The procedure of R79, on the word's number -/

theorem lcwOp_eq_iff (w : Lcw) {n : Nat} (hn : n < 8) : lcwOp w = BitVec.ofNat 3 n ↔ w.toNat % 8 = n := by
  rw [← BitVec.toNat_inj, lcwOp_toNat, BitVec.toNat_ofNat, Nat.mod_eq_of_lt hn]

theorem lcwRow_eq_zero_iff (w : Lcw) : lcwRow w = 0#10 ↔ w.toNat / 16 % 1024 = 0 := by
  rw [← BitVec.toNat_inj, lcwRow_toNat]
  rfl

theorem lcwRsv_eq_zero_iff (w : Lcw) : lcwRsv w = 0#2 ↔ w.toNat / 16384 = 0 := by
  rw [← BitVec.toNat_inj, lcwRsv_toNat]
  rfl

theorem hasInstr_iff (w : Lcw) :
    HasInstr w ↔ w.toNat % 8 = 6 ∨ w.toNat % 8 = 7 ∨
      w.toNat / 16384 = 0 ∧ (w.toNat % 8 = 3 ∨ w.toNat / 16 % 1024 = 0) := by
  rw [HasInstr, lcwOp_eq_iff w (by omega), lcwOp_eq_iff w (by omega), lcwOp_eq_iff w (by omega), lcwRow_eq_zero_iff,
    lcwRsv_eq_zero_iff]

theorem decodeOp_active (w : Lcw) (hop : w.toNat % 8 = 3) :
    decodeOp w = .active (lcwRow w).toNat (lcwEven w) := by
  simp only [decodeOp, lcwOp_toNat, hop]

/-- The instruction of a command word that takes no row, on the number of its OP (R74). -/
theorem decodeOp_plain (w : Lcw) (hop : w.toNat % 8 < 6) (h3 : w.toNat % 8 ≠ 3) :
    decodeOp w = if w.toNat % 8 = 0 then .long (lcwEven w) else if w.toNat % 8 = 1 then .short (lcwEven w)
      else if w.toNat % 8 = 2 then .blank (lcwEven w) else if w.toNat % 8 = 4 then .half (lcwEven w)
      else .tail (lcwEven w) := by
  rw [decodeOp, lcwOp_toNat]
  generalize w.toNat % 8 = op at hop h3 ⊢
  interval_cases op
  · rfl
  · rfl
  · rfl
  · exact absurd rfl h3
  · rfl
  · rfl

/-- Settles O4: whether a word decodes, and to what, by the number of its OP. -/
theorem decodeFollowsTheProcedure : Obligations.DecodeFollowsTheProcedure := by
  intro w
  have hinstr := hasInstr_iff w
  have accepts := fun h => decode_of_hasInstr (hinstr.2 h)
  have rejects := fun h => decode_of_not_hasInstr (mt hinstr.1 h)
  refine ⟨fun hop => decode_reservedOp6 ((lcwOp_eq_iff w (by omega)).2 hop),
    fun hop => decode_reservedOp7 ((lcwOp_eq_iff w (by omega)).2 hop),
    fun hop hrsv => rejects (by omega), fun hop hrsv => ?_,
    fun hop h3 hrsv hrow => rejects (by omega), fun hop h3 hrsv hrow => ?_⟩
  · rw [accepts (by omega), decodeOp_active w hop, lcwEven_eq, lcwRow_toNat]
  · rw [accepts (by omega), decodeOp_plain w hop h3, lcwEven_eq]

/-! ### The words of the schedule -/

/-- R83's arithmetic for ACTIVE, the row shifted into place over EVEN and OP, is the layout of R71. -/
theorem activeWord_eq {r : Nat} (hr : r < 1024) (even : Bool) :
    (BitVec.ofNat 16 r <<< 4) ||| (if even then 0x000B#16 else 0x0003#16) = lcwWord (BitVec.ofNat 10 r) even 3#3 := by
  have hlow : (if even then 0x000B#16 else 0x0003#16).toNat = even.toNat * 8 + 3 := by cases even <;> rfl
  have hshift : (BitVec.ofNat 16 r <<< 4).toNat = r <<< 4 := by
    simp only [BitVec.toNat_shiftLeft, BitVec.toNat_ofNat, Nat.shiftLeft_eq]
    omega
  have heven := Bool.toNat_le even
  apply BitVec.eq_of_toNat_eq
  rw [lcwWord_toNat, BitVec.toNat_or, hshift, hlow, ← Nat.shiftLeft_add_eq_or_of_lt (by omega), Nat.shiftLeft_eq,
    BitVec.toNat_ofNat, BitVec.toNat_ofNat]
  omega

theorem decode_activeWord {r : Nat} (hr : r < 1024) (even : Bool) :
    decode ((BitVec.ofNat 16 r <<< 4) ||| (if even then 0x000B#16 else 0x0003#16)) = .instr (.active r even) := by
  rw [activeWord_eq hr, decode_lcwWord, BitVec.toNat_ofNat, Nat.mod_eq_of_lt hr]

theorem row_of_not_active {p : Phase} (h : p.kind ≠ .active) (it : Nat) : p.row it = 0 := by
  obtain ⟨kind, count, firstRow⟩ := p
  cases kind with
  | active => exact absurd rfl h
  | _ => rfl

/-- A word of a command without a row is one of the ten of R83's table. -/
theorem plainWord_mem {kind : ItemKind} (h : kind ≠ .active) (even : Bool) : lcwWord 0#10 even kind.op ∈
    [0x0008#16, 0x0000#16, 0x0009#16, 0x0001#16, 0x000A#16, 0x0002#16, 0x000C#16, 0x0004#16, 0x000D#16, 0x0005#16] := by
  cases kind with
  | active => exact absurd rfl h
  | _ => cases even <;> decide

/-- A word of R83's table: one of the ten words without a row, or an ACTIVE word of a source row. -/
theorem issueWord_canonical {ph it : Nat} {even : Bool} {w : Lcw} (h : issueWord ph it even = some w) :
    w ∈ [0x0008#16, 0x0000#16, 0x0009#16, 0x0001#16, 0x000A#16, 0x0002#16, 0x000C#16, 0x0004#16, 0x000D#16,
      0x0005#16] ∨
    ∃ r < 576, w = (BitVec.ofNat 16 r <<< 4) ||| 0x000B#16 ∨ w = (BitVec.ofNat 16 r <<< 4) ||| 0x0003#16 := by
  obtain ⟨p, hp, hit, -⟩ := issueWord_isSome h
  obtain rfl : lcwWord (BitVec.ofNat 10 (p.row it)) even p.kind.op = w :=
    Option.some.inj ((decode_issued hp hit).1.symm.trans h)
  by_cases hact : p.kind = .active
  · have hrow : p.row it < 576 := row_lt_sourceRows hp hit
    refine .inr ⟨_, hrow, ?_⟩
    rw [hact, ItemKind.op, ← activeWord_eq (by omega) even]
    cases even
    · exact .inr rfl
    · exact .inl rfl
  · rw [row_of_not_active hact]
    exact .inl (plainWord_mem hact even)

/-- Settles O1: the table's words one by one, the ACTIVE words by their row, and the issued words by their item. -/
theorem canonicalWordsDecode : Obligations.CanonicalWordsDecode :=
  ⟨by decide, by decide, by decide, by decide, by decide, by decide,
    fun _ hr => decode_activeWord hr true, fun _ hr => decode_activeWord hr false,
    by decide, by decide, by decide, by decide, by decide, by decide, by decide, by decide,
    fun _ _ _ _ => issueWord_canonical⟩

end Sys2Proof.Machine
end

section
/-! PROOF. FRAME expands to the schedule (spec/30_encoding.md R82, spec/43_frame_sequencer.md R160 to R163): R82's lists
are the phase table's items, phase after phase; an item's word and its place come from the same row of that table. -/

namespace Sys2Proof.Machine

/-- The items of one phase: kind and row. -/
def phaseItems (p : Phase) : List (ItemKind × Nat) := (List.range p.count).map fun it => (p.kind, p.row it)

@[simp] theorem phaseItems_length (p : Phase) : (phaseItems p).length = p.count := by simp [phaseItems]

/-- R82's lists are the phase table's items. -/
theorem frameItems_eq : field1Items ++ field2Items = phaseTable.flatMap phaseItems := by
  simp [field1Items, field2Items, phaseTable, phaseItems, Phase.row, itemsLong, itemsShort, itemsBlank, itemsActive]

/-- An item stands in its phase, after the items of the phases before it (R22). -/
theorem getElem?_flatMap_phaseItems {ps : List Phase} {ph it : Nat} {p : Phase} (hp : ps[ph]? = some p)
    (hit : it < p.count) :
    (ps.flatMap phaseItems)[((ps.take ph).map Phase.count).sum + it]? = some (p.kind, p.row it) := by
  induction ps generalizing ph with
  | nil => simp at hp
  | cons q ps ih =>
    cases ph with
    | zero =>
      obtain rfl : q = p := by simpa using hp
      simp [phaseItems, hit, List.getElem?_append_left]
    | succ ph =>
      have hplace : (((q :: ps).take (ph + 1)).map Phase.count).sum + it =
          (phaseItems q).length + (((ps.take ph).map Phase.count).sum + it) := by simp [Nat.add_assoc]
      rw [hplace, List.flatMap_cons, List.getElem?_append_right (Nat.le_add_right _ _), Nat.add_sub_cancel_left]
      exact ih hp

/-! ### The expansion of a list of items -/

theorem expandItems_append (n : Nat) (l m : List (ItemKind × Nat)) :
    expandItems n (l ++ m) = expandItems n l ++ expandItems (n + l.length) m := by
  induction l generalizing n with
  | nil => rfl
  | cons e l ih => simp [expandItems, ih, Nat.add_assoc, Nat.add_comm 1]

@[simp] theorem expandItems_length (n : Nat) (l : List (ItemKind × Nat)) : (expandItems n l).length = l.length := by
  induction l generalizing n with
  | nil => rfl
  | cons e l ih => simp [expandItems, ih]

theorem getElem?_expandItems {n k : Nat} {l : List (ItemKind × Nat)} {kind : ItemKind} {row : Nat}
    (h : l[k]? = some (kind, row)) : (expandItems n l)[k]? = some (itemInstr kind row ((n + k) % 2 == 0)) := by
  induction l generalizing n k with
  | nil => simp at h
  | cons e l ih =>
    cases k with
    | zero =>
      obtain rfl : e = (kind, row) := by simpa using h
      rfl
    | succ k =>
      have hrest := ih (n := n + 1) (k := k) (by simpa using h)
      rw [Nat.add_assoc, Nat.add_comm 1] at hrest
      simpa [expandItems] using hrest

theorem field1Items_length : field1Items.length = 320 := by simp [field1Items]

theorem field2Items_length : field2Items.length = 322 := by simp [field2Items]

/-- FIELD2's indices go on from FIELD1's, so FRAME is one expansion. -/
theorem frameInstrs_eq : frameInstrs = expandItems 0 (phaseTable.flatMap phaseItems) := by
  rw [← frameItems_eq, expandItems_append, field1Items_length]
  rfl

/-! ### The words of the items -/

/-- The word of an item's command is the word the FrameSequencer forms (R162). -/
theorem encode_itemInstr (p : Phase) (it : Nat) (par : Bool) :
    encode (itemInstr p.kind (p.row it) par) = lcwWord (BitVec.ofNat 10 (p.row it)) par p.kind.op := by
  obtain ⟨kind, count, firstRow⟩ := p
  cases kind <;> rfl

theorem frameWords_getElem? {ph it : Nat} (hph : ph < 12) (hit : it < phaseCount ph) :
    AsmLine.frame.words[scheduleIndex ph it]? = issueWord ph it (scheduleIndex ph it % 2 == 0) := by
  obtain ⟨p, -, hp, hit', -⟩ := issueWord_of_item true hph hit
  have hplace : (phaseTable.flatMap phaseItems)[scheduleIndex ph it]? = some (p.kind, p.row it) :=
    getElem?_flatMap_phaseItems hp hit'
  have hitem := getElem?_expandItems (n := 0) hplace
  rw [Nat.zero_add, ← frameInstrs_eq] at hitem
  rw [AsmLine.words, List.getElem?_map, hitem, (decode_issued hp hit').1, Option.map_some, encode_itemInstr]

/-- Settles O6: an item's word stands at its index in FRAME, since both come from the phase table's rows. -/
theorem frameExpandsToTheSchedule : Obligations.FrameExpandsToTheSchedule := by
  refine ⟨List.map_append, ?_, ?_, fun _ hph _ hit => frameWords_getElem? hph hit, fun _ _ => rfl⟩
  · simp [AsmLine.words, field1Instrs, field1Items_length]
  · simp [AsmLine.words, frameInstrs, field1Instrs, field2Instrs, field1Items_length, field2Items_length]

end Sys2Proof.Machine
end

section
/-! PROOF. The canonical text assembles to its word (spec/30_encoding.md R81): a text of one line without a comment is
its tokens, and the digits a number is written with are read back as the number. -/

namespace Sys2Proof.Machine

/-! ### A text of one line -/

theorem textLines_of_not_mem {cs : List Char} (h : '\n' ∉ cs) : textLines cs = [cs] := by
  induction cs with
  | nil => rfl
  | cons c cs ih =>
    obtain ⟨hc, hcs⟩ := not_or.1 (mt List.mem_cons.2 h)
    simp [textLines, Ne.symm hc, ih hcs]

theorem stripComment_of_not_mem {cs : List Char} (h : ';' ∉ cs) : stripComment cs = cs :=
  List.takeWhile_eq_self_iff.2 fun _ hc => bne_iff_ne.2 fun he => h (he ▸ hc)

theorem assemble_of_tokens {cs t : List Char} {ts : List (List Char)} {a : AsmLine} (hline : '\n' ∉ cs)
    (hcomment : ';' ∉ cs) (htoks : tokensFrom [] cs = t :: ts) (hparse : parseTokens (t :: ts) = some a) :
    assemble cs = some a.words := by
  simp [assemble, textLines_of_not_mem hline, assembleLines, lineTokens, stripComment_of_not_mem hcomment, htoks,
    hparse]

/-- A character that a token takes as it stands. -/
def IsTokenChar (c : Char) : Prop :=
  isBlankChar c = false ∧ c ≠ ',' ∧ upperChar c = c ∧ c ≠ '\n' ∧ c ≠ ';'

theorem tokensFrom_append {cs : List Char} (h : ∀ c ∈ cs, IsTokenChar c) (acc rest : List Char) :
    tokensFrom acc (cs ++ rest) = tokensFrom (cs.reverse ++ acc) rest := by
  induction cs generalizing acc with
  | nil => rfl
  | cons c cs ih =>
    obtain ⟨⟨hblank, hcomma, hupper, -, -⟩, hcs⟩ := List.forall_mem_cons.1 h
    simp [tokensFrom, hblank, hcomma, hupper, ih hcs]

/-! ### Decimal rows -/

theorem decimalDigit_of_isDigit {c : Char} (h : c.isDigit = true) : decimalDigit c = some (c.toNat - 48) := by
  exact if_pos (Char.isDigit_iff_toNat.1 h)

theorem isTokenChar_of_isDigit {c : Char} (h : c.isDigit = true) : IsTokenChar c := by
  have hne : ∀ d : Char, d.isDigit = false → c ≠ d := by
    rintro d hd rfl
    simp [hd] at h
  have hnum : 48 ≤ c.toNat ∧ c.toNat ≤ 57 := Char.isDigit_iff_toNat.1 h
  refine ⟨?_, hne _ rfl, if_neg (by omega), hne _ rfl, hne _ rfl⟩
  simp [isBlankChar, hne ' ' rfl, hne '\t' rfl, hne '\r' rfl]

theorem digitsFrom_decimal {cs : List Char} (h : ∀ c ∈ cs, c.isDigit = true) (acc : Nat) :
    digitsFrom 10 decimalDigit acc cs = some (Nat.ofDigitChars 10 cs acc) := by
  induction cs generalizing acc with
  | nil => rfl
  | cons c cs ih =>
    obtain ⟨hc, hcs⟩ := List.forall_mem_cons.1 h
    simp [digitsFrom, decimalDigit_of_isDigit hc, ih hcs, Nat.ofDigitChars_cons, Nat.mul_comm]

theorem isDigit_of_mem_decimal {n : Nat} {c : Char} (h : c ∈ Nat.toDigits 10 n) : c.isDigit = true :=
  Nat.isDigit_of_mem_toDigits (by decide) (by decide) h

theorem parseNatural_toDigits (n : Nat) : parseNatural (Nat.toDigits 10 n) = some n := by
  have hread : digitsFrom 10 decimalDigit 0 (Nat.toDigits 10 n) = some n := by
    rw [digitsFrom_decimal fun c => isDigit_of_mem_decimal, Nat.ofDigitChars_ten_toDigits]
  unfold parseNatural
  split
  next hnil => exact absurd hnil Nat.toDigits_ne_nil
  next => exact hread

/-! ### Hexadecimal words -/

theorem hexDigit_hexChar {n : Nat} (h : n < 16) : hexDigit (hexChar n) = some n := by
  interval_cases n <;> decide

theorem isTokenChar_hexChar {n : Nat} (h : n < 16) : IsTokenChar (hexChar n) := by
  unfold IsTokenChar
  interval_cases n <;> decide

/-- The four digits of a word's text. -/
def hexDigits (w : Lcw) : List Char :=
  [hexChar (w.toNat / 4096 % 16), hexChar (w.toNat / 256 % 16), hexChar (w.toNat / 16 % 16), hexChar (w.toNat % 16)]

theorem hexText_eq (w : Lcw) : hexText w = '0' :: 'x' :: hexDigits w := rfl

theorem isTokenChar_of_mem_hexDigits {w : Lcw} {c : Char} (h : c ∈ hexDigits w) : IsTokenChar c := by
  have hmod (n : Nat) : n % 16 < 16 := Nat.mod_lt n (by decide)
  simp only [hexDigits, List.mem_cons, List.not_mem_nil, or_false] at h
  obtain rfl | rfl | rfl | rfl := h <;> exact isTokenChar_hexChar (hmod _)

/-- The digits of a word in base 16, put together again, are the word. -/
theorem parseHexWord_hexDigits (w : Lcw) : parseHexWord ('0' :: 'X' :: hexDigits w) = some w := by
  have hmod (n : Nat) : hexDigit (hexChar (n % 16)) = some (n % 16) := hexDigit_hexChar (Nat.mod_lt n (by decide))
  have hw := w.isLt
  have hread : digitsFrom 16 hexDigit 0 (hexDigits w) = some w.toNat := by
    simp only [hexDigits, digitsFrom, hmod, Option.some.injEq]
    omega
  have hlen : (hexDigits w).length = 4 := rfl
  simp only [parseHexWord, hlen, hread, if_true, Option.map_some, BitVec.ofNat_toNat, BitVec.setWidth_eq]

/-! ### The canonical texts -/

/-- The parity's token: its text in upper case. -/
def parToken (par : Bool) : List Char := (parText par).map upperChar

theorem parsePar_parToken (par : Bool) : parsePar (parToken par) = some par := by cases par <;> rfl

theorem tokensFrom_activeText (row : Nat) (par : Bool) : tokensFrom [] (instrText (.active row par)) =
    [['A', 'C', 'T', 'I', 'V', 'E'], Nat.toDigits 10 row, [','], parToken par] := by
  have hrest (acc : List Char) (hacc : acc ≠ []) :
      tokensFrom acc ([',', ' '] ++ parText par) = [acc.reverse, [','], parToken par] := by
    obtain ⟨c, cs, rfl⟩ := List.exists_cons_of_ne_nil hacc
    cases par <;> rfl
  calc tokensFrom [] (instrText (.active row par))
      = ['A', 'C', 'T', 'I', 'V', 'E'] :: tokensFrom [] (Nat.toDigits 10 row ++ ([',', ' '] ++ parText par)) := by
        simp only [instrText, List.append_assoc]
        rfl
    _ = _ := by
        rw [tokensFrom_append fun _ hc => isTokenChar_of_isDigit (isDigit_of_mem_decimal hc), List.append_nil,
          hrest _ (by simp [Nat.toDigits_ne_nil]), List.reverse_reverse]

theorem tokensFrom_wordText (w : Lcw) :
    tokensFrom [] (wordText w) = [['.', 'W', 'O', 'R', 'D'], '0' :: 'X' :: hexDigits w] :=
  calc tokensFrom [] (wordText w)
      = ['.', 'W', 'O', 'R', 'D'] :: tokensFrom ['X', '0'] (hexDigits w ++ []) := rfl
    _ = _ := by
        rw [tokensFrom_append fun _ => isTokenChar_of_mem_hexDigits]
        rfl

theorem assemble_activeText {row : Nat} (hrow : row < 1024) (par : Bool) :
    assemble (instrText (.active row par)) = some [encode (.active row par)] := by
  have habsent (d : Char) (hd : ¬ IsTokenChar d) : d ∉ Nat.toDigits 10 row := fun h =>
    hd (isTokenChar_of_isDigit (isDigit_of_mem_decimal h))
  have hline := habsent '\n' (by simp [IsTokenChar])
  have hcomment := habsent ';' (by simp [IsTokenChar])
  refine assemble_of_tokens ?_ ?_ (tokensFrom_activeText row par) (a := .command (.instr (.active row par))) ?_
  · cases par <;> simp [instrText, parText, hline]
  · cases par <;> simp [instrText, parText, hcomment]
  · simp [parseTokens, parseCommand, parseNatural_toDigits, parsePar_parToken, hrow]

theorem assemble_wordText (w : Lcw) : assemble (wordText w) = some [w] := by
  have habsent (d : Char) (hd : ¬ IsTokenChar d) : d ∉ hexDigits w := fun h => hd (isTokenChar_of_mem_hexDigits h)
  have hline := habsent '\n' (by simp [IsTokenChar])
  have hcomment := habsent ';' (by simp [IsTokenChar])
  refine assemble_of_tokens ?_ ?_ (tokensFrom_wordText w) (a := .command (.word w)) ?_
  · simp [wordText, hexText_eq, hline]
  · simp [wordText, hexText_eq, hcomment]
  · simp [parseTokens, parseCommand, parseHexWord_hexDigits]

/-- Settles O5: the texts without a number are read as they stand, the others by their digits. -/
theorem canonicalTextAssembles : Obligations.CanonicalTextAssembles := by
  intro i hi
  cases i with
  | active row par => exact assemble_activeText (of_decide_eq_true hi) par
  | reservedOp6 w => exact assemble_wordText w
  | reservedOp7 w => exact assemble_wordText w
  | long par => cases par <;> rfl
  | short par => cases par <;> rfl
  | blank par => cases par <;> rfl
  | half par => cases par <;> rfl
  | tail par => cases par <;> rfl

end Sys2Proof.Machine
end

section
/-! PROOF. The TimingCompiler's one conversion (spec/40_timing_compiler.md R100): `samples(d)` is `rhe(d * FS)`, and R25 and
R26 make every duration it is given non-negative. -/

namespace Sys2Proof.Machine

/-! ### The conversion -/

/-- Halfway between two integers, `rhe` is the even one. -/
theorem rhe_add_half (m : Int) : rhe ((m : Rat) + 1 / 2) = if m % 2 = 0 then m else m + 1 := by
  obtain ⟨hlo, hhi, hdown, hup⟩ := rhe_spec ((m : Rat) + 1 / 2)
  have hge : m ≤ rhe ((m : Rat) + 1 / 2) := by
    rw [← Int.cast_le (R := Rat)]
    linarith
  have hle : rhe ((m : Rat) + 1 / 2) ≤ m + 1 := by
    rw [← Int.cast_le (R := Rat)]
    push_cast
    linarith
  obtain h | h : rhe ((m : Rat) + 1 / 2) = m ∨ rhe ((m : Rat) + 1 / 2) = m + 1 := by omega
  · have heven : m % 2 = 0 := by
      rw [h] at hdown
      exact hdown (by ring)
    rw [h, if_pos heven]
  · have hodd : (m + 1) % 2 = 0 := by
      rw [h] at hup
      exact hup (by push_cast; ring)
    rw [h, if_neg (by omega)]

@[simp] theorem samples_zero (c : Cfg) : samples c 0 = 0 := by
  have h : rhe 0 = 0 := rhe_intCast 0
  simp [samples, h]

theorem samples_of_tie {c : Cfg} {d : Rat} {m : Nat} (h : d * c.fs = m + 1 / 2) :
    samples c d = if m % 2 = 0 then m else m + 1 := by
  have htie := rhe_add_half m
  rw [Int.cast_natCast, ← h] at htie
  rw [samples, htie]
  split <;> split <;> omega

theorem samples_eq_zero_of_lt_half {c : Cfg} {d : Rat} (hfs : 0 < c.fs) (hd : 0 ≤ d) (h : d * c.fs < 1 / 2) :
    samples c d = 0 := by
  have hnonneg : 0 ≤ d * c.fs := mul_nonneg hd hfs.le
  have hrhe : rhe (d * c.fs) = 0 := rhe_unique _ _ (by push_cast; linarith) (by push_cast; linarith)
  rw [samples, hrhe, Int.toNat_zero]

/-! ### The durations that are converted -/

theorem burstDuration_nonneg {c : Cfg} (hc : c.Legal) : 0 ≤ burstDuration c := by
  obtain ⟨⟨-, hfSc, -⟩, -⟩ := hc
  exact div_nonneg (Nat.cast_nonneg _) hfSc.le

theorem pixelDuration_nonneg {c : Cfg} (hc : c.Legal) : 0 ≤ pixelDuration c := by
  obtain ⟨⟨-, -, -, -, -, -, hactive, -⟩, -⟩ := hc
  exact div_nonneg hactive (Nat.cast_nonneg _)

/-- R26, point 1: the burst delay and the burst fit in the back porch. -/
theorem backPorch_remainder_nonneg {c : Cfg} (hc : c.Legal) :
    0 ≤ c.tBackPorch - c.tBurstDelay - burstDuration c := by
  obtain ⟨-, ⟨hfits, -⟩, -⟩ := hc
  rw [burstDuration]
  linarith

/-- R26, points 2 to 4: a pulse, or sync and back porch, fit in a half line. -/
theorem halfLine_remainders_nonneg {c : Cfg} (hc : c.Legal) :
    0 ≤ c.tLine / 2 - c.tLongPulse ∧ 0 ≤ c.tLine / 2 - c.tShortPulse ∧ 0 ≤ c.tLine / 2 - c.tHsync - c.tBackPorch := by
  obtain ⟨-, ⟨-, hlong, hshort, hlead, -⟩, -⟩ := hc
  exact ⟨sub_nonneg.2 hlong, sub_nonneg.2 hshort, by rw [sub_sub]; exact sub_nonneg.2 hlead⟩

/-- Settles O8: the corner cases are those of `rhe`; R25 gives the sign of the durations of CFG, and R26 that of the
differences. -/
theorem samplesRoundsTheProduct : Obligations.SamplesRoundsTheProduct := by
  obtain ⟨hrefHsync, -⟩ := ref_counts
  refine ⟨fun c d hc hd => ?_, hrefHsync, fun c hc => ?_⟩
  · obtain ⟨⟨hfs, -⟩, -⟩ := hc
    exact ⟨samples_eq_rhe c d hfs hd, samples_zero c, fun _ => samples_of_tie, samples_eq_zero_of_lt_half hfs hd⟩
  · obtain ⟨hlongR, hshortR, htailfill⟩ := halfLine_remainders_nonneg hc
    have hburst := burstDuration_nonneg hc
    have hpixel := pixelDuration_nonneg hc
    have hbprem := backPorch_remainder_nonneg hc
    obtain ⟨⟨-, -, hline, hhsync, hbdelay, -, hactive, hfront, hlong, hshort, -⟩, -⟩ := hc
    exact ⟨hhsync, hbdelay, hburst, hbprem, hactive, hpixel, hfront, hlong, hlongR, hshort, hshortR,
      div_nonneg hline.le zero_le_two, htailfill⟩

end Sys2Proof.Machine
end

section
/-! PROOF. The ChromaEncoder (spec/41_chroma_encoder.md R110 to R118): the component check, ENCODE as polynomials of the
components, the ranges and their extremes, and the grey axis. -/

namespace Sys2Proof.Machine

/-! ### The component check -/

theorem chromaEncode_of_bad_r {p : Rgb} (hr : p.r < 0 ∨ 255 < p.r) (c : Cfg) (par : Bool) :
    chromaEncode c p par = .malformed 0#2 p.r :=
  if_pos ((componentBad_iff _).2 hr)

theorem chromaEncode_of_bad_g {p : Rgb} (hr : 0 ≤ p.r ∧ p.r ≤ 255) (hg : p.g < 0 ∨ 255 < p.g) (c : Cfg) (par : Bool) :
    chromaEncode c p par = .malformed 1#2 p.g := by
  simp only [chromaEncode, componentBad_iff]
  rw [if_neg (by omega), if_pos hg]

theorem chromaEncode_of_bad_b {p : Rgb} (hr : 0 ≤ p.r ∧ p.r ≤ 255) (hg : 0 ≤ p.g ∧ p.g ≤ 255)
    (hb : p.b < 0 ∨ 255 < p.b) (c : Cfg) (par : Bool) : chromaEncode c p par = .malformed 2#2 p.b := by
  simp only [chromaEncode, componentBad_iff]
  rw [if_neg (by omega), if_neg (by omega), if_pos hb]

/-- A component is outside [0, 255] or inside it. -/
theorem component_bad_or_good (z : Int) : (z < 0 ∨ 255 < z) ∨ 0 ≤ z ∧ z ≤ 255 := by omega

/-- Settles O13: the cases are the first bad component, or a sample when there is none. -/
theorem componentCheckReportsTheFirst : Obligations.ComponentCheckReportsTheFirst := by
  intro c p par comp val
  constructor
  · intro h
    obtain hr | hr := component_bad_or_good p.r
    · cases (chromaEncode_of_bad_r hr c par).symm.trans h
      exact .inl ⟨hr, rfl, rfl⟩
    obtain hg | hg := component_bad_or_good p.g
    · cases (chromaEncode_of_bad_g hr hg c par).symm.trans h
      exact .inr (.inl ⟨hr, hg, rfl, rfl⟩)
    obtain hb | hb := component_bad_or_good p.b
    · cases (chromaEncode_of_bad_b hr hg hb c par).symm.trans h
      exact .inr (.inr ⟨hr, hg, hb, rfl, rfl⟩)
    · cases (chromaEncode_of_inRange c p par ⟨hr.1, hr.2, hg.1, hg.2, hb.1, hb.2⟩).symm.trans h
  · rintro (⟨hr, rfl, rfl⟩ | ⟨hr, hg, rfl, rfl⟩ | ⟨hr, hg, hb, rfl, rfl⟩)
    · exact chromaEncode_of_bad_r hr c par
    · exact chromaEncode_of_bad_g hr hg c par
    · exact chromaEncode_of_bad_b hr hg hb c par

/-! ### Y, U and V over a common denominator -/

theorem lumaY_normalized (r g b : Rat) :
    lumaY (r / 255) (g / 255) (b / 255) = (299 * r + 587 * g + 114 * b) / 255000 := by
  rw [lumaY]
  ring

theorem chromaU_normalized (r g b : Rat) :
    chromaU (r / 255) (g / 255) (b / 255) = (-147 * r - 289 * g + 436 * b) / 255000 := by
  rw [chromaU]
  ring

theorem chromaV_normalized (r g b : Rat) :
    chromaV (r / 255) (g / 255) (b / 255) = (615 * r - 515 * g - 100 * b) / 255000 := by
  rw [chromaV]
  ring

/-- Settles O12: R112 to R114 with the division by 255 brought out of Y, U and V. -/
theorem encodeOfWellFormedPixel : Obligations.EncodeOfWellFormedPixel := by
  intro c p par hp
  rw [chromaEncode_of_inRange c p par hp, lumaY_normalized, chromaU_normalized, chromaV_normalized, lumaLevel, paritySign]

/-! ### The ranges and their extremes -/

/-- The answer for a well-formed pixel whose U is known. -/
theorem chromaEncode_of_chromaU {p : Rgb} (hp : p.inRange) {u : Rat}
    (hu : chromaU (p.r / 255) (p.g / 255) (p.b / 255) = u) (c : Cfg) (par : Bool) :
    ∃ luma v, chromaEncode c p par = .sample luma u v :=
  hu ▸ ⟨_, _, chromaEncode_of_inRange c p par hp⟩

/-- The answer at even parity for a well-formed pixel whose V is known. -/
theorem chromaEncode_of_chromaV {p : Rgb} (hp : p.inRange) {v : Rat}
    (hv : chromaV (p.r / 255) (p.g / 255) (p.b / 255) = v) (c : Cfg) :
    ∃ luma u, chromaEncode c p true = .sample luma u v :=
  hv ▸ ⟨_, _, chromaEncode_of_inRange c p true hp⟩

/-- Settles O14: Y, U and V are linear in components of [0, 1], and the extremes are at blue, yellow, red and cyan. -/
theorem encodeRanges : Obligations.EncodeRanges := by
  refine ⟨?range_y, ?ranges,
    chromaEncode_of_chromaU (by decide) (by norm_num [chromaU]),
    chromaEncode_of_chromaU (by decide) (by norm_num [chromaU]),
    chromaEncode_of_chromaV (by decide) (by norm_num [chromaV]),
    chromaEncode_of_chromaV (by decide) (by norm_num [chromaV])⟩
  case range_y =>
    rintro p ⟨hr0, hr1, hg0, hg1, hb0, hb1⟩
    exact (yuv_bounds (normalized_bounds hr0 hr1) (normalized_bounds hg0 hg1) (normalized_bounds hb0 hb1)).1
  case ranges =>
    intro c p par luma u v hc _ h
    obtain ⟨⟨hl0, hl1⟩, ⟨hu0, hu1⟩, hv⟩ := chromaEncode_sample_bounds hc h
    exact ⟨hl0, hl1, hu0, hu1, hv⟩

/-! ### The grey axis -/

/-- The coefficients of Y sum to 1 (R118). -/
@[simp] theorem lumaY_grey (y : Rat) : lumaY y y y = y := by
  rw [lumaY]
  ring

/-- The coefficients of U sum to 0 (R118). -/
@[simp] theorem chromaU_grey (y : Rat) : chromaU y y y = 0 := by
  rw [chromaU]
  ring

/-- The coefficients of V sum to 0 (R118). -/
@[simp] theorem chromaV_grey (y : Rat) : chromaV y y y = 0 := by
  rw [chromaV]
  ring

@[simp] theorem paritySign_zero (par : Bool) : paritySign par 0 = 0 := by
  cases par <;> simp [paritySign]

@[simp] theorem lumaLevel_zero (c : Cfg) : lumaLevel c 0 = c.levelBlack := by
  simp [lumaLevel]

@[simp] theorem lumaLevel_one (c : Cfg) : lumaLevel c 1 = c.levelWhite := by
  simp [lumaLevel]

theorem chromaEncode_grey {g : Int} (h0 : 0 ≤ g) (h1 : g ≤ 255) (c : Cfg) (par : Bool) :
    chromaEncode c ⟨g, g, g⟩ par = .sample (lumaLevel c (g / 255)) 0 0 := by
  rw [chromaEncode_of_inRange c _ par ⟨h0, h1, h0, h1, h0, h1⟩, lumaY_grey, chromaU_grey, chromaV_grey, paritySign_zero]

/-- Settles O15: on the grey axis Y is the common component, and black and white are its ends. -/
theorem greyAxisIsExact : Obligations.GreyAxisIsExact := by
  intro c g par h0 h1
  refine ⟨chromaEncode_grey h0 h1 c par, ?black, ?white, lumaY_grey _, rfl⟩
  case black => simpa using chromaEncode_grey (g := 0) (by decide) (by decide) c par
  case white => simpa using chromaEncode_grey (g := 255) (by decide) (by decide) c par

end Sys2Proof.Machine
end

section
/-! PROOF. What each command of the LineBuilder does, as an equation of states (spec/42_line_builder.md R132 to R145). A
command that reads no pixel appends a fixed list of runs. An active line appends its lead, the runs of the columns
before the first offence, and, if there is none, the front porch. -/

namespace Sys2Proof.Machine

/-! ### The commands that read no pixel -/

/-- Appending runs, with the new buffers and the new count written out. -/
theorem appendAll_eq_of {s : State} {rs : List Run} {l : List LumaRun} {c : List ChromaRun} {n : Nat}
    (hl : s.lbuf ++ rs.map Run.toLuma = l) (hc : s.cbuf ++ rs.map Run.toChroma = c)
    (hn : s.nOut + runSamples rs = n) : s.appendAll rs = { s with lbuf := l, cbuf := c, nOut := n } := by
  subst hl hc hn
  rfl

theorem longRuns_samples (c : Cfg) : runSamples (longRuns c) = nLongP c + nLongR c := rfl

theorem shortRuns_samples (c : Cfg) : runSamples (shortRuns c) = nShortP c + nShortR c := rfl

theorem blankRuns_samples (c : Cfg) (par : Bool) :
    runSamples (blankRuns c par) = leadSamples c + nActive c + nFront c := by
  rw [blankRuns, runSamples_append, runSamples_append, lead_samples]
  rfl

theorem halfRuns_samples (c : Cfg) : runSamples (halfRuns c) = nHalf c := rfl

theorem tailRuns_samples (c : Cfg) (par : Bool) : runSamples (tailRuns c par) = leadSamples c + nTailfill c := by
  rw [tailRuns, runSamples_append, lead_samples]
  rfl

/-- A pulse that fills its half line leaves no samples (R140, R141). -/
theorem samples_sub_eq_zero {c : Cfg} {d e : Rat} (h : d = e) : samples c (e - d) = 0 := by
  rw [h, sub_self, samples_zero]

/-- Settles O16: LONG appends `longRuns`, and REF is computed. -/
theorem longAppendsItsRuns : Obligations.LongAppendsItsRuns :=
  ⟨by decide, by decide,
    fun _ s => congrArg Host.Outcome.next (appendAll_eq_of rfl rfl (congrArg (s.nOut + ·) (longRuns_samples ..))),
    fun _ => samples_sub_eq_zero, _, rfl, by decide +kernel⟩

/-- Settles O17: SHORT appends `shortRuns`, and REF is computed. -/
theorem shortAppendsItsRuns : Obligations.ShortAppendsItsRuns :=
  ⟨by decide, by decide,
    fun _ s => congrArg Host.Outcome.next (appendAll_eq_of rfl rfl (congrArg (s.nOut + ·) (shortRuns_samples ..))),
    fun _ => samples_sub_eq_zero, _, rfl, by decide +kernel⟩

/-- Settles O18: BLANK appends `blankRuns`, in which only the burst run names the parity. -/
theorem blankAppendsItsRuns : Obligations.BlankAppendsItsRuns :=
  ⟨by decide, by decide,
    fun _ s => congrArg Host.Outcome.next (appendAll_eq_of rfl rfl (congrArg (s.nOut + ·) (blankRuns_samples ..))),
    _, rfl, by decide +kernel⟩

/-- Settles O19: HALF appends `halfRuns`. -/
theorem halfAppendsItsRun : Obligations.HalfAppendsItsRun :=
  ⟨by decide, by decide,
    fun _ s => congrArg Host.Outcome.next (appendAll_eq_of rfl rfl (congrArg (s.nOut + ·) (halfRuns_samples ..))),
    _, rfl, by decide +kernel⟩

/-- Settles O20: TAIL appends `tailRuns`, whose filler is one conversion of the filler's own duration. -/
theorem tailAppendsItsRuns : Obligations.TailAppendsItsRuns :=
  ⟨by decide, by decide,
    fun _ s => congrArg Host.Outcome.next (appendAll_eq_of rfl rfl (congrArg (s.nOut + ·) (tailRuns_samples ..))),
    ⟨_, rfl, by decide +kernel⟩, by decide +kernel⟩

/-! ### The visible columns -/

/-- `px` holds the runs of the first `n` visible columns of row `ys`, in increasing order: each has its pixel's encoded
value and n_pix samples (R145). -/
def IsColumnRuns (c : Cfg) (src : PixelSource) (ys : Nat) (par : Bool) (n : Nat) (px : List Run) : Prop :=
  px.length = n ∧ ∀ x < n, ∃ p luma u v, pixRead src (columnMap c x) ys = some p ∧
    chromaEncode c p par = .sample luma u v ∧ px[x]? = some ⟨.activeVideo, luma, .rat u, .rat v, nPix c⟩

theorem isColumnRuns_map {c : Cfg} {src : PixelSource} {ys : Nat} {par : Bool} {n : Nat} {f : Nat → Run}
    (hf : ∀ x < n, activeColumn c src ys par x = .run (f x)) :
    IsColumnRuns c src ys par n ((List.range n).map f) := by
  refine ⟨by simp, fun x hx => ?_⟩
  obtain ⟨p, luma, u, v, hp, he, hr⟩ := activeColumn_run (hf x hx)
  exact ⟨p, luma, u, v, hp, he, by simp [hx, hr]⟩

/-- Good columns have a run each. -/
theorem exists_columnRun {c : Cfg} {src : PixelSource} {ys n : Nat} (par : Bool)
    (h : ∀ x < n, ColumnGood src c ys x) : ∃ f : Nat → Run, ∀ x < n, activeColumn c src ys par x = .run (f x) := by
  have hrun (x : Nat) : ∃ r, x < n → activeColumn c src ys par x = .run r := by
    by_cases hx : x < n
    · obtain ⟨r, hr⟩ := (columnGood_iff c src ys par x).1 (h x hx)
      exact ⟨r, fun _ => hr⟩
    · exact ⟨plainRun .activeVideo 0 0, fun hlt => absurd hlt hx⟩
  choose f hf using hrun
  exact ⟨f, hf⟩

/-- A column that is not good raises. -/
theorem exists_columnError {c : Cfg} {src : PixelSource} {ys x : Nat} (par : Bool) (h : ¬ ColumnGood src c ys x) :
    ∃ e, activeColumn c src ys par x = .error e := by
  cases hx : activeColumn c src ys par x with
  | run r => exact absurd ((columnGood_iff c src ys par x).2 ⟨r, hx⟩) h
  | error e => exact ⟨e, rfl⟩

theorem activeVideo_of_good {c : Cfg} {src : PixelSource} {ys : Nat} {par : Bool}
    (h : ∀ x < c.nVis, ColumnGood src c ys x) :
    ∃ px, IsColumnRuns c src ys par c.nVis px ∧ activeVideo c src ys par = (px, none) := by
  obtain ⟨f, hf⟩ := exists_columnRun par h
  exact ⟨_, isColumnRuns_map hf, activeColumns_good c src ys par f _ fun x hx => hf x (List.mem_range.1 hx)⟩

/-- The columns in order are those before `x`, then `x`, then the others. -/
theorem range_split {x n : Nat} (h : x < n) : ∃ rest, List.range n = List.range x ++ x :: rest := by
  obtain ⟨k, rfl⟩ := Nat.exists_eq_add_of_lt h
  exact ⟨_, by rw [Nat.add_assoc, List.range_add, List.range_succ_eq_map, List.map_cons, Nat.add_zero]⟩

theorem activeVideo_of_first_offence {c : Cfg} {src : PixelSource} {ys x : Nat} {par : Bool} (hx : x < c.nVis)
    (hgood : ∀ y < x, ColumnGood src c ys y) (hbad : ¬ ColumnGood src c ys x) :
    ∃ px e, IsColumnRuns c src ys par x px ∧ activeColumn c src ys par x = .error e ∧
      activeVideo c src ys par = (px, some e) := by
  obtain ⟨f, hf⟩ := exists_columnRun par hgood
  obtain ⟨e, he⟩ := exists_columnError par hbad
  obtain ⟨rest, hrange⟩ := range_split hx
  refine ⟨_, e, isColumnRuns_map hf, he, ?_⟩
  rw [activeVideo, hrange]
  exact activeColumns_stops c src ys par f _ x rest e (fun y hy => hf y (List.mem_range.1 hy)) he

/-- The first columns have n_pix samples each. -/
theorem IsColumnRuns.samples {c : Cfg} {src : PixelSource} {ys n : Nat} {par : Bool} {px : List Run}
    (h : IsColumnRuns c src ys par n px) : runSamples px = n * nPix c := by
  obtain ⟨rfl, hpx⟩ := h
  refine runSamples_of_count px (nPix c) fun r hr => ?_
  obtain ⟨x, hx, rfl⟩ := List.getElem_of_mem hr
  obtain ⟨p, luma, u, v, -, -, hget⟩ := hpx x hx
  rw [List.getElem?_eq_getElem hx] at hget
  rw [Option.some.inj hget]

/-! ### ACTIVE -/

theorem execActive_of_no_source {s : State} (hs : s.source = none) (row : Nat) (par : Bool) :
    execActive row par s = .refused .pixelSourceNotAttached := by
  simp only [execActive, hs]

theorem execActive_of_whole_line {row : Nat} {par : Bool} {s : State} {src : PixelSource} {px : List Run}
    (hs : s.source = some src) (hv : activeVideo s.cfg src row par = (px, none)) :
    execActive row par s = .next { s.appendAll (horizontalSync s.cfg ++ backPorch s.cfg par ++ px ++
      frontPorch s.cfg) with x := s.cfg.nVis } := by
  simp only [execActive, hs, rowOperand, hv]

theorem execActive_of_error {row : Nat} {par : Bool} {s : State} {src : PixelSource} {px : List Run} {e : ItemError}
    (hs : s.source = some src) (hv : activeVideo s.cfg src row par = (px, some e)) :
    execActive row par s = .next ((s.appendAll (horizontalSync s.cfg ++ backPorch s.cfg par ++ px)).raise e) := by
  simp only [execActive, hs, rowOperand, hv]

/-- Settles O21: the columns' runs are those of `activeVideo`, between the lead and the front porch. -/
theorem activeAppendsItsLine : Obligations.ActiveAppendsItsLine := by
  intro row par s src hs hgood
  obtain ⟨px, hpx, hv⟩ := activeVideo_of_good (par := par) hgood
  refine ⟨px, hpx.1, hpx.2, _, execActive_of_whole_line hs hv, ?_⟩
  rw [appendAll_eq_of (n := s.nOut + (leadSamples s.cfg + s.cfg.nVis * nPix s.cfg + nFront s.cfg)) rfl rfl
    (by rw [runSamples_append, runSamples_append, lead_samples, hpx.samples]; rfl)]
  simp [horizontalSync, backPorch, frontPorch, plainRun, burstU, burstV, Run.toLuma, Run.toChroma]

/-- Fault entry records the item index where it fits (R33). -/
theorem raise_err_n_toNat {s : State} (e : ItemError) (h : s.itemIndex < 1024) :
    (s.raise e).err.n.toNat = s.itemIndex := by
  rw [raise_err, record_n, errIndex_toNat s h]

/-- Settles O22: `activeVideo` stops at the first offending column, and fault entry records the error of that column. -/
theorem activeStopsAtTheFirstOffence : Obligations.ActiveStopsAtTheFirstOffence := by
  refine ⟨fun row par s hs => execActive_of_no_source hs row par, fun row x0 par s src hs hx0 hgood hbad => ?_⟩
  obtain ⟨px, e, hpx, he, hv⟩ := activeVideo_of_first_offence (par := par) hx0 hgood hbad
  refine ⟨px, hpx.1, hpx.2, _, execActive_of_error hs hv, ?_, raise_err_n_toNat e, ?_⟩
  · rw [appendAll_eq_of (n := s.nOut + (leadSamples s.cfg + x0 * nPix s.cfg)) rfl rfl
      (by rw [runSamples_append, lead_samples, hpx.samples])]
    simp [State.raise, horizontalSync, backPorch, plainRun, burstU, burstV, Run.toLuma, Run.toChroma]
  · obtain ⟨hnone, rfl⟩ | ⟨p, comp, val, hp, hm, rfl⟩ := activeColumn_error he
    · exact ⟨rfl, rfl, rfl, rfl, fun _ => ⟨rfl, rfl, rfl⟩, fun p hp => absurd (hnone.symm.trans hp) (by simp)⟩
    · refine ⟨rfl, rfl, rfl, rfl, fun hnone => absurd (hnone.symm.trans hp) (by simp), fun q hq => ⟨rfl, ?_⟩⟩
      obtain rfl : p = q := Option.some.inj (hp.symm.trans hq)
      exact hm

end Sys2Proof.Machine
end

section
/-! PROOF. What any word leaves unchanged, and how it differs with the pixels (spec/42_line_builder.md R130, R146 to
R152; spec/60_exceptions.md R203). An item that does not fault appends runs that CFG and the instruction fix, but for
the visible ones, whose kind and count CFG fixes too. -/

namespace Sys2Proof.Machine

/-! ### Illegal words -/

/-- An illegal word has a reserved OP, or the decoder rejects it (R75). -/
theorem reserved_or_rejected_of_lcwIllegal {w : Lcw} (h : lcwIllegal w = true) :
    lcwOp w = 6#3 ∨ lcwOp w = 7#3 ∨ ¬ HasInstr w := by
  simp only [lcwIllegal, Bool.or_eq_true, Bool.and_eq_true, beq_iff_eq, bne_iff_ne] at h
  simp only [HasInstr]
  tauto

/-- Every illegal word has the same meaning (R149). -/
theorem execWord_of_lcwIllegal {w : Lcw} (h : lcwIllegal w = true) (s : State) : execWord w s = illegalWord w s := by
  obtain h6 | h7 | hrejected := reserved_or_rejected_of_lcwIllegal h
  · exact execWord_of_decode (decode_reservedOp6 h6) s
  · exact execWord_of_decode (decode_reservedOp7 h7) s
  · obtain ⟨why, hd⟩ := decode_of_not_hasInstr hrejected
    simp only [execWord, hd]

/-- Settles O23: each of them takes fault entry with IllegalCommand. -/
theorem illegalWordRaisesIllegalCommand : Obligations.IllegalWordRaisesIllegalCommand := by
  intro w s
  have hraise : ∃ t, illegalWord w s = .next t ∧
      t = { s with st := .fault, err := ⟨3#2, t.err.n, 0, 0, 0, 0#2, 0, w⟩, x := t.x, freeCtr := t.freeCtr } ∧
      (s.itemIndex < 1024 → t.err.n.toNat = s.itemIndex) := ⟨_, rfl, rfl, errIndex_toNat s⟩
  refine ⟨?_, fun h => execWord_of_lcwIllegal h s ▸ hraise⟩
  rintro i (rfl | rfl) -
  · exact hraise
  · exact hraise

/-! ### The frame -/

/-- The frame of an instruction: what it leaves, and that `st` and the error registers change by fault entry only. -/
theorem exec_frame {i : Instr} {s t : State} (h : exec i s = .next t) :
    t.even = s.even ∧ t.ph = s.ph ∧ t.it = s.it ∧ t.cfg = s.cfg ∧ t.source = s.source ∧ t.lumaOut = s.lumaOut ∧
    t.chromaOut = s.chromaOut ∧ t.driver = s.driver ∧ t.inputs = s.inputs ∧
    ((t.st = s.st ∧ t.err = s.err) ∨ (t.st = .fault ∧ t.err.code ≠ 0#2)) := by
  obtain ⟨rs, x, rfl, -⟩ | ⟨rs, e, rfl, -⟩ := exec_next_cases h
  · exact ⟨rfl, rfl, rfl, rfl, rfl, rfl, rfl, rfl, rfl, .inl ⟨rfl, rfl⟩⟩
  · exact ⟨rfl, rfl, rfl, rfl, rfl, rfl, rfl, rfl, rfl, .inr ⟨rfl, record_code_ne_zero e _⟩⟩

theorem Appends.grow {s t : State} {rs : List Run} (h : Appends s t rs) :
    s.lbuf <+: t.lbuf ∧ s.cbuf <+: t.cbuf ∧ s.nOut ≤ t.nOut :=
  ⟨⟨_, h.lbuf.symm⟩, ⟨_, h.cbuf.symm⟩, h.nOut ▸ Nat.le_add_right _ _⟩

/-- Settles O24: the source stays as it is, so it reads as before, and appending only grows the buffers. -/
theorem lineBuilderFrame : Obligations.LineBuilderFrame := by
  intro i s t h
  obtain ⟨heven, hph, hit, hcfg, hsource, hluma, hchroma, hdriver, hinputs, hst⟩ := exec_frame h
  obtain ⟨rs, hrs, -⟩ := exec_appendsRuns h
  exact ⟨heven, hph, hit, hcfg, hsource, fun src hs => ⟨src, hsource.trans hs, fun _ _ => rfl⟩, hluma, hchroma, hdriver,
    hinputs, hst, hrs.grow⟩

/-! ### The runs of an item that does not fault -/

/-- The runs of an instruction that does not fault, with `video` as the visible ones of an active line. -/
def itemRuns (c : Cfg) (video : List Run) : Instr → List Run
  | .long _ => longRuns c
  | .short _ => shortRuns c
  | .blank par => blankRuns c par
  | .active _ par => horizontalSync c ++ backPorch c par ++ video ++ frontPorch c
  | .half _ => halfRuns c
  | .tail par => tailRuns c par
  | .reservedOp6 _ => []
  | .reservedOp7 _ => []

/-- The runs of a visible part: one per column, with n_pix samples (R145). -/
structure IsVideo (c : Cfg) (video : List Run) : Prop where
  length : video.length = c.nVis
  runs : ∀ r ∈ video, r.kind = .activeVideo ∧ r.count = nPix c

theorem activeVideo_isVideo {c : Cfg} {src : PixelSource} {ys : Nat} {par : Bool}
    (h : (activeVideo c src ys par).2 = none) : IsVideo c (activeVideo c src ys par).1 :=
  ⟨(activeColumns_length c src ys par _ h).trans List.length_range, activeColumns_runs c src ys par _⟩

theorem IsVideo.samples {c : Cfg} {video : List Run} (h : IsVideo c video) :
    runSamples video = c.nVis * nPix c := by
  rw [runSamples_of_count video (nPix c) fun r hr => (h.runs r hr).2, h.length]

theorem IsVideo.kinds_counts {c : Cfg} {video : List Run} (h : IsVideo c video) :
    video.map (fun r => (r.kind, r.count)) = List.replicate c.nVis (.activeVideo, nPix c) := by
  refine List.eq_replicate_iff.2 ⟨by simp [h.length], List.forall_mem_map.2 fun r hr => ?_⟩
  obtain ⟨hkind, hcount⟩ := h.runs r hr
  rw [hkind, hcount]

theorem IsVideo.filter_eq_nil {c : Cfg} {video : List Run} (h : IsVideo c video) :
    video.filter (fun r => r.kind != .activeVideo) = [] :=
  List.filter_eq_nil_iff.2 fun _ hr => by simp [(h.runs _ hr).1]

/-- A visible part of any image of the right kind and counts; the instructions that read no pixel do not look at it. -/
theorem exists_isVideo (c : Cfg) : ∃ video, IsVideo c video :=
  ⟨List.replicate c.nVis (plainRun .activeVideo 0 (nPix c)), List.length_replicate,
    fun _ hr => List.eq_of_mem_replicate hr ▸ ⟨rfl, rfl⟩⟩

theorem exec_appends_itemRuns {i : Instr} {s t : State} (h : exec i s = .next t) (ht : t.st ≠ .fault) :
    ∃ video, IsVideo s.cfg video ∧ Appends s t (itemRuns s.cfg video i) := by
  obtain ⟨video, hvideo⟩ := exists_isVideo s.cfg
  have plain (hx : exec i s = .next (s.appendAll (itemRuns s.cfg video i))) :
      ∃ video, IsVideo s.cfg video ∧ Appends s t (itemRuns s.cfg video i) := by
    obtain rfl := Host.Outcome.next.inj (hx.symm.trans h)
    exact ⟨video, hvideo, rfl, rfl, rfl⟩
  cases i with
  | long par => exact plain rfl
  | short par => exact plain rfl
  | blank par => exact plain rfl
  | half par => exact plain rfl
  | tail par => exact plain rfl
  | active row par =>
    cases hs : s.source with
    | none => exact absurd ((execActive_of_no_source hs row par).symm.trans h) (by simp)
    | some src =>
      obtain ⟨hv, hx⟩ | ⟨e, -, hx⟩ := execActive_cases row par s src hs
      · obtain rfl := Host.Outcome.next.inj (hx.symm.trans h)
        exact ⟨_, activeVideo_isVideo hv, rfl, rfl, rfl⟩
      · obtain rfl := Host.Outcome.next.inj (hx.symm.trans h)
        exact absurd rfl ht
  | reservedOp6 w =>
    obtain rfl := Host.Outcome.next.inj h
    exact absurd rfl ht
  | reservedOp7 w =>
    obtain rfl := Host.Outcome.next.inj h
    exact absurd rfl ht

/-- The samples and the runs of an instruction that does not fault (R146, R147). -/
def instrCounts (c : Cfg) : Instr → Nat × Nat
  | .long _ => (itemSamples c .long, itemRunCount c .long)
  | .short _ => (itemSamples c .short, itemRunCount c .short)
  | .blank _ => (itemSamples c .blank, itemRunCount c .blank)
  | .active _ _ => (itemSamples c .active, itemRunCount c .active)
  | .half _ => (itemSamples c .half, itemRunCount c .half)
  | .tail _ => (itemSamples c .tail, itemRunCount c .tail)
  | .reservedOp6 _ => (0, 0)
  | .reservedOp7 _ => (0, 0)

theorem itemRuns_counts {c : Cfg} {video : List Run} (h : IsVideo c video) (i : Instr) :
    (runSamples (itemRuns c video i), (itemRuns c video i).length) = instrCounts c i := by
  cases i with
  | long par => rfl
  | short par => rfl
  | blank par => exact Prod.ext (blankRuns_samples c par) rfl
  | active row par =>
    refine Prod.ext ?_ ?_
    · rw [itemRuns, runSamples_append, runSamples_append, lead_samples, h.samples]
      rfl
    · rw [itemRuns, List.length_append, List.length_append, lead_length, h.length]
      change 4 + c.nVis + 1 = c.nVis + 5
      omega
  | half par => rfl
  | tail par => exact Prod.ext (tailRuns_samples c par) rfl
  | reservedOp6 w => rfl
  | reservedOp7 w => rfl

theorem exec_counts {i : Instr} {s t : State} (h : exec i s = .next t) (ht : t.st ≠ .fault) :
    t.nOut = s.nOut + (instrCounts s.cfg i).1 ∧ t.lbuf.length = s.lbuf.length + (instrCounts s.cfg i).2 ∧
      t.cbuf.length = s.cbuf.length + (instrCounts s.cfg i).2 := by
  obtain ⟨video, hvideo, hl, hc, hn⟩ := exec_appends_itemRuns h ht
  rw [← itemRuns_counts hvideo i, hl, hc, hn]
  simp

/-- Settles O25: the counts of `itemRuns`, and REF is computed. -/
theorem itemSampleCounts : Obligations.ItemSampleCounts := by
  refine ⟨fun i s t _ h ht => ?_, by decide +kernel, by decide +kernel⟩
  have hcounts := exec_counts h ht
  cases i <;> exact hcounts

/-! ### The pixels -/

theorem itemRuns_kinds_counts {c : Cfg} {video video' : List Run} (h : IsVideo c video) (h' : IsVideo c video')
    (i : Instr) :
    (itemRuns c video i).map (fun r => (r.kind, r.count)) = (itemRuns c video' i).map (fun r => (r.kind, r.count)) := by
  cases i with
  | active row par => simp only [itemRuns, List.map_append, h.kinds_counts, h'.kinds_counts]
  | _ => rfl

theorem itemRuns_filter {c : Cfg} {video video' : List Run} (h : IsVideo c video) (h' : IsVideo c video')
    (i : Instr) :
    (itemRuns c video i).filter (fun r => r.kind != .activeVideo) =
      (itemRuns c video' i).filter (fun r => r.kind != .activeVideo) := by
  cases i with
  | active row par => simp only [itemRuns, List.filter_append, h.filter_eq_nil, h'.filter_eq_nil]
  | _ => rfl

/-- Settles O26: both executions append `itemRuns`, with visible parts that differ in their values only. -/
theorem onlyActiveVideoDependsOnThePixels : Obligations.OnlyActiveVideoDependsOnThePixels := by
  intro i s t t' other _ h h' ht ht'
  obtain ⟨hn, -⟩ := exec_counts h ht
  obtain ⟨hn', -⟩ := exec_counts h' ht'
  obtain ⟨video, hvideo, hl, hc, -⟩ := exec_appends_itemRuns h ht
  obtain ⟨video', hvideo', hl', hc', -⟩ := exec_appends_itemRuns h' ht'
  have hkinds := itemRuns_kinds_counts hvideo hvideo' i
  have hfilter := itemRuns_filter hvideo hvideo' i
  refine ⟨hn.trans hn'.symm, ?_, ?_, ?_⟩
  · rw [hl, hl', List.map_append, List.map_append, List.map_map, List.map_map]
    exact congrArg _ hkinds
  · rw [hl, hl', List.filter_append, List.filter_append, List.filter_map, List.filter_map]
    exact congrArg (fun rs => _ ++ rs.map Run.toLuma) hfilter
  · rw [hc, hc', List.filter_append, List.filter_append, List.filter_map, List.filter_map]
    exact congrArg (fun rs => _ ++ rs.map Run.toChroma) hfilter

end Sys2Proof.Machine
end

section
/-! PROOF. The binary32 pattern of the burst (spec/42_line_builder.md R135; spec/00_scope.md R8): `f32` rounds a
rational below sqrt(2)/7 and one above it to the same word, so nothing is nearer to sqrt(2)/7 either. -/

namespace Sys2Proof.Machine

/-- The points to which `q` is at least as near as `x` are a half line, so with two points all between them are such. -/
theorem abs_sub_le_abs_sub_of_between {a b k q x : ℝ} (hak : a ≤ k) (hkb : k ≤ b) (ha : |a - q| ≤ |a - x|)
    (hb : |b - q| ≤ |b - x|) : |k - q| ≤ |k - x| := by
  rw [← sq_le_sq] at ha hb ⊢
  obtain h | h := le_total q x
  · nlinarith
  · nlinarith

/-- R8: the burst amplitude with its factor sqrt(1/2). -/
theorem burst_amplitude : Real.sqrt (1 / 2) * ((burstAmp : Rat) : Real) = Real.sqrt 2 / 7 := by
  have hhalf : Real.sqrt (1 / 2) = Real.sqrt 2 / 2 := by
    rw [Real.sqrt_eq_iff_mul_self_eq (by norm_num) (by positivity), div_mul_div_comm,
      Real.mul_self_sqrt zero_le_two]
    norm_num
  rw [hhalf, burstAmp]
  push_cast
  ring

/-- The two rationals lie on both sides of sqrt(2)/7. -/
theorem sqrt_two_div_seven_between :
    ((202030505 / 10 ^ 9 : Rat) : ℝ) ≤ Real.sqrt 2 / 7 ∧ Real.sqrt 2 / 7 ≤ ((202030515 / 10 ^ 9 : Rat) : ℝ) := by
  rw [le_div_iff₀ (by norm_num), div_le_iff₀ (by norm_num), Real.le_sqrt' (by norm_num), Real.sqrt_le_iff]
  norm_num

/-- The values of the two burst patterns. -/
def burstValue : Rat := 13558038 / 2 ^ 26

theorem f32Rat_below_burst : f32Rat (202030505 / 10 ^ 9) = 0x3E4EE116#32 := by decide +kernel

theorem f32Rat_above_burst : f32Rat (202030515 / 10 ^ 9) = 0x3E4EE116#32 := by decide +kernel

theorem f32Value_burst :
    f32Value (f32Chroma .plusK) = some burstValue ∧ f32Value (f32Chroma .minusK) = some (-burstValue) := by
  decide +kernel

/-- No finite value is nearer than the burst's to a rational that rounds to the burst's pattern (R12). -/
theorem burstValue_nearest_of_f32Rat {v : Rat} (hv : |v| < 2 ^ 127) (hf : f32Rat v = 0x3E4EE116#32) {w : F32}
    {x : Rat} (hx : f32Value w = some x) : |(v : ℝ) - (burstValue : ℝ)| ≤ |(v : ℝ) - (x : ℝ)| := by
  obtain ⟨-, -, hnear⟩ := f32IsNearestTiesToEven
  obtain ⟨q, hq, hle, -⟩ := hnear v hv
  rw [hf] at hq
  obtain rfl : burstValue = q := Option.some.inj (f32Value_burst.1.symm.trans hq)
  exact_mod_cast hle w x hx

/-- Settles O37: the rationals just below and just above sqrt(2)/7 have `burstValue` as a nearest value. -/
theorem burstPatternIsNearest : Obligations.BurstPatternIsNearest := by
  obtain ⟨hplus, hminus⟩ := f32Value_burst
  obtain ⟨hbelow, habove⟩ := sqrt_two_div_seven_between
  refine ⟨rfl, rfl, rfl, rfl, rfl, burst_amplitude, burstValue, hplus, hminus, fun w x hx => ?_⟩
  exact abs_sub_le_abs_sub_of_between hbelow habove
    (burstValue_nearest_of_f32Rat (by norm_num [abs_of_pos]) f32Rat_below_burst hx)
    (burstValue_nearest_of_f32Rat (by norm_num [abs_of_pos]) f32Rat_above_burst hx)

end Sys2Proof.Machine
end

section
/-! PROOF. The steps that run a word, in the hardware's own run and in harness mode (spec/42_line_builder.md R131;
spec/43_frame_sequencer.md R162 to R164). -/

namespace Sys2Proof.Machine

/-! ### What the driver hands over -/

theorem fetch_of_issued {s : State} {w : Lcw} (hd : s.driver = .sequencer)
    (hw : issueWord s.ph.toNat s.it.toNat s.even = some w) : s.fetch = .word w := by
  simp only [State.fetch, hd, hw]

theorem fetch_of_harness {s : State} {pos : Nat} {w : Lcw} {rest : List Lcw}
    (hd : s.driver = .harness pos (w :: rest)) : s.fetch = .word w := by
  simp only [State.fetch, hd]

theorem fetch_of_no_words {s : State} {pos : Nat} (hd : s.driver = .harness pos []) : s.fetch = .endOfWords := by
  simp only [State.fetch, hd]

theorem itemIndex_of_harness {s : State} {pos : Nat} {words : List Lcw} (hd : s.driver = .harness pos words) :
    s.itemIndex = pos := by
  simp only [State.itemIndex, hd]

/-! ### The step -/

theorem coreStep_of_word {s : State} {w : Lcw} (hst : s.st = .run) (hw : s.fetch = .word w) :
    coreStep s = outcomeAfterItem (execWord w s) := by
  simp only [coreStep, hst, hw]

theorem coreStep_of_endOfWords {s : State} (hst : s.st = .run) (hw : s.fetch = .endOfWords) :
    coreStep s = .next s.finish := by
  simp only [coreStep, hst, hw]

section
variable {s s' : State} (hq : TakesNoEvent s s')
include hq

theorem TakesNoEvent.st : s'.st = s.st := by rw [hq.eq]
theorem TakesNoEvent.driver : s'.driver = s.driver := by rw [hq.eq]
theorem TakesNoEvent.even : s'.even = s.even := by rw [hq.eq]
theorem TakesNoEvent.ph : s'.ph = s.ph := by rw [hq.eq]
theorem TakesNoEvent.it : s'.it = s.it := by rw [hq.eq]
theorem TakesNoEvent.lbuf : s'.lbuf = s.lbuf := by rw [hq.eq]
theorem TakesNoEvent.cbuf : s'.cbuf = s.cbuf := by rw [hq.eq]

/-- What the driver hands over does not depend on the events to come. -/
theorem TakesNoEvent.fetch : s'.fetch = s.fetch := by
  rw [hq.eq]
  rfl

theorem step_of_word (hc : s.cfg.Legal) (hst : s.st = .run) {w : Lcw} (hw : s.fetch = .word w) :
    step s = outcomeAfterItem (execWord w s') := by
  rw [step_noEvent hc hq, coreStep_of_word (hq.st.trans hst) (hq.fetch.trans hw)]

theorem step_of_decoded (hc : s.cfg.Legal) (hst : s.st = .run) {w : Lcw} {i : Instr} (hw : s.fetch = .word w)
    (hd : decode w = .instr i) : step s = outcomeAfterItem (exec i s') := by
  rw [step_of_word hq hc hst hw, execWord_of_decode hd]

theorem step_of_endOfWords (hc : s.cfg.Legal) (hst : s.st = .run) (hw : s.fetch = .endOfWords) :
    step s = .next s'.finish := by
  rw [step_noEvent hc hq, coreStep_of_endOfWords (hq.st.trans hst) (hq.fetch.trans hw)]

end

theorem decode_of_decodeTableWord {nbits w : Nat} {i : Instr} (h : decodeTableWord nbits w = some i) :
    decode (BitVec.ofNat 16 (w % 2 ^ nbits)) = .instr i := by
  simp only [decodeTableWord] at h
  split at h
  next =>
    split at h
    next hd => rw [hd, Option.some.inj h]
    next => cases h
  next => cases h

/-- Settles O28: the word that either driver hands over is run, and a placed word is a test driver's only one. -/
theorem stepRunsTheDecodedInstruction : Obligations.StepRunsTheDecodedInstruction := by
  constructor
  · intro s s' w i hc hst hq hd hdriver
    have hw : s.fetch = .word w := by
      obtain ⟨hseq, hissue⟩ | ⟨pos, rest, hharness⟩ := hdriver
      · exact fetch_of_issued hseq hissue
      · exact fetch_of_harness hharness
    rw [step_of_decoded hq hc hst hw hd]
    cases exec i s' <;> rfl
  · intro s nbits w i hc h
    have hq : TakesNoEvent (s.withFetchWord nbits w) (s.withFetchWord nbits w) := .inl ⟨rfl, rfl⟩
    rw [step_of_decoded hq hc rfl (fetch_of_harness (withFetchWord_driver s nbits w)) (decode_of_decodeTableWord h)]
    cases exec i (s.withFetchWord nbits w) <;> rfl

/-! ### Harness mode -/

theorem harnessEvent_of_idle {s : State} (hst : s.st = .idle) (words : List Lcw) :
    harnessEvent words s = .next (s.startRun (.harness 0 words)) := if_pos hst

theorem afterItem_of_fault {t : State} (ht : t.st = .fault) : t.afterItem = t := if_pos ht

/-- A test driver moves to its next word after one that does not fault (R131). -/
theorem afterItem_of_harness {t : State} {pos : Nat} {w : Lcw} {rest : List Lcw} (ht : t.st ≠ .fault)
    (hd : t.driver = .harness pos (w :: rest)) : t.afterItem = { t with driver := .harness (pos + 1) rest } := by
  rw [State.afterItem, if_neg ht, State.completeItem, hd]
  rfl

/-- Settles O47: the event begins from the start state, each word is a step, and without a word the step flattens. -/
theorem harnessRun : Obligations.HarnessRun := by
  refine ⟨fun s words rest hc hst hi => ?_, fun s s' t pos w rest hc hst hq hd hx => ?_,
    fun s s' pos hc hst hq hd => ?_⟩
  · rw [step_event s _ rest hc hi]
    exact harnessEvent_of_idle (s := { s with inputs := rest }) hst words
  · obtain ⟨heven, hph, hit, hdriver, -⟩ := execWord_frame hx
    have hd' : t.driver = .harness pos (w :: rest) := (hdriver.trans hq.driver).trans hd
    have hstep : step s = .next t.afterItem := by
      rw [step_of_word hq hc hst (fetch_of_harness hd), hx]
      rfl
    refine ⟨itemIndex_of_harness hd, fun ht => ?_, fun ht => ?_, heven.trans hq.even, hph.trans hq.ph,
      hit.trans hq.it⟩
    · rw [hstep, afterItem_of_harness ht hd']
    · rw [hstep, afterItem_of_fault ht]
  · rw [step_of_endOfWords hq hc hst (fetch_of_no_words hd), ← hq.lbuf, ← hq.cbuf]
    rfl

end Sys2Proof.Machine
end

section
/-! PROOF. What the FrameSequencer hands over at an item and how it moves on (spec/43_frame_sequencer.md R162 to R169):
the fields of the issued word are the item's row of the phase table, and a step ends with the toggle and the advance. -/

namespace Sys2Proof.Machine

/-! ### The fields of an issued word -/

@[simp] theorem lcwRow_lcwWord (row : BitVec 10) (even : Bool) (op : BitVec 3) :
    lcwRow (lcwWord row even op) = row := by
  have heven := Bool.toNat_le even
  apply BitVec.eq_of_toNat_eq
  rw [lcwRow_toNat, lcwWord_toNat]
  omega

@[simp] theorem lcwOp_lcwWord (row : BitVec 10) (even : Bool) (op : BitVec 3) : lcwOp (lcwWord row even op) = op := by
  apply BitVec.eq_of_toNat_eq
  rw [lcwOp_toNat, lcwWord_toNat]
  omega

@[simp] theorem lcwRsv_lcwWord (row : BitVec 10) (even : Bool) (op : BitVec 3) :
    lcwRsv (lcwWord row even op) = 0#2 := by
  have heven := Bool.toNat_le even
  rw [lcwRsv_eq_zero_iff, lcwWord_toNat]
  omega

@[simp] theorem lcwEven_lcwWord (row : BitVec 10) (even : Bool) (op : BitVec 3) :
    lcwEven (lcwWord row even op) = even := by
  have hbit : (row.toNat * 16 + even.toNat * 8 + op.toNat) / 8 % 2 = even.toNat := by
    have heven := Bool.toNat_le even
    omega
  rw [lcwEven_eq, lcwWord_toNat, hbit]
  cases even <;> rfl

/-- A word of an item kind is legal where only ACTIVE has a row (R75). -/
theorem lcwIllegal_lcwWord {kind : ItemKind} {row : BitVec 10} (h : kind ≠ .active → row = 0#10) (even : Bool) :
    lcwIllegal (lcwWord row even kind.op) = false := by
  simp only [lcwIllegal, lcwOp_lcwWord, lcwRsv_lcwWord, lcwRow_lcwWord]
  cases kind with
  | active => simp [ItemKind.op]
  | _ => simp [ItemKind.op, h (by simp)]

/-! ### The phase table, by the number of the phase -/

theorem phaseCount_eq_getD {ph : Nat} (h : ph < 12) :
    phaseCount ph = ([5, 5, 17, 288, 5, 5, 5, 1, 17, 288, 1, 5] : List Nat).getD ph 0 := by
  interval_cases ph <;> rfl

theorem op_toNat_eq_getD {ph : Nat} {p : Phase} (h : phaseTable[ph]? = some p) :
    p.kind.op.toNat = ([0, 1, 2, 3, 1, 0, 1, 4, 2, 3, 5, 1] : List Nat).getD ph 0 := by
  have hph := phase_lt h
  interval_cases ph <;> obtain rfl := Option.some.inj h <;> rfl

/-- Only phases 3 and 9 have rows: the even ones and the odd ones (R162). -/
theorem row_eq_by_phase {ph : Nat} {p : Phase} (h : phaseTable[ph]? = some p) (it : Nat) :
    p.row it = if ph = 3 then 2 * it else if ph = 9 then 2 * it + 1 else 0 := by
  have hph := phase_lt h
  interval_cases ph <;> obtain rfl := Option.some.inj h <;> rfl

/-- Settles O29: the fields of the word are put in from the item's row of the phase table. -/
theorem issuedWordIsLegal : Obligations.IssuedWordIsLegal := by
  intro s hd hph hit
  rw [← phaseCount_eq_getD hph] at hit
  obtain ⟨p, -, hp, hit', -⟩ := issueWord_of_item s.even hph hit
  have hrow : p.row s.it.toNat < 576 := row_lt_sourceRows hp hit'
  have hmod : (BitVec.ofNat 10 (p.row s.it.toNat)).toNat = p.row s.it.toNat := by
    rw [BitVec.toNat_ofNat, Nat.mod_eq_of_lt (by omega)]
  refine ⟨_, fetch_of_issued hd (decode_issued hp hit').1, lcwIllegal_lcwWord (fun hact => ?_) _, lcwRsv_lcwWord ..,
    lcwEven_lcwWord .., ?_, ?_, ?_⟩
  · rw [row_of_not_active hact]
  · rw [lcwRow_lcwWord, hmod, row_eq_by_phase hp]
    simp [← BitVec.toNat_inj]
  · rw [lcwRow_lcwWord, hmod]
    omega
  · rw [lcwOp_lcwWord, op_toNat_eq_getD hp]

/-! ### The end of an item in the hardware's own run -/

theorem afterItem_of_sequencer {t : State} (ht : t.st ≠ .fault) (hd : t.driver = .sequencer) :
    t.afterItem = t.advance := by
  rw [State.afterItem, if_neg ht, State.completeItem, hd]

/-- The frame of a word in a step without an event, from the state before the step. -/
theorem execWord_frame_noEvent {s s' t : State} {w : Lcw} (hq : TakesNoEvent s s') (hx : execWord w s' = .next t) :
    t.even = s.even ∧ t.ph = s.ph ∧ t.it = s.it ∧ t.driver = s.driver ∧ t.lumaOut = s.lumaOut ∧
    t.chromaOut = s.chromaOut ∧ (t.st = s.st ∨ t.st = .fault) := by
  rw [hq.eq] at hx
  obtain ⟨heven, hph, hit, hdriver, hluma, hchroma, -, -, -, hst⟩ := execWord_frame hx
  exact ⟨heven, hph, hit, hdriver, hluma, hchroma, hst.imp And.left And.left⟩

/-- Settles O30: the step is the word's, then the toggle and the advance, or nothing after fault entry. -/
theorem stepTogglesAndAdvances : Obligations.StepTogglesAndAdvances := by
  refine ⟨fun _ => phaseCount_pos, fun s s' t w hc hst hq hd _ hissue hx => ?_⟩
  obtain ⟨heven, hph, hit, hdriver, hluma, hchroma, hend⟩ := execWord_frame_noEvent hq hx
  have hstep : step s = .next t.afterItem := by
    rw [step_of_word hq hc hst (fetch_of_issued hd hissue), hx]
    rfl
  refine ⟨fun ht => ?_, fun ht => ⟨by rw [hstep, afterItem_of_fault ht], heven, hph, hit⟩⟩
  have hrun : t.st = .run := (hend.resolve_right ht).trans hst
  rw [afterItem_of_sequencer ht (hdriver.trans hd)] at hstep
  obtain ⟨p, hp, hcount, -⟩ := issueWord_isSome hissue
  rw [← phaseCount_of_table hp] at hcount
  have hmove := advancePointer_toNat s.ph s.it (phase_lt hp) hcount
  rw [← hph, ← hit, ← advance_ph, ← advance_it] at hmove
  rw [← hph, ← hit, ← heven, ← hluma, ← hchroma]
  refine ⟨t.advance, hstep, advance_even t, fun hlt => ?_, fun hlast => ?_, advance_lbuf t, advance_cbuf t,
    advance_nOut t, advance_err t, fun hphEnd => ?_, fun hphEnd => ?_⟩
  · obtain ⟨-, hsame⟩ | ⟨hlast, -⟩ := hmove
    · exact hsame
    · omega
  · obtain ⟨hlt, -⟩ | ⟨-, hnext⟩ := hmove
    · omega
    · exact hnext
  · obtain ⟨-, hdone⟩ | ⟨hne, -⟩ := advance_end_cases t
    · exact hdone
    · exact absurd hphEnd hne
  · obtain ⟨heq, -⟩ | ⟨-, hgoes, hstreams⟩ := advance_end_cases t
    · exact absurd heq hphEnd
    · exact ⟨hgoes.trans hrun, hstreams⟩

/-- Settles O51: each end of an item keeps the parity, and every event restarts or keeps it. -/
theorem everyStepKeepsTheParityAlternating : Obligations.EveryStepKeepsTheParityAlternating :=
  fun _ _ => step_keeps_parityLegal

end Sys2Proof.Machine
end

section
/-! PROOF. The frame in samples and in seconds (spec/43_frame_sequencer.md R170 to R172), and the state a run starts
from (R165; spec/70_reset_and_hazards.md R230 to R233). -/

namespace Sys2Proof.Machine

/-! ### The frame's samples -/

theorem ref_totals :
    nField1 Cfg.ref = 269695 ∧ nField2 Cfg.ref = 270558 ∧ nFrame Cfg.ref = 540253 ∧
    (List.range 13).map (phaseStart Cfg.ref) =
      [0, 2160, 4320, 18991, 267535, 269695, 271855, 274015, 274447, 289118, 537662, 538093, 540253] := by
  decide +kernel

/-- END starts where the last phase ends (R170, R172). -/
theorem phaseStart_end (c : Cfg) : phaseStart c 12 = nFrame c := by
  simp only [phaseStart, phaseTable, phaseSamples, itemsLong, itemsShort, itemsBlank, itemsActive, nFrame, nField1,
    nField2, List.take_succ_cons, List.take_zero, List.map_cons, List.map_nil, List.sum_cons, List.sum_nil]
  ring

theorem nFrame_by_kind (c : Cfg) :
    nFrame c = 10 * itemSamples c .long + 20 * itemSamples c .short + 34 * itemSamples c .blank +
      576 * itemSamples c .active + itemSamples c .half + itemSamples c .tail := by
  rw [nFrame, nField1, nField2]
  ring

/-- Settles O32: REF is computed, and the phases of the table are those of the two fields. -/
theorem frameTotals : Obligations.FrameTotals := by
  obtain ⟨hfield1, hfield2, hframe, hstarts⟩ := ref_totals
  exact ⟨hfield1, hfield2, hframe, hstarts, fun c => ⟨phaseStart_end c, rfl, rfl, rfl, nFrame_by_kind c⟩⟩

/-! ### The frame's duration -/

/-- The columns of a line last T_ACTIVE together (R10). -/
theorem nVis_mul_pixelDuration {c : Cfg} (hc : c.Legal) : c.nVis * pixelDuration c = c.tActive := by
  obtain ⟨hvis, -⟩ := visible_lt_wide hc
  rw [pixelDuration]
  field_simp

/-- Field 1 is 312.5 line periods, and with its HALF and TAIL Field 2 is 313.5 (R171). -/
theorem field_durations (c : Cfg) :
    ((phaseTable.take 5).map fun p => (p.count : Rat) * itemDuration c p.kind).sum = 625 / 2 * c.tLine ∧
    ((phaseTable.drop 5).map fun p => (p.count : Rat) * itemDuration c p.kind).sum = 627 / 2 * c.tLine := by
  simp only [phaseTable, itemsLong, itemsShort, itemsBlank, itemsActive, itemDuration, List.take_succ_cons,
    List.take_zero, List.drop_succ_cons, List.drop_zero, List.map_cons, List.map_nil, List.sum_cons, List.sum_nil]
  push_cast
  constructor <;> ring

/-- The frame is its two fields. -/
theorem frameDuration_eq (c : Cfg) : frameDuration c = 626 * c.tLine := by
  obtain ⟨hfield1, hfield2⟩ := field_durations c
  rw [frameDuration, ← List.take_append_drop 5 phaseTable, List.map_append, List.sum_append, hfield1, hfield2]
  ring

/-- Settles O33: the durations of an item's runs cancel to half a line, or are the four of R27. -/
theorem frameLasts626LinePeriods : Obligations.FrameLasts626LinePeriods := by
  intro c hc
  have hpixels := nVis_mul_pixelDuration hc
  obtain ⟨hfield1, hfield2⟩ := field_durations c
  obtain ⟨-, -, hline⟩ := hc
  have hporch : c.tBurstDelay + burstDuration c + (c.tBackPorch - c.tBurstDelay - burstDuration c) = c.tBackPorch := by
    ring
  rw [hpixels, hporch]
  exact ⟨add_sub_cancel .., add_sub_cancel .., hline, hline, rfl, by rw [sub_sub, add_sub_cancel]; rfl, hfield1,
    hfield2, frameDuration_eq c⟩

/-! ### The start state -/

theorem startEvent_of_idle {s : State} {src : PixelSource} (hst : s.st = .idle) (hs : s.source = some src) :
    startEvent s = .next (s.startRun .sequencer) := by
  simp only [startEvent, hst, hs, if_true]

theorem attachEvent_of_not_run {s : State} (hst : s.st ≠ .run) (src : PixelSource) :
    attachEvent src s = .next { s with source := some src } := if_neg hst

/-- Two events to come that both answer are a run of two steps. -/
theorem runSteps_two_events {s t u : State} {e e' : HostInput} (hc : s.cfg.Legal) (hi : s.inputs = [e, e'])
    (ht : hostStep e { s with inputs := [e'] } = .next t) (hti : t.inputs = [e'])
    (hu : hostStep e' { t with inputs := [] } = .next u) : runSteps 2 s = .next u := by
  have hstep : step s = .next t := (step_event s e [e'] hc hi).trans ht
  have hone : runSteps 1 s = .next t := by rw [runSteps_succ, hstep]; rfl
  rw [runSteps_succ_of_run hone, step_event t e' [] (step_cfg hstep ▸ hc) hti, hu]

/-- Settles O42: reset leaves the source, and start sets everything else that a run uses. -/
theorem resetThenStartIsAFreshRun : Obligations.ResetThenStartIsAFreshRun := by
  constructor
  · intro s src hc hs hi
    refine ⟨_, runSteps_two_events hc hi rfl rfl (startEvent_of_idle rfl hs), ?_⟩
    simp only [startedRun, State.startRun, State.resetEvent, State.initial, hs]
  · intro c src hc
    exact ⟨startedRun c src,
      runSteps_two_events hc rfl (attachEvent_of_not_run (by simp) src) rfl (startEvent_of_idle rfl rfl), rfl,
      fetch_of_issued rfl (show issueWord 0 0 true = _ by decide), rfl, (decode_lcwWord_plain true).1⟩

end Sys2Proof.Machine
end

section
/-! PROOF. The whole frame of a run whose reads are all good (spec/43_frame_sequencer.md R163, R169 to R172;
spec/44_sample_emitter.md R190, R192): its items stand one after the other in the buffers, each from its own start, so a
pixel stands in both streams at its sample index. -/

namespace Sys2Proof.Machine

/-! ### The streams of a buffer -/

/-- The `j`-th sample of a run stands `j` places past the samples of the runs before it. -/
theorem getElem?_flatMap_replicate {α β : Type} (n : α → Nat) (v : α → β) (pre post : List α) {a : α}
    {j : Nat} (hj : j < n a) :
    ((pre ++ a :: post).flatMap fun b => List.replicate (n b) (v b))[(pre.map n).sum + j]? = some (v a) := by
  have hlen : (pre.flatMap fun b => List.replicate (n b) (v b)).length = (pre.map n).sum := by
    simp [List.length_flatMap]
  rw [List.flatMap_append, List.getElem?_append_right (by omega), hlen, Nat.add_sub_cancel_left, List.flatMap_cons,
    List.getElem?_append_left (by simpa using hj), List.getElem?_replicate, if_pos hj]

theorem length_flattenLuma (l : List LumaRun) : (flattenLuma l).length = (l.map LumaRun.count).sum := by
  simp [flattenLuma, List.length_flatMap]

theorem length_flattenChroma (l : List ChromaRun) : (flattenChroma l).length = (l.map ChromaRun.count).sum := by
  simp [flattenChroma, List.length_flatMap]

theorem sum_counts_toLuma (rs : List Run) : ((rs.map Run.toLuma).map LumaRun.count).sum = runSamples rs := by
  rw [List.map_map]
  rfl

theorem sum_counts_toChroma (rs : List Run) : ((rs.map Run.toChroma).map ChromaRun.count).sum = runSamples rs := by
  rw [List.map_map]
  rfl

/-- Every sample of a run is its rounded value, in both streams (R190). -/
theorem getElem?_flatten_run (pre post : List Run) {r : Run} {j : Nat} (hj : j < r.count) :
    (flattenLuma ((pre ++ r :: post).map Run.toLuma))[runSamples pre + j]? = some (f32Rat r.luma) ∧
    (flattenChroma ((pre ++ r :: post).map Run.toChroma))[runSamples pre + j]? =
      some (f32Chroma r.u, f32Chroma r.w) := by
  have hluma := getElem?_flatMap_replicate LumaRun.count (fun q => f32Rat q.v) (pre.map Run.toLuma)
    (post.map Run.toLuma) (a := r.toLuma) hj
  have hchroma := getElem?_flatMap_replicate ChromaRun.count (fun q => (f32Chroma q.u, f32Chroma q.w))
    (pre.map Run.toChroma) (post.map Run.toChroma) (a := r.toChroma) hj
  rw [sum_counts_toLuma, ← List.map_cons, ← List.map_append] at hluma
  rw [sum_counts_toChroma, ← List.map_cons, ← List.map_append] at hchroma
  exact ⟨hluma, hchroma⟩

/-! ### What a good item appends -/

/-- `item` holds the runs of the item `it` of the phase `p`; those of an active line are the pixels of its row. -/
def IsItemRuns (c : Cfg) (src : PixelSource) (p : Phase) (it : Nat) (even : Bool) (item : List Run) : Prop :=
  ∃ video, item = itemRuns c video (phaseInstr p it even) ∧
    (p.kind = .active → IsColumnRuns c src (p.row it) even c.nVis video)

/-- The items that read no pixel append their runs, whatever the source (R146, R147). -/
theorem exec_phaseInstr_of_no_video {p : Phase} (hp : p.kind ≠ .active) (it : Nat) (even : Bool) (s : State) :
    exec (phaseInstr p it even) s = .next (s.appendAll (itemRuns s.cfg [] (phaseInstr p it even))) := by
  obtain ⟨kind, count, firstRow⟩ := p
  cases kind with
  | active => exact absurd rfl hp
  | _ => rfl

/-- An item whose reads are all good appends its runs and does not fault. -/
theorem exec_phaseInstr_of_good {src : PixelSource} {s : State} (hs : s.source = some src) {p : Phase} {it : Nat}
    (even : Bool) (hgood : ItemGood s.cfg src p it) :
    ∃ u item, exec (phaseInstr p it even) s = .next u ∧ u.st = s.st ∧ IsItemRuns s.cfg src p it even item ∧
      Appends s u item := by
  by_cases hp : p.kind = .active
  · obtain ⟨px, hpx, hv⟩ := activeVideo_of_good (par := even) (hgood hp)
    simp only [IsItemRuns, phaseInstr_of_active hp]
    exact ⟨_, _, execActive_of_whole_line hs hv, rfl, ⟨px, rfl, fun _ => hpx⟩, rfl, rfl, rfl⟩
  · exact ⟨_, _, exec_phaseInstr_of_no_video hp it even s, rfl, ⟨[], rfl, fun h => absurd h hp⟩, rfl, rfl, rfl⟩

/-- A step in RUN past an item whose reads are all good appends the item's runs. -/
theorem OwnRun.appends_item {c : Cfg} {src : PixelSource} {s t : State} (hc : c.Legal) (h : OwnRun c src s)
    (hst : s.st = .run) {p : Phase} (hp : phaseTable[s.ph.toNat]? = some p) (hgood : ItemGood c src p s.it.toNat)
    (hstep : step s = .next t) : ∃ item, IsItemRuns c src p s.it.toNat s.even item ∧ Appends s t item := by
  obtain ⟨p', hp', hit, heq⟩ := h.step_of_run hc hst
  obtain rfl : p' = p := Option.some.inj (hp'.symm.trans hp)
  rw [← h.cfg] at hgood
  obtain ⟨u, item, hx, hu, hruns, hl, hcb, hn⟩ := exec_phaseInstr_of_good h.source s.even hgood
  obtain ⟨-, -, -, -, -, -, -, hdriver, -⟩ := exec_frame hx
  have hlast : u.afterItem = u.advance :=
    afterItem_of_sequencer (by simp [hu, hst]) (hdriver.trans h.driver)
  obtain rfl : u.advance = t := by
    rw [heq, hx, outcomeAfterItem, hlast] at hstep
    exact Host.Outcome.next.inj hstep
  rw [h.cfg] at hruns
  exact ⟨item, hruns, (advance_lbuf u).trans hl, (advance_cbuf u).trans hcb, (advance_nOut u).trans hn⟩

/-! ### The items in the buffers -/

/-- In the runs `rs` the item `it` of phase `ph` stands whole at its start, at the parity of its index (R167, R172). -/
def ItemStands (c : Cfg) (src : PixelSource) (ph it : Nat) (p : Phase) (rs : List Run) : Prop :=
  ∃ pre item post, rs = pre ++ item ++ post ∧ runSamples pre = itemStart c ph it ∧
    IsItemRuns c src p it (scheduleIndex ph it % 2 == 0) item

theorem ItemStands.append {c : Cfg} {src : PixelSource} {ph it : Nat} {p : Phase} {rs : List Run}
    (h : ItemStands c src ph it p rs) (qs : List Run) : ItemStands c src ph it p (rs ++ qs) := by
  obtain ⟨pre, item, post, rfl, hstart, hitem⟩ := h
  exact ⟨pre, item, post ++ qs, List.append_assoc .., hstart, hitem⟩

/-- The state `s` of the hardware's own run holds the runs `rs`, and in them all items before `(ph, it)`. -/
structure HoldsItems (c : Cfg) (src : PixelSource) (s : State) (rs : List Run) : Prop where
  buffers : Appends (startedRun c src) s rs
  parity : ParityLegal s
  position : PositionLegal s
  items : ∀ ph it p, phaseTable[ph]? = some p → it < p.count →
    scheduleIndex ph it < scheduleIndex s.ph.toNat s.it.toNat → ItemStands c src ph it p rs

theorem HoldsItems.nOut {c : Cfg} {src : PixelSource} {s : State} {rs : List Run} (h : HoldsItems c src s rs) :
    s.nOut = runSamples rs := h.buffers.nOut.trans (Nat.zero_add _)

theorem startedRun_holdsItems (c : Cfg) (src : PixelSource) : HoldsItems c src (startedRun c src) [] :=
  ⟨⟨rfl, rfl, rfl⟩, parityLegal_of_start rfl rfl rfl, positionLegal_of_start rfl rfl rfl,
    fun _ _ _ _ _ h => absurd h (Nat.not_lt_zero _)⟩

theorem Appends.trans {s t u : State} {rs qs : List Run} (h : Appends s t rs) (h' : Appends t u qs) :
    Appends s u (rs ++ qs) :=
  ⟨by rw [h'.lbuf, h.lbuf, List.map_append, List.append_assoc],
    by rw [h'.cbuf, h.cbuf, List.map_append, List.append_assoc],
    by rw [h'.nOut, h.nOut, runSamples_append, Nat.add_assoc]⟩

/-- Past an item whose reads are all good the state holds that item too. -/
theorem HoldsItems.next {c : Cfg} {src : PixelSource} {s t : State} {rs : List Run} (h : HoldsItems c src s rs)
    (hc : c.Legal) (hown : OwnRun c src s) (hst : s.st = .run) {p : Phase}
    (hp : phaseTable[s.ph.toNat]? = some p) (hit : s.it.toNat < p.count) (hgood : ItemGood c src p s.it.toNat)
    (hstep : step s = .next t)
    (hindex : scheduleIndex t.ph.toNat t.it.toNat = scheduleIndex s.ph.toNat s.it.toNat + 1) :
    ∃ item, HoldsItems c src t (rs ++ item) := by
  obtain ⟨item, hruns, happ⟩ := hown.appends_item hc hst hp hgood hstep
  refine ⟨item, h.buffers.trans happ, step_keeps_parityLegal h.parity hstep,
    step_keeps_positionLegal h.position hstep, fun ph' it' p' hp' hit' hlt => ?_⟩
  rw [hindex] at hlt
  obtain hlt | heq := Nat.lt_succ_iff_lt_or_eq.mp hlt
  · exact (h.items ph' it' p' hp' hit' hlt).append item
  · obtain ⟨rfl, rfl⟩ := scheduleIndex_injective (phase_lt hp') (by rwa [phaseCount_of_table hp']) (phase_lt hp)
      (by rwa [phaseCount_of_table hp]) heq
    obtain rfl : p' = p := Option.some.inj (hp'.symm.trans hp)
    have hsamples : runSamples rs = itemStart c s.ph.toNat s.it.toNat := by
      rw [← h.nOut, h.position hown.driver (by simp [hst]), hown.cfg]
    rw [(parityLegal_sequencer hown.driver).1 h.parity] at hruns
    exact ⟨rs, item, [], (List.append_nil _).symm, hsamples, hruns⟩

/-! ### The whole run -/

theorem runSteps_keeps (P : State → Prop) (hstep : ∀ s t, P s → step s = .next t → P t) {k : Nat} {s t : State}
    (hs : P s) (h : runSteps k s = .next t) : P t := by
  induction k generalizing s with
  | zero =>
    obtain rfl := Host.Outcome.next.inj h
    exact hs
  | succ k ih =>
    rw [runSteps_succ] at h
    cases hu : step s with
    | next u =>
      rw [hu] at h
      exact ih (hstep s u hs hu) h
    | fault f => simp [hu] at h
    | refused r => simp [hu] at h

theorem GoodBefore.mono {c : Cfg} {src : PixelSource} {k n : Nat} (h : GoodBefore c src n) (hk : k ≤ n) :
    GoodBefore c src k := fun ph it p hp hit hlt => h ph it p hp hit (hlt.trans_le hk)

/-- The items of a frame read rows below 576 only. -/
theorem goodBefore_of_columnsGood {c : Cfg} {src : PixelSource}
    (h : ∀ ys x, ys < 576 → x < c.nVis → ColumnGood src c ys x) (k : Nat) : GoodBefore c src k :=
  fun _ _ _ hp hit _ _ x hx => h _ x (row_lt_sourceRows hp hit) hx

/-- A run whose reads are all good stands, after each number of its 642 steps, past that many items. -/
theorem runSteps_of_good {c : Cfg} {src : PixelSource} (hc : c.Legal) (hgood : GoodBefore c src 642) {k : Nat}
    (hk : k ≤ 642) :
    ∃ t, runSteps k (startedRun c src) = .next t ∧ OwnRun c src t ∧ scheduleIndex t.ph.toNat t.it.toNat = k ∧
      t.st = if k < 642 then .run else .done := by
  obtain ⟨t, hrun, hown, ⟨-, hindex, hst⟩ | ⟨hbad, -⟩⟩ := runSteps_standsAt src hc hk
  · exact ⟨t, hrun, hown, hindex, hst⟩
  · exact absurd (hgood.mono hk) hbad

/-- Such a run holds the items it has passed. -/
theorem runSteps_holdsItems {c : Cfg} {src : PixelSource} (hc : c.Legal) (hgood : GoodBefore c src 642) {k : Nat}
    (hk : k ≤ 642) {t : State} (hrun : runSteps k (startedRun c src) = .next t) : ∃ rs, HoldsItems c src t rs := by
  induction k generalizing t with
  | zero =>
    obtain rfl := Host.Outcome.next.inj hrun
    exact ⟨[], startedRun_holdsItems c src⟩
  | succ k ih =>
    obtain ⟨s, hbefore, hown, hindex, hst⟩ := runSteps_of_good hc hgood (show k ≤ 642 by omega)
    rw [if_pos (by omega)] at hst
    obtain ⟨rs, hholds⟩ := ih (by omega) hbefore
    obtain ⟨p, u, hp, hit, hstep, ⟨hitem, hindex', -⟩ | ⟨hitem, -⟩⟩ := hown.step_item hc hst
    · obtain rfl : u = t := Host.Outcome.next.inj (hstep.symm.trans ((runSteps_succ_of_run hbefore).symm.trans hrun))
      obtain ⟨item, hholds'⟩ := hholds.next hc hown hst hp hit hitem hstep hindex'
      exact ⟨rs ++ item, hholds'⟩
    · exact absurd (hgood _ _ p hp hit (by omega)) hitem

/-- The index of END is that of no item (R22). -/
theorem PointerLegal.at_end {s : State} (h : PointerLegal s) (hindex : scheduleIndex s.ph.toNat s.it.toNat = 642) :
    s.ph = 12#4 ∧ s.it = 0#9 := by
  obtain ⟨hph, hit⟩ | ⟨hph, hit, -⟩ := h
  · exact absurd hindex (scheduleIndex_lt hph hit).ne
  · exact ⟨hph, hit⟩

/-- END is reached after the samples of a frame (R170, R172). -/
theorem itemStart_end (c : Cfg) : itemStart c 12 0 = nFrame c := by
  rw [itemStart, phaseStart_end, phaseTable_none le_rfl, Nat.add_zero]

/-- What a run whose reads are all good has done after its 642 steps. -/
structure WholeRun (c : Cfg) (src : PixelSource) (t : State) (rs : List Run) : Prop where
  own : OwnRun c src t
  done : t.st = .done
  index : scheduleIndex t.ph.toNat t.it.toNat = 642
  holds : HoldsItems c src t rs
  luma : t.lumaOut = flattenLuma (rs.map Run.toLuma)
  chroma : t.chromaOut = flattenChroma (rs.map Run.toChroma)
  err : t.err = ErrRegs.none

theorem exists_wholeRun {c : Cfg} {src : PixelSource} (hc : c.Legal)
    (hgood : ∀ ys x, ys < 576 → x < c.nVis → ColumnGood src c ys x) :
    ∃ t rs, runSteps 642 (startedRun c src) = .next t ∧ WholeRun c src t rs := by
  have hbefore := goodBefore_of_columnsGood hgood 642
  obtain ⟨t, hrun, hown, hindex, hdone⟩ := runSteps_of_good hc hbefore le_rfl
  obtain ⟨rs, hholds⟩ := runSteps_holdsItems hc hbefore le_rfl hrun
  have hgated : OutputsGated t := runSteps_keeps _ (fun _ _ => step_keeps_outputsGated)
    (outputsGated_of_no_streams (by simp [startedRun]) rfl rfl) hrun
  have herrors : ErrorsLegal t := runSteps_keeps _ (fun _ _ => step_keeps_errorsLegal)
    (errorsLegal_of_none (by simp [startedRun]) rfl) hrun
  obtain ⟨hluma, hchroma⟩ := hgated.1 hdone
  rw [hholds.buffers.lbuf] at hluma
  rw [hholds.buffers.cbuf] at hchroma
  exact ⟨t, rs, hrun, hown, hdone, hindex, hholds, hluma, hchroma, herrors.1 (by simp [hdone])⟩

/-- The samples of a whole run are those of a frame (R170). -/
theorem WholeRun.nOut {c : Cfg} {src : PixelSource} {t : State} {rs : List Run} (h : WholeRun c src t rs) :
    t.nOut = nFrame c := by
  obtain ⟨hph, hit⟩ := h.own.pointerLegal.at_end h.index
  rw [h.holds.position h.own.driver (by simp [h.done]), h.own.cfg, hph, hit]
  exact itemStart_end c

/-- Settles O56: the position after the last item is N_FRAME, and the streams are as long as the runs count. -/
theorem goodImageGivesAWholeFrame : Obligations.GoodImageGivesAWholeFrame := by
  intro c src hc hgood
  obtain ⟨t, rs, hrun, h⟩ := exists_wholeRun hc hgood
  obtain ⟨hph, hit⟩ := h.own.pointerLegal.at_end h.index
  have hsamples : runSamples rs = nFrame c := h.holds.nOut.symm.trans h.nOut
  refine ⟨t, hrun, h.done, hph, hit, ?_, h.err, h.nOut, ?_, ?_⟩
  · rw [(parityLegal_sequencer h.own.driver).1 h.holds.parity, h.index]
    rfl
  · rw [h.luma, length_flattenLuma, sum_counts_toLuma, hsamples]
  · rw [h.chroma, length_flattenChroma, sum_counts_toChroma, hsamples]

/-! ### The pixels -/

theorem IsColumnRuns.take {c : Cfg} {src : PixelSource} {ys n x : Nat} {par : Bool} {px : List Run}
    (h : IsColumnRuns c src ys par n px) (hx : x ≤ n) : IsColumnRuns c src ys par x (px.take x) := by
  obtain ⟨rfl, hpx⟩ := h
  refine ⟨by simp [hx], fun y hy => ?_⟩
  rw [List.getElem?_take_of_lt hy]
  exact hpx y (hy.trans_le hx)

/-- Column `x` of a line stands after `x` columns of n_pix samples each (R145). -/
theorem IsColumnRuns.split {c : Cfg} {src : PixelSource} {ys n x : Nat} {par : Bool} {px : List Run}
    (h : IsColumnRuns c src ys par n px) (hx : x < n) :
    ∃ p luma u v before after, pixRead src (columnMap c x) ys = some p ∧ chromaEncode c p par = .sample luma u v ∧
      px = before ++ ⟨.activeVideo, luma, .rat u, .rat v, nPix c⟩ :: after ∧ runSamples before = x * nPix c := by
  obtain ⟨p, luma, u, v, hread, hencode, hget⟩ := h.2 x hx
  obtain ⟨hlt, hrun⟩ := List.getElem?_eq_some_iff.1 hget
  refine ⟨p, luma, u, v, px.take x, px.drop (x + 1), hread, hencode, ?_, (h.take hx.le).samples⟩
  rw [← hrun, List.getElem_cons_drop, List.take_append_drop]

/-- An active item that stands at its start has its pixels at their sample indices in the streams (R148, R172). -/
theorem ItemStands.pixel {c : Cfg} {src : PixelSource} {ph it : Nat} {p : Phase} {rs : List Run}
    (h : ItemStands c src ph it p rs) (hp : p.kind = .active) {x j : Nat} (hx : x < c.nVis) (hj : j < nPix c) :
    ∃ px luma u v, pixRead src (columnMap c x) (p.row it) = some px ∧
      chromaEncode c px (scheduleIndex ph it % 2 == 0) = .sample luma u v ∧
      (flattenLuma (rs.map Run.toLuma))[itemStart c ph it + leadSamples c + x * nPix c + j]? = some (f32Rat luma) ∧
      (flattenChroma (rs.map Run.toChroma))[itemStart c ph it + leadSamples c + x * nPix c + j]? =
        some (f32Rat u, f32Rat v) := by
  obtain ⟨pre, item, post, rfl, hstart, video, rfl, hvideo⟩ := h
  obtain ⟨px, luma, u, v, before, after, hread, hencode, rfl, hbefore⟩ := (hvideo hp).split hx
  refine ⟨px, luma, u, v, hread, hencode, ?_⟩
  have hstream := getElem?_flatten_run
    (pre ++ (horizontalSync c ++ backPorch c (scheduleIndex ph it % 2 == 0)) ++ before)
    (after ++ frontPorch c ++ post) (r := ⟨.activeVideo, luma, .rat u, .rat v, nPix c⟩) hj
  rw [runSamples_append, runSamples_append, hstart, lead_samples, hbefore] at hstream
  rw [phaseInstr_of_active hp, itemRuns]
  simpa only [List.append_assoc, List.cons_append, f32Chroma] using hstream

/-- The item of a source row: phase 3 or 9, and its row is the source row (R56, R162). -/
theorem rowItem_spec {y : Nat} (hy : y < 576) :
    ∃ p, phaseTable[(rowItem y).1]? = some p ∧ p.kind = .active ∧ (rowItem y).2 < p.count ∧
      p.row (rowItem y).2 = y := by
  obtain heven | hodd := Nat.mod_two_eq_zero_or_one y
  · rw [rowItem, if_pos heven]
    exact ⟨⟨.active, 288, 0⟩, rfl, rfl, show y / 2 < 288 by omega, show 2 * (y / 2) + 0 = y by omega⟩
  · rw [rowItem, if_neg (by omega)]
    exact ⟨⟨.active, 288, 1⟩, rfl, rfl, show y / 2 < 288 by omega, show 2 * (y / 2) + 1 = y by omega⟩

/-- Settles O59: the run holds every item at its start, and so the pixels of every row. -/
theorem pixelStandsAtItsSampleIndex : Obligations.PixelStandsAtItsSampleIndex := by
  intro c src hc hgood
  obtain ⟨t, rs, hrun, h⟩ := exists_wholeRun hc hgood
  refine ⟨t, hrun, h.done, fun y x j hy hx hj => ?_⟩
  obtain ⟨p, hp, hact, hit, hrow⟩ := rowItem_spec hy
  have hindex := scheduleIndex_lt (phase_lt hp) (by rwa [phaseCount_of_table hp])
  have hstands := h.holds.items _ _ p hp hit (h.index.symm ▸ hindex)
  have hpixel := hstands.pixel hact hx hj
  rwa [hrow, ← h.luma, ← h.chroma] at hpixel

end Sys2Proof.Machine
end

section
/-! PROOF. What the host may rely on in the streams: the run that covers a sample index (spec/44_sample_emitter.md R193),
and what the streams hold at DONE and in FAULT (R192, R194, R203, R207). -/

namespace Sys2Proof.Machine

/-! ### The run that covers an index -/

/-- Where the `j`-th run covers the index `k`, the sample at `k` is that run's value. -/
theorem getElem?_flatMap_replicate_of_covers {α β : Type} (n : α → Nat) (v : α → β) {l : List α} {j k : Nat} {a : α}
    (ha : l[j]? = some a) (hlo : ((l.take j).map n).sum ≤ k) (hhi : k < ((l.take (j + 1)).map n).sum) :
    (l.flatMap fun b => List.replicate (n b) (v b))[k]? = some (v a) := by
  have hsplit : l = l.take j ++ a :: l.drop (j + 1) := by
    obtain ⟨hj, hget⟩ := List.getElem?_eq_some_iff.1 ha
    rw [← hget, ← List.drop_eq_getElem_cons hj, List.take_append_drop]
  have hcount : k - ((l.take j).map n).sum < n a := by
    rw [List.take_add_one, ha] at hhi
    simp only [Option.toList_some, List.map_append, List.map_cons, List.map_nil, List.sum_append, List.sum_singleton]
      at hhi
    omega
  have hsample := getElem?_flatMap_replicate n v (l.take j) (l.drop (j + 1)) hcount
  rwa [← hsplit, Nat.add_sub_cancel' hlo] at hsample

/-- Settles O34: both streams are replicated runs, one after the other. -/
theorem sampleLookup : Obligations.SampleLookup :=
  ⟨fun _ _ _ _ => getElem?_flatMap_replicate_of_covers LumaRun.count fun r => f32Rat r.v,
    fun _ _ _ _ => getElem?_flatMap_replicate_of_covers ChromaRun.count fun r => (f32Chroma r.u, f32Chroma r.w),
    length_flattenLuma, length_flattenChroma⟩

/-! ### The streams by state -/

theorem doneOut_iff {s : State} : s.doneOut = true ↔ s.st = .done := by simp [State.doneOut]

theorem faultOut_iff {s : State} : s.faultOut = true ↔ s.st = .fault := by simp [State.faultOut]

theorem ErrorsLegal.code_ne_three {s : State} (h : ErrorsLegal s) (hd : s.driver = .sequencer) : s.err.code ≠ 3#2 := by
  obtain ⟨hnone, hfault⟩ := h
  by_cases hst : s.st = .fault
  · exact (hfault hst).2 hd
  · rw [hnone hst]
    decide

/-- At DONE each stream is as long as the counts of its buffer, which the buffers share with `n_out` (R37). -/
theorem streams_length_of_done {s : State} (hp : BuffersPaired s) (ho : OutputsGated s) (hst : s.st = .done) :
    s.lumaOut.length = s.nOut ∧ s.chromaOut.length = s.nOut := by
  obtain ⟨hluma, hchroma⟩ := ho.1 hst
  rw [hluma, hchroma, length_flattenLuma, length_flattenChroma, ← hp.counts_eq]
  exact ⟨hp.2.symm, hp.2.symm⟩

/-- The hardware's own run is DONE only at END, the position after the samples of a frame (R169, R172). -/
theorem CoreInv.nOut_of_done {s : State} (h : CoreInv s) (hst : s.st = .done) (hd : s.driver = .sequencer) :
    s.nOut = nFrame s.cfg := by
  have hph : s.ph = 12#4 := h.stateLegal.1 hst hd
  have hit : s.it = 0#9 := by
    obtain ⟨hlt, -⟩ | ⟨-, hit, -⟩ := h.pointerLegal
    · exact absurd hlt (by simp [hph])
    · exact hit
  rw [h.positionLegal hd (by simp [hst]), hph, hit]
  exact itemStart_end s.cfg

/-- Settles O54: each claim is one part of the invariant, read at the state the output names. -/
theorem doneHasAWholeFrame : Obligations.DoneHasAWholeFrame := by
  intro s h
  simp only [doneOut_iff, faultOut_iff]
  exact ⟨h.errorsLegal.code_ne_three, fun hst => h.outputsGated.2 (by simp [hst]),
    streams_length_of_done h.buffersPaired h.outputsGated, h.nOut_of_done⟩

end Sys2Proof.Machine
end

section
/-! PROOF. Errors and the operating state (spec/60_exceptions.md R205 to R219): what fault entry writes, which steps change
`st`, what FAULT and DONE keep, and where a run whose source has an offending column ends. -/

namespace Sys2Proof.Machine

/-! ### Fault entry -/

/-- Settles O27: fault entry writes the error's registers and the two of the model's own, and no other. -/
theorem faultEntry : Obligations.FaultEntry := fun e s =>
  ⟨rfl, rfl, rfl, by rw [raise_err, record_n], raise_err_n_toNat e, rfl⟩

/-! ### FAULT and DONE -/

/-- What a step can do to the run in progress (R213): the core's own step, reset, the entry into RUN from IDLE, or
nothing: then only the attached source and the events to come can change. -/
theorem step_run_cases {s t : State} (h : step s = .next t) :
    (∃ s', TakesNoEvent s s' ∧ coreStep s' = .next t) ∨
    (s.inputs.head? = some .reset ∧ t.st = .idle) ∨
    (s.st = .idle ∧ t.st = .run ∧
      (s.inputs.head? = some .start ∨ ∃ words, s.inputs.head? = some (.harness words))) ∨
    t = { s with source := t.source, inputs := t.inputs } := by
  obtain ⟨-, ⟨hi, hcs⟩ | ⟨e, rest, hi, hh⟩⟩ := step_next_cases h
  · exact .inl ⟨s, .inl ⟨hi, rfl⟩, hcs⟩
  · have hhead : s.inputs.head? = some e := by rw [hi]; rfl
    obtain ⟨rfl, hcs⟩ | ⟨rfl, rfl⟩ | ⟨rfl, hst, -, rfl⟩ | ⟨words, rfl, hst, rfl⟩ | ⟨src, -, -, rfl⟩ | ⟨-, rfl⟩ :=
      hostStep_next_cases hh
    · exact .inl ⟨_, .inr ⟨rest, hi, rfl⟩, hcs⟩
    · exact .inr (.inl ⟨hhead, rfl⟩)
    · exact .inr (.inr (.inl ⟨hst, rfl, .inl hhead⟩))
    · exact .inr (.inr (.inl ⟨hst, rfl, .inr ⟨words, hhead⟩⟩))
    · exact .inr (.inr (.inr rfl))
    · exact .inr (.inr (.inr rfl))

/-- Outside RUN the core is inactive (R164, R219). -/
theorem coreStep_of_not_run {s : State} (hst : s.st ≠ .run) : coreStep s = .next s := by
  rw [coreStep]
  cases hs : s.st with
  | run => exact absurd hs hst
  | idle => rfl
  | done => rfl
  | fault => rfl

/-- So a step without an event only takes the event from the list. -/
theorem step_noEvent_of_not_run {s s' : State} (hc : s.cfg.Legal) (hst : s.st ≠ .run) (hq : TakesNoEvent s s') :
    step s = .next s' := by
  rw [step_noEvent hc hq, coreStep_of_not_run (hq.st ▸ hst)]

/-- Once a run has ended, a step without reset can only attach a source and take an event (R208, R213). -/
theorem step_frame_of_ended {s t : State} (hst : s.st = .fault ∨ s.st = .done) (h : step s = .next t)
    (hreset : s.inputs.head? ≠ some .reset) : t = { s with source := t.source, inputs := t.inputs } := by
  obtain ⟨s', hq, hcs⟩ | ⟨hhead, -⟩ | ⟨hidle, -⟩ | hframe := step_run_cases h
  · have hrun : s'.st ≠ .run := by obtain hst | hst := hst <;> simp [hq.st, hst]
    obtain rfl : s' = t := Host.Outcome.next.inj ((coreStep_of_not_run hrun).symm.trans hcs)
    rw [hq.eq]
  · exact absurd hhead hreset
  · obtain hst | hst := hst <;> exact absurd (hidle.symm.trans hst) (by simp)
  · exact hframe

/-- Settles O44: an ended run changes in its source and its events only, and outside RUN the core is inactive. -/
theorem faultAndDoneAreLeftOnlyByReset : Obligations.FaultAndDoneAreLeftOnlyByReset := by
  refine ⟨fun s t hst h hreset => ?_, fun s s' => step_noEvent_of_not_run⟩
  rw [step_frame_of_ended hst h hreset]
  exact ⟨rfl, rfl, rfl, rfl, rfl, rfl, rfl, rfl⟩

/-! ### The transitions of `st` -/

/-- The item from which the FrameSequencer reaches END is the last one (R161, R163). -/
theorem last_item_of_advance_to_end (ph : BitVec 4) (it : BitVec 9) {p : Phase} (hp : phaseTable[ph.toNat]? = some p)
    (hit : it.toNat < p.count) (hend : (advancePointer ph it).1 = 12#4) :
    scheduleIndex ph.toNat it.toNat = 641 ∧ (advancePointer ph it).2 = 0#9 := by
  have hindex := scheduleIndex_advance ph it (phase_lt hp) (by rwa [phaseCount_of_table hp])
  obtain ⟨hne, -⟩ | ⟨-, hzero⟩ := advancePointer_legal ph it hp hit
  · exact absurd hend hne
  · have hlast : scheduleIndex (12#4).toNat (0#9).toNat = 642 := rfl
    rw [hend, hzero, hlast] at hindex
    exact ⟨by omega, hzero⟩

/-- The core's own step changes `st` at the end of a run only: past the last item or the last word, or at an error
(R131, R169, R205). -/
theorem coreMove_st_cases {s t : State} (h : CoreMove s t) (hne : t.st ≠ s.st) :
    s.st = .run ∧
      ((t.st = .done ∧ (s.driver = .sequencer → s.itemIndex = 641 ∧ t.ph = 12#4 ∧ t.it = 0#9) ∧
          ∀ pos words, s.driver = .harness pos words → words = []) ∨
        (t.st = .fault ∧ t.err.code ≠ 0#2)) := by
  cases h with
  | inactive => exact absurd rfl hne
  | flatten hst hd =>
    refine ⟨hst, .inl ⟨rfl, fun hseq => ?_, fun pos words hd' => ?_⟩⟩
    · rw [hd] at hseq
      cases hseq
    · rw [hd] at hd'
      cases hd'
      rfl
  | fault hst _ hx hu =>
    obtain ⟨-, -, -, -, -, -, -, -, -, ⟨hsame, -⟩ | herr⟩ := execWord_frame hx
    · exact absurd hsame hne
    · exact ⟨hst, .inr herr⟩
  | nextWord hst _ _ hu => exact absurd (hu.trans hst.symm) hne
  | @nextItem _ _ u hst hd hp hit _ hx hu =>
    obtain ⟨-, hph, hpos, -⟩ := execWord_frame hx
    obtain ⟨hend, hdone, -⟩ | ⟨-, hsame, -⟩ := advance_end_cases u
    · rw [advance_ph, hph, hpos] at hend
      obtain ⟨hlast, hzero⟩ := last_item_of_advance_to_end _ _ hp hit hend
      refine ⟨hst, .inl ⟨hdone, fun _ => ⟨?_, ?_, ?_⟩, fun pos words hd' => ?_⟩⟩
      · simpa only [State.itemIndex, hd] using hlast
      · rw [advance_ph, hph, hpos, hend]
      · rw [advance_it, hph, hpos, hzero]
      · rw [hd] at hd'
        cases hd'
    · exact absurd (hsame.trans (hu.trans hst.symm)) hne

theorem TakesNoEvent.head {s s' : State} (hq : TakesNoEvent s s') :
    s.inputs = [] ∨ s.inputs.head? = some .quiet := by
  obtain ⟨hi, -⟩ | ⟨rest, hi, -⟩ := hq
  · exact .inl hi
  · exact .inr (by rw [hi]; rfl)

theorem TakesNoEvent.itemIndex {s s' : State} (hq : TakesNoEvent s s') : s'.itemIndex = s.itemIndex := by
  rw [hq.eq]
  rfl

/-- Settles O43: the core's own step ends a run, reset leads to IDLE, and start or a begin leads from IDLE to RUN. -/
theorem stateTransitions : Obligations.StateTransitions := by
  intro s t h hne
  obtain ⟨s', hq, hcs⟩ | hreset | hstart | hframe := step_run_cases h
  · have hcases := coreMove_st_cases (coreMove_of_coreStep hcs) (by rwa [hq.st])
    rw [hq.st, hq.driver, hq.itemIndex] at hcases
    obtain ⟨hrun, hdone | hfault⟩ := hcases
    · exact .inr (.inr (.inl ⟨hq.head, hrun, hdone⟩))
    · exact .inr (.inr (.inr ⟨hq.head, hrun, hfault⟩))
  · exact .inl hreset
  · exact .inr (.inl hstart)
  · exact absurd (by rw [hframe]) hne

/-! ### The first offence of a run -/

/-- Only phases 3 and 9 are active (R160). -/
theorem active_phase_cases {ph : Nat} {p : Phase} (hp : phaseTable[ph]? = some p) (hact : p.kind = .active) :
    ph = 3 ∨ ph = 9 := by
  have hph := phase_lt hp
  interval_cases ph <;> obtain rfl := Option.some.inj hp <;> revert hact <;> decide

/-- The reads before an active item are those of the rows before its own, in the order of the fields (R162). -/
theorem goodBefore_of_rows {c : Cfg} {src : PixelSource} {ph it : Nat} (hph : ph = 3 ∨ ph = 9) (hit : it < 288)
    (heven : ∀ i x, (i < it ∨ ph = 9) → i < 288 → x < c.nVis → ColumnGood src c (2 * i) x)
    (hodd : ∀ i x, ph = 9 → i < it → x < c.nVis → ColumnGood src c (2 * i + 1) x) :
    GoodBefore c src (scheduleIndex ph it) := by
  intro ph' i p hp hi hlt hact x hx
  have hfield1 (n : Nat) : scheduleIndex 3 n = 27 + n := rfl
  have hfield2 (n : Nat) : scheduleIndex 9 n = 348 + n := rfl
  obtain ⟨hcount, -⟩ := active_phase_bounds hp hact
  rw [row_eq_by_phase hp]
  obtain rfl | rfl := active_phase_cases hp hact
  · refine heven i x ?_ (by omega) hx
    obtain rfl | rfl := hph
    · rw [hfield1, hfield1] at hlt
      exact .inl (by omega)
    · exact .inr rfl
  · obtain rfl | rfl := hph
    · rw [hfield1, hfield2] at hlt
      omega
    · rw [hfield2, hfield2] at hlt
      exact hodd i x rfl (by omega) hx

/-- A run comes to every item before which all reads are good, with the samples of the items before it (R163, R172). -/
theorem runSteps_reaches_item {c : Cfg} {src : PixelSource} (hc : c.Legal) {ph it : Nat} {p : Phase}
    (hp : phaseTable[ph]? = some p) (hit : it < p.count) (hgood : GoodBefore c src (scheduleIndex ph it)) :
    ∃ s, runSteps (scheduleIndex ph it) (startedRun c src) = .next s ∧ OwnRun c src s ∧ s.st = .run ∧
      s.ph.toNat = ph ∧ s.it.toNat = it ∧ s.nOut = itemStart c ph it := by
  have hph := phase_lt hp
  rw [← phaseCount_of_table hp] at hit
  have hlt := scheduleIndex_lt hph hit
  obtain ⟨s, hrun, hown, ⟨-, hindex, hst⟩ | ⟨hbad, -⟩⟩ := runSteps_standsAt src hc hlt.le
  · rw [if_pos hlt] at hst
    obtain ⟨hph', hit'⟩ := hown.pointerLegal.item (by simp [hst])
    have hposition : PositionLegal s := runSteps_keeps _ (fun _ _ => step_keeps_positionLegal)
      (positionLegal_of_start rfl rfl rfl) hrun
    have hnOut := hposition hown.driver (by simp [hst])
    obtain ⟨hphEq, hitEq⟩ := scheduleIndex_injective hph' hit' hph hit hindex
    rw [hown.cfg, hphEq, hitEq] at hnOut
    exact ⟨s, hrun, hown, hst, hphEq, hitEq, hnOut⟩
  · exact absurd hgood hbad

/-- An item that faults is the whole step (R205). -/
theorem OwnRun.step_of_fault {c : Cfg} {src : PixelSource} {s t : State} (hc : c.Legal) (h : OwnRun c src s)
    (hst : s.st = .run) {p : Phase} (hp : phaseTable[s.ph.toNat]? = some p)
    (hx : exec (phaseInstr p s.it.toNat s.even) s = .next t) (ht : t.st = .fault) : step s = .next t := by
  obtain ⟨q, hq, -, hstep⟩ := h.step_of_run hc hst
  obtain rfl : q = p := Option.some.inj (hq.symm.trans hp)
  rw [hstep, hx, outcomeAfterItem, afterItem_of_fault ht]

/-- A run that has come to a state whose next state is itself stays there. -/
theorem runSteps_stays {k n : Nat} {s t : State} (h : runSteps k s = .next t) (ht : step t = .next t) (hn : k ≤ n) :
    runSteps n s = .next t := by
  induction n, hn using Nat.le_induction with
  | base => exact h
  | succ n _ ih => exact (runSteps_succ_of_run ih).trans ht

/-- A row of a field is that of the item `it` of an active phase (R162). -/
theorem exists_active_phase {ph it row : Nat} (hrow : (ph = 3 ∧ row = 2 * it) ∨ (ph = 9 ∧ row = 2 * it + 1)) :
    ∃ p, phaseTable[ph]? = some p ∧ p.kind = .active ∧ p.count = 288 ∧ p.row it = row := by
  obtain ⟨rfl, rfl⟩ | ⟨rfl, rfl⟩ := hrow
  · exact ⟨⟨.active, 288, 0⟩, rfl, rfl, rfl, rfl⟩
  · exact ⟨⟨.active, 288, 1⟩, rfl, rfl, rfl, rfl⟩

/-- Settles O58: the run comes to the item, takes fault entry at its first offending column, and stays in FAULT. -/
theorem firstOffenceWins : Obligations.FirstOffenceWins := by
  intro c src ph it row x0 hc hrow hit hx0 heven hodd hbefore hbad
  obtain ⟨p, hp, hact, hcount, hprow⟩ := exists_active_phase hrow
  have hindex : scheduleIndex ph it < 642 := scheduleIndex_lt (phase_lt hp) (by rwa [phaseCount_of_table hp, hcount])
  obtain ⟨s, hrun, hown, hst, rfl, rfl, hnOut⟩ := runSteps_reaches_item hc hp (hcount ▸ hit)
    (goodBefore_of_rows (active_phase_cases hp hact) hit heven hodd)
  obtain rfl := hown.cfg
  obtain ⟨px, -, -, t, hx, hframe, hn, hex, hexs, heys, -, hnone, hsome⟩ :=
    activeStopsAtTheFirstOffence.2 row x0 s.even s src hown.source hx0 hbefore hbad
  have hfault : t.st = .fault := by rw [hframe]
  have hitem : s.itemIndex = scheduleIndex s.ph.toNat s.it.toNat := by simp only [State.itemIndex, hown.driver]
  rw [← hprow, ← phaseInstr_of_active hact] at hx
  have hstep := hown.step_of_fault hc hst hp hx hfault
  refine ⟨t, runSteps_stays ((runSteps_succ_of_run hrun).trans hstep)
    ((hown.next hc hstep).step_of_not_run hc (by simp [hfault])) hindex, hfault, ?_, ?_, ?_, hex, hexs, heys, ?_, ?_⟩
  · rw [hframe]
  · rw [hframe]
  · rw [hn (by omega), hitem]
  · split
    next hout => exact (hnone ((pixRead_eq_none_iff ..).2 hout)).1
    next hin => exact (hsome _ (if_neg hin)).1
  · rw [hframe, ← hnOut, ← Nat.add_assoc]

end Sys2Proof.Machine
end

section
/-! PROOF. Reset, start, the attached source and the end of every run (spec/70_reset_and_hazards.md R230, R231, R238,
R243): what each event answers, that no state of the invariant stops the model, and that a run has 642 items at most. -/

namespace Sys2Proof.Machine

/-! ### Reset and start -/

/-- Settles O40: the reset values are those of R41, and the event to come has been taken. -/
theorem resetEventResetsEverything : Obligations.ResetEventResetsEverything :=
  fun s rest => step_event s .reset rest

theorem startEvent_of_no_source {s : State} (hst : s.st = .idle) (hs : s.source = none) :
    startEvent s = .refused .pixelSourceNotAttached := by
  simp only [startEvent, hst, hs, if_true]

theorem startEvent_of_not_idle {s : State} (hst : s.st ≠ .idle) : startEvent s = .next s := if_neg hst

theorem harnessEvent_of_not_idle {s : State} (hst : s.st ≠ .idle) (words : List Lcw) :
    harnessEvent words s = .next s := if_neg hst

/-- Settles O41: one clause for each answer of the start event, and one for a begin outside IDLE. -/
theorem startIsAcceptedOnlyInIdle : Obligations.StartIsAcceptedOnlyInIdle := by
  refine ⟨fun s rest src hc hi hst hs => ?_, fun s rest hc hi hst hs => ?_, fun s rest hc hi hst => ?_,
    fun s words rest hc hi hst => ?_⟩ <;> rw [step_event s _ rest hc hi]
  · exact startEvent_of_idle (s := { s with inputs := rest }) hst hs
  · exact startEvent_of_no_source (s := { s with inputs := rest }) hst hs
  · exact startEvent_of_not_idle (s := { s with inputs := rest }) hst
  · exact harnessEvent_of_not_idle (s := { s with inputs := rest }) hst words

/-! ### The pixel source in a run -/

theorem attachEvent_of_no_source {s : State} (hst : s.st = .run) (hs : s.source = none) (src : PixelSource) :
    attachEvent src s = .refused .pixelSourceChanged := by
  simp only [attachEvent, hst, hs, if_true]

/-- In RUN the answer of the attach event turns on whether the image is the attached one (R238). -/
theorem attachEvent_of_run {s : State} {old : PixelSource} (hst : s.st = .run) (hs : s.source = some old)
    (src : PixelSource) :
    attachEvent src s = if old.sameImage src then .next s else .refused .pixelSourceChanged := by
  simp only [attachEvent, hst, hs, if_true]

/-- Settles O46: outside RUN the source is stored, and in RUN the same image is the one `sameImage` accepts. -/
theorem pixelSourceIsConstantInARun : Obligations.PixelSourceIsConstantInARun := by
  intro s src rest hc hi
  rw [step_event s _ rest hc hi]
  refine ⟨fun hst => ?_, fun old hst hs hsame => ?_, fun hst hs => ?_, fun old hst hs hdiff => ?_⟩
  · exact attachEvent_of_not_run (s := { s with inputs := rest }) hst src
  · rw [← sameImage_iff] at hsame
    exact (attachEvent_of_run (s := { s with inputs := rest }) hst hs src).trans (if_pos hsame)
  · exact attachEvent_of_no_source (s := { s with inputs := rest }) hst hs src
  · rw [← sameImage_iff] at hdiff
    exact (attachEvent_of_run (s := { s with inputs := rest }) hst hs src).trans (if_neg hdiff)

/-! ### The model's own stops -/

/-- No word stops the model with a fault: an error of the core is a next state, in FAULT (R149, R205). -/
theorem execWord_ne_fault (w : Lcw) (s : State) (f : Fault) : execWord w s ≠ .fault f := by
  cases hd : decode w with
  | instr i =>
    rw [execWord_of_decode hd]
    obtain ⟨t, hx⟩ | ⟨hx, -⟩ := exec_stops_only_without_source i s <;> simp [hx]
  | illegal why v => simp [execWord, hd, illegalWord]

/-- A legal pointer names an item in RUN, so the FrameSequencer has a word to issue there (R22, R162). -/
theorem PointerLegal.fetch_ne_offSchedule {s : State} (hp : PointerLegal s) (hst : s.st ≠ .done) :
    s.fetch ≠ .offSchedule := by
  cases hd : s.driver with
  | sequencer =>
    obtain ⟨hph, hit⟩ := hp.item hst
    obtain ⟨p, w, -, -, hissue, -⟩ := issueWord_of_item s.even hph hit
    simp [fetch_of_issued hd hissue]
  | harness pos words =>
    cases words with
    | nil => simp [fetch_of_no_words hd]
    | cons w rest => simp [fetch_of_harness hd]

theorem coreStep_ne_fault {s : State} (hp : PointerLegal s) (f : Fault) : coreStep s ≠ .fault f := by
  by_cases hst : s.st = .run
  · cases hf : s.fetch with
    | word w =>
      rw [coreStep_of_word hst hf]
      cases hx : execWord w s with
      | next t => simp [outcomeAfterItem]
      | fault g => exact absurd hx (execWord_ne_fault w s g)
      | refused r => simp [outcomeAfterItem]
    | endOfWords => simp [coreStep_of_endOfWords hst hf]
    | offSchedule => exact absurd hf (hp.fetch_ne_offSchedule (by simp [hst]))
  · simp [coreStep_of_not_run hst]

/-- An event of the host answers a next state or a refusal; `quiet` leaves the step to the core. -/
theorem hostStep_ne_fault {s : State} (hp : PointerLegal s) (e : HostInput) (f : Fault) : hostStep e s ≠ .fault f := by
  cases e with
  | quiet => exact coreStep_ne_fault hp f
  | reset => simp [hostStep]
  | start =>
    simp only [hostStep, startEvent]
    split
    · split <;> simp
    · simp
  | harness words =>
    simp only [hostStep, harnessEvent]
    split <;> simp
  | attach src =>
    simp only [hostStep, attachEvent]
    split
    · split
      · split <;> simp
      · simp
    · simp
  | reconfigure c =>
    simp only [hostStep, reconfigureEvent]
    split <;> simp

theorem step_ne_fault {s : State} (hc : s.cfg.Legal) (hp : PointerLegal s) (f : Fault) : step s ≠ .fault f := by
  cases hi : s.inputs with
  | nil =>
    rw [step_quiet s hc hi]
    exact coreStep_ne_fault hp f
  | cons e rest =>
    rw [step_event s e rest hc hi]
    exact hostStep_ne_fault (s := { s with inputs := rest }) hp e f

/-! ### The hardware's own run goes on -/

/-- In RUN the hardware's own run has an item and a source, with which the item answers a next state (R220). -/
theorem CoreInv.step_of_run {s s' : State} (h : CoreInv s) (hq : TakesNoEvent s s') (hst : s.st = .run)
    (hd : s.driver = .sequencer) : ∃ t, step s = .next t := by
  obtain ⟨hph, hit⟩ := h.pointerLegal.item (by simp [hst])
  obtain ⟨p, w, -, -, hissue, hdecode⟩ := issueWord_of_item s.even hph hit
  obtain ⟨-, -, hattached⟩ := h.sourceLegal
  obtain ⟨src, hs⟩ := Option.isSome_iff_exists.mp (hattached hst hd)
  have hs' : s'.source = some src := by rw [hq.eq, hs]
  obtain ⟨u, hx, -⟩ := exec_phaseInstr_outcome hs' p s.it.toNat s.even
  refine ⟨u.afterItem, ?_⟩
  rw [step_of_decoded hq h.cfgLegal hst (fetch_of_issued hd hissue) hdecode, hx]
  rfl

/-- Settles O53: a legal pointer is on the schedule, and only an ACTIVE item without a source is refused. -/
theorem runNeverStops : Obligations.RunNeverStops := by
  refine ⟨fun s f h => step_ne_fault h.cfgLegal h.pointerLegal f, fun s s' h hq hd => ?_⟩
  by_cases hst : s.st = .run
  · exact h.step_of_run hq hst hd
  · exact ⟨s', step_noEvent_of_not_run h.cfgLegal hst hq⟩

/-- Settles O55: after its 642 items the run stands past them all, in DONE, or has faulted at one. -/
theorem everyRunEndsWithin642Steps : Obligations.EveryRunEndsWithin642Steps := by
  intro c src hc
  obtain ⟨t, hrun, -, ⟨-, -, hdone⟩ | ⟨-, hfault, -⟩⟩ := runSteps_standsAt src hc le_rfl
  · exact ⟨642, t, le_rfl, hrun, .inl hdone⟩
  · exact ⟨642, t, le_rfl, hrun, .inr hfault⟩

end Sys2Proof.Machine
end
